-- ==== Sys2Proof/Word.lean ====
section
/-! DEFINITION. The widths of 00_scope.md R8, each under its own name, the words of the block built from them, and the two logic
levels. -/

namespace Sys2Proof

/-! ## The widths and counts of R8: parameters with the values the spec takes, so that a claim can name them -/

namespace Config

/-- `DATA_BITS`, data clocks per frame (R8). -/
abbrev dataBits : Nat := 24

/-- `PIN_W`, the width of a GPIO identifier (R8, D4). -/
abbrev pinW : Nat := 8

/-- `N_W`, the width of the unsigned sample count `n` (R8, D5). -/
abbrev nW : Nat := 8

/-- `RAW_W`, the width of the container of `adc.lastRawReading` (R8, D6). -/
abbrev rawW : Nat := 32

/-- `OFFSET_W`, the width of the signed `adc.offset` (R8, D6). -/
abbrev offsetW : Nat := 32

/-- `ACC_W`, the width of the sum of `n` reads: at least 32 bits (R8, D7). -/
abbrev accW : Nat := 32

/-- `TIME_W`, the width of a millisecond count (R8, D9). -/
abbrev timeW : Nat := 32

/-- `COUNT_W`, the width of the edge counter (R8, D10). -/
abbrev countW : Nat := 32

/-- `N_ADC`, LoadCellChannels in a block (R8, R33, D23): State holds one ADC unit. -/
abbrev nAdc : Nat := 1

/-- `POWERDOWN_HIGH_US`: a clock HIGH for more than this many microseconds puts the device in low-power mode (R8). The model has
no time (R260), so nothing reads it. -/
abbrev powerDownHighUs : Nat := 60

end Config

/-! ## Words -/

/-- An 8-bit operand: a gain code (30_encoding.md R62). -/
abbrev Byte := BitVec 8

/-- A GPIO identifier (10_state.md R11, R17). -/
abbrev Pin := BitVec Config.pinW

/-- The sample count `n` (R8, R120). -/
abbrev Count := BitVec Config.nW

/-- A wire code or a stored code (30_encoding.md R63). -/
abbrev Code := BitVec Config.dataBits

/-- A stored code in its container, or a difference of one (R16, R134). -/
abbrev Raw := BitVec Config.rawW

/-- The value of `adc.offset` (R15). -/
abbrev Offset := BitVec Config.offsetW

/-- The sum of `n` reads (R27). -/
abbrev Acc := BitVec Config.accW

/-- A millisecond count (R19, R54). -/
abbrev Time := BitVec Config.timeW

/-- The number of accepted edges (R20). -/
abbrev EdgeCount := BitVec Config.countW

/-- A binary64 bit pattern (R14, R21). -/
abbrev F64 := BitVec 64

/-- The gain selector, the number of extra clock pulses of a frame (R13). -/
abbrev GainSel := BitVec 2

/-- A logic level: `LOW` = 0, `HIGH` = 1 (00_scope.md R9). -/
inductive Level where
  | low
  | high
deriving DecidableEq, Repr, Inhabited

/-- The bit a sample carries inside a data pulse: LOW is 0, HIGH is 1 (R64). -/
def Level.bit : Level → Bool
  | .low => false
  | .high => true

/-- The level that carries a bit. -/
def Level.ofBit : Bool → Level
  | false => .low
  | true => .high

/-- The four binary64 operations of 00_scope.md R9. -/
inductive FpOp where
  | add
  | sub
  | mul
  | div
deriving DecidableEq, Repr

end Sys2Proof
end

