-- ==== Sys2Proof/Config.lean ====
section
/-! DEFINITION. The parameters of 00_scope.md R8 and the free values; its widths and counts are in Word.lean, under this same
namespace, and its `GAIN_PULSES` is `Machine.gainSelOf`.

A free value is an `opaque` constant with no body: nothing can be proved of its value. -/

namespace Sys2Proof

/-- The two parameters of R8 whose other settings the spec also describes. They are fixed for one block; they travel in
State because the step has no other argument (log 6). -/
structure Config where
  /-- `ATOMIC_READS` (42_pulse_capture.md R168). -/
  atomicReads : Bool
  /-- `READY_POLL_BOUND` (40_adc_wire.md R97): `none` is the unbounded wait. -/
  readyPollBound : Option Nat
deriving DecidableEq, Repr

namespace Config

/-- The normative values of R8: reads may tear (D17), the wait is unbounded (D21). -/
def normative : Config := { atomicReads := false, readyPollBound := none }

/-- `DEBOUNCE_MS` (R8, R160). -/
def debounceMs : Nat := 1

/-- `SPEED_NUM`, 60000.0 (R8, R163; bit pattern in 95_test_vectors.md F3). -/
def speedNum : F64 := 0x40ED4C0000000000#64

/-- 1000.0, milliseconds in a second (R160). -/
def msPerSecond : F64 := 0x408F400000000000#64

/-- `FILTER_T`, 2.0 seconds (R8, R160). -/
def filterT : F64 := 0x4000000000000000#64

/-- 1.0 (44_filters.md R200). -/
def one : F64 := 0x3FF0000000000000#64

/-- `DEFAULT_GAIN` = 128, the assembler's default operand of `adc.construct` (R8, R77). -/
def defaultGain : Byte := 128#8

/-- `RESET_SCALE`: unwritten (R8, D13). -/
def resetScale : Option F64 := none

/-- `RESET_OFFSET`: unwritten (R8, D13). -/
def resetOffset : Option Offset := none

/-- FREE VALUE: sign and payload of the NaN an operation produces (R135, 93 U6; log 5). -/
opaque freeNaN : FpOp → F64 → F64 → F64

/-- FREE VALUE: the level the data pin shows at the k-th unscripted sample (R53, U13; log 2). -/
opaque freeLevel : Nat → Level

/-- FREE VALUE: the k-th unscripted answer of `NowMillis` (R54; log 2). -/
opaque freeNow : Nat → Time

/-- FREE VALUE: the k-th batch of unlisted falling edges, each with the number of further micro-steps before its delivery and the
clock value its handler reads (R55, R230; log 3). -/
opaque freeEdges : Nat → List (Nat × Time)

/-- FREE VALUE: which remaining byte an unscripted torn read takes next (R44, R168; log 4). -/
opaque freePick : Nat → Nat

/-- FREE VALUE: what a never-written byte of the surrounding software's storage reads as (43 R188; log 22). -/
opaque erasedByte : Nat → BitVec 8

/-- FREE VALUE: what a read outside the surrounding software's storage gives (43 R188; log 22). -/
opaque absentByte : Nat → BitVec 8

/-- OPEN parameter `NV_BASE` of the surrounding software (43 R184, D24). -/
opaque nvBase : Nat

/-- OPEN parameter `DEFAULT_SCALE` (43 R185, D26). -/
opaque defaultScale : F64

/-- OPEN parameter `DEFAULT_OFFSET` (43 R185, D26). -/
opaque defaultOffset : Offset

end Config

end Sys2Proof
end

