-- ==== Sys2Proof/Syntax.lean ====
section
/-! DEFINITION. The syntax: one constructor per row of spec/opcode_table.json (30_encoding.md R70, R62). -/

namespace Sys2Proof

/-- The rows of the opcode table: nineteen commands, the asynchronous event and the three gain-code operands. -/
inductive Instr where
  /-- `adc.construct dataPin, clockPin, gainCode` (R90). -/
  | adcConstruct (dataPin clockPin : Pin) (gainCode : Byte)
  /-- `adc.isReady` (R92). -/
  | adcIsReady
  /-- `adc.setGain gainCode` (R93). -/
  | adcSetGain (gainCode : Byte)
  /-- `adc.read` (R95). -/
  | adcRead
  /-- `adc.readAverage n` (R120). -/
  | adcReadAverage (n : Count)
  /-- `adc.getValue n` (R122). -/
  | adcGetValue (n : Count)
  /-- `adc.getUnits n` (R124). -/
  | adcGetUnits (n : Count)
  /-- `adc.getLastUnits` (R126). -/
  | adcGetLastUnits
  /-- `adc.tare n` (R128). -/
  | adcTare (n : Count)
  /-- `adc.setScale s` (R130). -/
  | adcSetScale (scale : F64)
  /-- `adc.getScale` (R131). -/
  | adcGetScale
  /-- `adc.setOffset o` (R132). -/
  | adcSetOffset (offset : Offset)
  /-- `adc.getOffset` (R133). -/
  | adcGetOffset
  /-- `adc.powerDown` (R104). -/
  | adcPowerDown
  /-- `adc.powerUp` (R106). -/
  | adcPowerUp
  /-- `rot.construct pin` (R151). -/
  | rotConstruct (pin : Pin)
  /-- `rot.start` (R153). -/
  | rotStart
  /-- `rot.getSpeed` (R166). -/
  | rotGetSpeed
  /-- `rot.getRotates` (R167). -/
  | rotGetRotates
  /-- `rot.edge`, the asynchronous event, with the clock value its handler reads (R160). No command word selects it. -/
  | rotEdge (now : Time)
  /-- The operand encoding `gainCode.128` (R62). -/
  | gainCode128
  /-- The operand encoding `gainCode.64` (R62). -/
  | gainCode64
  /-- The operand encoding `gainCode.32` (R62). -/
  | gainCode32
deriving DecidableEq, Repr

namespace Instr

/-- Is this row one of the nineteen commands the host can issue? The event and the operand rows are not (R70). -/
def isCommand : Instr → Bool
  | .rotEdge _ | .gainCode128 | .gainCode64 | .gainCode32 => false
  | .adcConstruct .. | .adcIsReady | .adcSetGain _ | .adcRead | .adcReadAverage _ | .adcGetValue _ | .adcGetUnits _
  | .adcGetLastUnits | .adcTare _ | .adcSetScale _ | .adcGetScale | .adcSetOffset _ | .adcGetOffset | .adcPowerDown
  | .adcPowerUp | .rotConstruct _ | .rotStart | .rotGetSpeed | .rotGetRotates => true

/-- Is this one of the fifteen commands of the ADC unit (prefix `adc.`, R1, R91)? -/
def isAdc : Instr → Bool
  | .adcConstruct .. | .adcIsReady | .adcSetGain _ | .adcRead | .adcReadAverage _ | .adcGetValue _ | .adcGetUnits _
  | .adcGetLastUnits | .adcTare _ | .adcSetScale _ | .adcGetScale | .adcSetOffset _ | .adcGetOffset | .adcPowerDown
  | .adcPowerUp => true
  | .rotConstruct _ | .rotStart | .rotGetSpeed | .rotGetRotates | .rotEdge _ | .gainCode128 | .gainCode64
  | .gainCode32 => false

/-- The mnemonic of the row, as the table spells it (R70). -/
def mnemonic : Instr → String
  | .adcConstruct .. => "adc.construct"
  | .adcIsReady => "adc.isReady"
  | .adcSetGain _ => "adc.setGain"
  | .adcRead => "adc.read"
  | .adcReadAverage _ => "adc.readAverage"
  | .adcGetValue _ => "adc.getValue"
  | .adcGetUnits _ => "adc.getUnits"
  | .adcGetLastUnits => "adc.getLastUnits"
  | .adcTare _ => "adc.tare"
  | .adcSetScale _ => "adc.setScale"
  | .adcGetScale => "adc.getScale"
  | .adcSetOffset _ => "adc.setOffset"
  | .adcGetOffset => "adc.getOffset"
  | .adcPowerDown => "adc.powerDown"
  | .adcPowerUp => "adc.powerUp"
  | .rotConstruct _ => "rot.construct"
  | .rotStart => "rot.start"
  | .rotGetSpeed => "rot.getSpeed"
  | .rotGetRotates => "rot.getRotates"
  | .rotEdge _ => "rot.edge"
  | .gainCode128 => "gainCode.128"
  | .gainCode64 => "gainCode.64"
  | .gainCode32 => "gainCode.32"

end Instr

end Sys2Proof
end

