-- ==== Sys2Proof/WellFormed.lean ====
section
/-! DEFINITION. Which instructions carry an operand the spec does not reserve (30_encoding.md R76).

Operand widths are in the types. Two operand checks remain: the gain code is one of 128, 64, 32, and the sample count
is not 0. An instruction that fails them still decodes and still runs: it is refused with its own reason (R90, R93, R120). -/

namespace Sys2Proof

/-- Is this operand one of the three gain codes (R62)? -/
def gainCodeLegal (g : Byte) : Bool := g == 128#8 || g == 64#8 || g == 32#8

namespace Instr

/-- No operand value of the instruction is reserved (R76). -/
def wellFormed : Instr → Bool
  | .adcConstruct _ _ g => gainCodeLegal g
  | .adcSetGain g => gainCodeLegal g
  | .adcReadAverage n => n != 0#8
  | .adcGetValue n => n != 0#8
  | .adcGetUnits n => n != 0#8
  | .adcTare n => n != 0#8
  | .adcIsReady | .adcRead | .adcGetLastUnits | .adcSetScale _ | .adcGetScale | .adcSetOffset _ | .adcGetOffset
  | .adcPowerDown | .adcPowerUp | .rotConstruct _ | .rotStart | .rotGetSpeed | .rotGetRotates | .rotEdge _
  | .gainCode128 | .gainCode64 | .gainCode32 => true

end Instr

end Sys2Proof
end

