-- ==== Sys2Proof/Decode.lean ====
section
/-! DEFINITION. The decoder, total, rejecting by name, and after it the encoder (30_encoding.md R67, R68, R70, R76, R62). -/

namespace Sys2Proof

/-- What can be presented to the block. The host presents command words only (R72); an 8-bit gain operand by itself is
how the table's three operand rows reach the decoder (log 11). -/
inductive Presented where
  /-- One 72-bit command word (R67). -/
  | command (word : BitVec 72)
  /-- One 8-bit gain-code operand (R62). -/
  | gainOperand (code : Byte)
deriving DecidableEq, Repr

/-- Why a word is not decoded. -/
inductive DecodeError where
  /-- An opcode outside R70 (R76, first row). -/
  | reservedOpcode
  /-- A nonzero bit in an unused part of the operand field (R76, second row). -/
  | unusedBits
  /-- A gain operand other than 128, 64, 32 (R76, third row). -/
  | badGainCode
deriving DecidableEq, Repr

/-- Format Z: no operand. -/
def formatZ (f : BitVec 64) (i : Instr) : Except DecodeError Instr :=
  if f = 0#64 then .ok i else .error .unusedBits

/-- Formats G, N and P: one 8-bit operand in `cmd[7:0]`. -/
def formatByte (f : BitVec 64) (mk : BitVec 8 → Instr) : Except DecodeError Instr :=
  if f.extractLsb' 8 56 = 0#56 then .ok (mk (f.extractLsb' 0 8)) else .error .unusedBits

/-- Format C: dataPin in `cmd[7:0]`, clockPin in `cmd[15:8]`, gainCode in `cmd[23:16]`. -/
def formatC (f : BitVec 64) (mk : Pin → Pin → Byte → Instr) : Except DecodeError Instr :=
  if f.extractLsb' 24 40 = 0#40 then .ok (mk (f.extractLsb' 0 8) (f.extractLsb' 8 8) (f.extractLsb' 16 8))
  else .error .unusedBits

/-- Format O: a 32-bit two's-complement operand, not sign-extended into `cmd[63:32]` (R68). -/
def formatO (f : BitVec 64) (mk : Offset → Instr) : Except DecodeError Instr :=
  if f.extractLsb' 32 32 = 0#32 then .ok (mk (f.extractLsb' 0 32)) else .error .unusedBits

/-- The decoder of command words: opcode `cmd[71:64]`, operand field `cmd[63:0]` (R67, R70). -/
def decodeCommand (w : BitVec 72) : Except DecodeError Instr :=
  let f := w.extractLsb' 0 64
  match (w.extractLsb' 64 8).toNat with
  | 0x10 => formatC f .adcConstruct
  | 0x11 => formatZ f .adcIsReady
  | 0x12 => formatByte f .adcSetGain
  | 0x13 => formatZ f .adcRead
  | 0x14 => formatByte f .adcReadAverage
  | 0x15 => formatByte f .adcGetValue
  | 0x16 => formatByte f .adcGetUnits
  | 0x17 => formatZ f .adcGetLastUnits
  | 0x18 => formatByte f .adcTare
  | 0x19 => .ok (.adcSetScale f)
  | 0x1A => formatZ f .adcGetScale
  | 0x1B => formatO f .adcSetOffset
  | 0x1C => formatZ f .adcGetOffset
  | 0x1D => formatZ f .adcPowerDown
  | 0x1E => formatZ f .adcPowerUp
  | 0x20 => formatByte f .rotConstruct
  | 0x21 => formatZ f .rotStart
  | 0x22 => formatZ f .rotGetSpeed
  | 0x23 => formatZ f .rotGetRotates
  | _ => .error .reservedOpcode

/-- The decoder of a gain operand (R62). -/
def decodeGainOperand (code : Byte) : Except DecodeError Instr :=
  match code.toNat with
  | 128 => .ok .gainCode128
  | 64 => .ok .gainCode64
  | 32 => .ok .gainCode32
  | _ => .error .badGainCode

/-- The decoder, over everything that can be presented. -/
def decode : Presented → Except DecodeError Instr
  | .command w => decodeCommand w
  | .gainOperand g => decodeGainOperand g

/-- One command word from its opcode and its operand field (R67). -/
def commandWord (opcode : BitVec 8) (field : BitVec 64) : BitVec 72 := opcode ++ field

/-- The encoder. `rot.edge` has no encoding: no command word selects it (R70). -/
def encode : Instr → Option Presented
  | .adcConstruct d c g => some (.command (commandWord 0x10#8 (0#40 ++ (g ++ (c ++ d)))))
  | .adcIsReady => some (.command (commandWord 0x11#8 0#64))
  | .adcSetGain g => some (.command (commandWord 0x12#8 (0#56 ++ g)))
  | .adcRead => some (.command (commandWord 0x13#8 0#64))
  | .adcReadAverage n => some (.command (commandWord 0x14#8 (0#56 ++ n)))
  | .adcGetValue n => some (.command (commandWord 0x15#8 (0#56 ++ n)))
  | .adcGetUnits n => some (.command (commandWord 0x16#8 (0#56 ++ n)))
  | .adcGetLastUnits => some (.command (commandWord 0x17#8 0#64))
  | .adcTare n => some (.command (commandWord 0x18#8 (0#56 ++ n)))
  | .adcSetScale v => some (.command (commandWord 0x19#8 v))
  | .adcGetScale => some (.command (commandWord 0x1A#8 0#64))
  | .adcSetOffset o => some (.command (commandWord 0x1B#8 (0#32 ++ o)))
  | .adcGetOffset => some (.command (commandWord 0x1C#8 0#64))
  | .adcPowerDown => some (.command (commandWord 0x1D#8 0#64))
  | .adcPowerUp => some (.command (commandWord 0x1E#8 0#64))
  | .rotConstruct p => some (.command (commandWord 0x20#8 (0#56 ++ p)))
  | .rotStart => some (.command (commandWord 0x21#8 0#64))
  | .rotGetSpeed => some (.command (commandWord 0x22#8 0#64))
  | .rotGetRotates => some (.command (commandWord 0x23#8 0#64))
  | .rotEdge _ => none
  | .gainCode128 => some (.gainOperand 128#8)
  | .gainCode64 => some (.gainOperand 64#8)
  | .gainCode32 => some (.gainOperand 32#8)

/-- What is presented when the table gives a row `nbits` bits and they spell `w`: the three operand rows have 8 bits,
every command word has 72 (R62, R67). -/
def presentedOf (nbits w : Nat) : Presented :=
  if nbits = 8 then .gainOperand (BitVec.ofNat 8 w) else .command (BitVec.ofNat 72 (w % 2 ^ nbits))

/-- The instruction the decoder reads from a row's bits, numbered as the table numbers them. -/
def decodeTableWord (nbits w : Nat) : Option Instr :=
  match decode (presentedOf nbits w) with
  | .ok i => some i
  | .error _ => none

end Sys2Proof
end

