-- ==== Sys2Proof/Machine/State.lean ====
section
/-! DEFINITION. The state of the block (10_state.md), of the GPIO collaborator its port calls change (R29), and of the
environment's queues; the reset state; the two reason types. Plain data throughout. -/

namespace Sys2Proof.Machine

/-! ## The GPIO collaborator (R29, R40) -/

/-- A map from pin numbers: pairs in strictly rising order of pin, no pin twice. -/
abbrev PinMap (α : Type) := List (Nat × α)

/-- The direction of a configured pin (R29). A pin not listed is unconfigured. -/
inductive Dir where
  | output
  | input
  | inputPullup
deriving DecidableEq, Repr

/-- What is attached to a pin's falling edge: the edge handler, the only handler there is (R29, R228). -/
inductive Handler where
  | edge
deriving DecidableEq, Repr

/-- The collaborator's state that the block's port calls change (R29; log 14). -/
structure Gpio where
  /-- `gpio.dir[pin]` -/
  dir : PinMap Dir
  /-- `gpio.out[pin]`: a pin not listed has not been written, its level is not known (U9). -/
  out : PinMap Level
  /-- `gpio.handler[pin]` -/
  handler : PinMap Handler
  /-- `gpio.now`: the value the clock last answered. -/
  now : Time
deriving DecidableEq, Repr

/-- One event of the history `H` (20_memory.md R41). -/
inductive Event where
  | cfgOut (pin : Pin)
  | cfgIn (pin : Pin) (pullup : Bool)
  | wr (pin : Pin) (level : Level)
  | rd (pin : Pin) (level : Level)
  | attach (pin : Pin)
  | now (t : Time)
  | edge (t : Time)
deriving DecidableEq, Repr

/-! ## The ADC unit (R11 to R16, R25 to R27) -/

/-- The three positions of a data pulse (R25). -/
inductive ShiftPhase where
  | rise
  | sample
  | fall
deriving DecidableEq, Repr

/-- The two positions of a gain pulse (R25). -/
inductive GainPhase where
  | rise
  | fall
deriving DecidableEq, Repr

/-- The sequencer position `adc.seq` (R25). -/
inductive Seq where
  | idle
  | wait
  | shift (i : Fin Config.dataBits) (phase : ShiftPhase)
  | gainp (j : GainSel) (phase : GainPhase)
  | pack
deriving DecidableEq, Repr

/-- The registers of the ADC unit. `none` is the spec's own value "unwritten" (R30; log 7). -/
structure Adc where
  /-- `adc.constructed` (R12) -/
  constructed : Bool
  /-- `adc.clockPin` (R11) -/
  clockPin : Pin
  /-- `adc.dataPin` (R11) -/
  dataPin : Pin
  /-- `adc.gainSel` (R13) -/
  gainSel : GainSel
  /-- `adc.scale` (R14) -/
  scale : Option F64
  /-- `adc.offset` (R15) -/
  offset : Option Offset
  /-- `adc.lastRawReading` (R16) -/
  lastRawReading : Option Raw
  /-- `adc.seq` (R25) -/
  seq : Seq
  /-- `adc.shreg` (R26) -/
  shreg : Code
  /-- `adc.acc` (R27) -/
  acc : Acc
  /-- `adc.left` (R27) -/
  left : Count
  /-- The model's own: the local `g` of R93's pseudocode (log 11). -/
  gainArg : GainSel
  /-- The model's own: HIGH samples of the wait in progress (R97; log 9). -/
  polls : Nat
deriving DecidableEq, Repr

/-! ## The pulse-timing unit (R17 to R21) -/

/-- The registers of the pulse-timing unit. -/
structure Rot where
  /-- `rot.pin` (R17) -/
  pin : Option Pin
  /-- `rot.started` (R18) -/
  started : Bool
  /-- `rot.lastEdgeTime` (R19) -/
  lastEdgeTime : Time
  /-- `rot.previousEdgeTime` (R19) -/
  previousEdgeTime : Time
  /-- `rot.pulseCount` (R20) -/
  pulseCount : EdgeCount
  /-- `rot.filteredSpeed` (R21) -/
  filteredSpeed : F64
deriving DecidableEq, Repr

/-! ## The main-line context (R225, R226) -/

/-- What becomes of the mean of `adc.readAverage` (R120, R122, R124, R128). -/
inductive MeanUse where
  | raw
  | value
  | units
  | tare
deriving DecidableEq, Repr

/-- The command a read belongs to, which says what PACK does next (R25). -/
inductive ReadUse where
  /-- the dummy read of `adc.setGain` and `adc.construct` (R93) -/
  | dummy
  /-- `adc.read` (R95) -/
  | single
  /-- `n` reads and their mean (R120) -/
  | average (n : Count) (use : MeanUse)
deriving DecidableEq, Repr

/-- The four micro-steps of `rot.start` (R25, R155). -/
inductive StartPos where
  | configure
  | now
  | attach
  | flip
deriving DecidableEq, Repr

/-- The two registers a main-line read shares with the handler (R168). -/
inductive SharedReg where
  | speed
  | rotates
deriving DecidableEq, Repr

/-- The command the main-line context is running, and its next micro-step. Inside a read the position is `adc.seq`. -/
inductive Task where
  /-- no command is running -/
  | idle
  /-- `adc.isReady`, about to sample (R92) -/
  | sampleReady
  /-- `adc.construct`, about to configure the clock pin (R90) -/
  | constructOut
  /-- `adc.construct`, about to configure the data pin (R90) -/
  | constructIn
  /-- `adc.setGain`, about to write the clock LOW (R93) -/
  | gainLow
  /-- a read, at `adc.seq` (R95) -/
  | reading (use : ReadUse)
  /-- `adc.powerDown`, about to write LOW (R104) -/
  | powerDownLow
  /-- `adc.powerDown`, about to write HIGH (R104) -/
  | powerDownHigh
  /-- `adc.powerUp`, about to write LOW (R106) -/
  | powerUpLow
  /-- `rot.start` (R155) -/
  | start (pos : StartPos)
  /-- an atomic read of a shared register (R168, `ATOMIC_READS` true) -/
  | sharedWhole (reg : SharedReg)
  /-- a byte-wise read of a shared register: the bytes still to read, and those read, in their places (R168) -/
  | sharedBytes (reg : SharedReg) (left : List Nat) (got : F64)
deriving DecidableEq, Repr

/-- The status of a response (30_encoding.md R69). Status 3 is never produced. -/
inductive Status where
  | ok
  | refused
  | fault
deriving DecidableEq, Repr

/-- The reason codes of R69. -/
inductive Reason where
  | notConstructed
  | alreadyConstructed
  | badGainCode
  | zeroCount
  | unwritten
  | reserved
  | noPin
  | neverReady
deriving DecidableEq, Repr

/-- The response to a command: status and 64-bit value (R69). -/
structure Response where
  status : Status
  value : BitVec 64
deriving DecidableEq, Repr

/-! ## The environment (R53 to R55, R226) -/

/-- A falling edge to come: after how many further main-line micro-steps it is delivered, and the clock value its handler
reads (log 3). -/
structure EdgeAt where
  after : Nat
  now : Time
deriving DecidableEq, Repr

/-- How many free values of each kind have been drawn (logs 2, 3, 4). One counter for each, so that what one kind is answered does
not depend on how much of another was drawn. -/
structure Drawn where
  levels : Nat
  clocks : Nat
  edges : Nat
  picks : Nat
deriving DecidableEq, Repr

/-- The environment's and the host's moves to come, oldest first (logs 2, 3, 4, 18). -/
structure Env where
  /-- what the host will present (R72, R226) -/
  cmds : List Presented
  /-- the answers to `PinRead` (R53) -/
  levels : List Level
  /-- the answers to `NowMillis` in `rot.start` (R54) -/
  clocks : List Time
  /-- the falling edges listed (R55) -/
  edges : List EdgeAt
  /-- whether falling edges go on past those listed, without end (R55, "finite or infinite"; log 3) -/
  edgesGoOn : Bool
  /-- which of the remaining bytes a torn read takes next (R168) -/
  picks : List Nat
  /-- how many free values have been drawn -/
  drawn : Drawn
deriving DecidableEq, Repr

/-! ## The whole -/

/-- The state of the machine. -/
structure State where
  adc : Adc
  rot : Rot
  gpio : Gpio
  /-- the event history `H`, oldest first (R41) -/
  hist : List Event
  /-- what the main-line context is running -/
  task : Task
  /-- the response of the last command; none while one runs and before the first (R69; log 19) -/
  rsp : Option Response
  env : Env
  /-- the parameters, which no step changes (R8; log 6) -/
  cfg : Config
deriving DecidableEq, Repr

/-- Why the machine stops with a fault: never. R210: the block "raises no synchronous exception and has no trap mechanism";
the status `FAULT` of R69 is a response, hence a next state. An empty type, so no claim can meet a fault: safe. -/
inductive Fault where
deriving DecidableEq, Repr

/-- Why the model gives no next state. -/
inductive Refusal where
  /-- Raised by an arm of `exec` for an instruction without a meaning; no arm raises it. Safe: the model stops. -/
  | notModelled (mnemonic : String)
  /-- Raised by the meaning of a command when another command is running: R72, "has no meaning in this spec", and U16 (log 13).
  `step` never raises it, since it issues a command only when none runs. Safe: the model stops. -/
  | commandRunning
deriving DecidableEq, Repr

/-- The outcome of one instruction or one step. -/
abbrev Out := Host.Outcome State Fault Refusal

/-- The ADC unit after power-on (R31; logs 7, 8, 9, 11). -/
def Adc.reset : Adc :=
  { constructed := false, clockPin := 0#8, dataPin := 0#8, gainSel := 0#2, scale := Config.resetScale,
    offset := Config.resetOffset, lastRawReading := none, seq := .idle, shreg := 0#24, acc := 0#32, left := 0#8,
    gainArg := 0#2, polls := 0 }

/-- The pulse-timing unit after power-on (R31, D12). -/
def Rot.reset : Rot :=
  { pin := none, started := false, lastEdgeTime := 0#32, previousEdgeTime := 0#32, pulseCount := 0#32,
    filteredSpeed := 0#64 }

/-- The collaborator at power-on: nothing configured, written or attached (R240; log 14). -/
def Gpio.reset : Gpio := { dir := [], out := [], handler := [], now := 0#32 }

/-- No move listed (log 2). -/
def Env.reset : Env :=
  { cmds := [], levels := [], clocks := [], edges := [], edgesGoOn := false, picks := [],
    drawn := { levels := 0, clocks := 0, edges := 0, picks := 0 } }

/-- The machine after power-on, the only reset (R31, R240). -/
def State.reset : State :=
  { adc := Adc.reset, rot := Rot.reset, gpio := Gpio.reset, hist := [], task := .idle, rsp := none, env := Env.reset,
    cfg := Config.normative }

end Sys2Proof.Machine
end

