-- ==== Sys2Proof/Machine/Flags.lean ====
section
/-! DEFINITION. The flags. The block has no condition codes and no status register; its only flags are `adc.constructed`
and `rot.started` (10_state.md R22). Beside them stand the conditions that are no flag: ready is a sampled level, and the
interrupt is enabled when the handler is attached. -/

namespace Sys2Proof.Machine

/-- No command is running. -/
def isIdle (s : State) : Bool := s.task == .idle

/-- `adc.constructed` (R12, R91). -/
def isConstructed (s : State) : Bool := s.adc.constructed

/-- `rot.started` (R18, R150). -/
def isStarted (s : State) : Bool := s.rot.started

/-- Ready: the data pin reads LOW (R22, R64, R92). Nothing latches it. -/
def readyLevel : Level → Bool
  | .low => true
  | .high => false

/-- Is a pin listed in a pin map? -/
def pinGet {α : Type} (m : PinMap α) (p : Nat) : Option α :=
  match m with
  | [] => none
  | (q, a) :: rest => if p = q then some a else pinGet rest p

/-- Is the edge interrupt enabled: has the handler been attached to `rot.pin` (60_exceptions.md R221, R55)? -/
def edgeEnabled (s : State) : Bool :=
  match s.rot.pin with
  | some p => pinGet s.gpio.handler p.toNat == some .edge
  | none => false

/-- The reason code of a refusal or fault (30_encoding.md R69). -/
def reasonCode : Reason → BitVec 64
  | .notConstructed => 1#64
  | .alreadyConstructed => 2#64
  | .badGainCode => 3#64
  | .zeroCount => 4#64
  | .unwritten => 5#64
  | .reserved => 6#64
  | .noPin => 7#64
  | .neverReady => 8#64

/-- The status field `rsp[65:64]` (R69). -/
def statusCode : Status → BitVec 2
  | .ok => 0#2
  | .refused => 1#2
  | .fault => 2#2

/-- The 66-bit response word (R69). -/
def responseWord (r : Response) : BitVec 66 := statusCode r.status ++ r.value

/-- The response word a state shows, if the last command has answered. -/
def responseOf (s : State) : Option (BitVec 66) := s.rsp.map responseWord

end Sys2Proof.Machine
end

