-- ==== Sys2Proof/Machine/Float.lean ====
section
/-! DEFINITION. IEEE 754 binary64, round to nearest with ties to even, one rounding each, nothing fused, no flags
(41_adc_calibration.md R135, 00_scope.md R9, D8).

Every finite number is a whole multiple of 2^-1074, so each result is computed exactly on naturals in that unit and rounded
once by `roundMag`. A NaN result is a free value among the NaN patterns (U6; log 5). -/

namespace Sys2Proof.Machine

/-- The sign bit. -/
def fSign (a : F64) : Bool := a.msb

/-- The biased exponent field, 0 to 2047. -/
def fExp (a : F64) : Nat := a.toNat / 2 ^ 52 % 2048

/-- The fraction field. -/
def fFrac (a : F64) : Nat := a.toNat % 2 ^ 52

/-- A NaN: all-ones exponent, nonzero fraction. -/
def fIsNaN (a : F64) : Bool := fExp a == 2047 && fFrac a != 0

/-- An infinity: all-ones exponent, zero fraction. -/
def fIsInf (a : F64) : Bool := fExp a == 2047 && fFrac a == 0

/-- A finite number. -/
def fIsFinite (a : F64) : Bool := fExp a != 2047

/-- The magnitude of a finite number in units of 2^-1074. -/
def fMag (a : F64) : Nat := if fExp a = 0 then fFrac a else (2 ^ 52 + fFrac a) * 2 ^ (fExp a - 1)

/-- The value of a finite number in units of 2^-1074. -/
def fValue (a : F64) : Int := if fSign a then -(fMag a : Int) else (fMag a : Int)

/-- The pattern below the sign bit of an infinity. -/
def fInfBits : Nat := 0x7FF0000000000000

/-- A pattern from its sign and its lower 63 bits. -/
def fPack (s : Bool) (bits : Nat) : F64 := BitVec.ofNat 64 ((if s then 2 ^ 63 else 0) + bits)

/-- The rational `n / d` in units of 2^-1074, rounded to nearest even: the lower 63 bits of the pattern, those of an infinity
on overflow. With `sh` the exponent of the last place, `sh * 2^52 + q` is the pattern, a carry out of the fraction included. -/
def roundMag (n d : Nat) : Nat :=
  let sh := Nat.log2 (n / d) - 52
  let u := d * 2 ^ sh
  let q := n / u
  let r := n % u
  let q' := if u < 2 * r ∨ (2 * r = u ∧ q % 2 = 1) then q + 1 else q
  min (sh * 2 ^ 52 + q') fInfBits

/-- The NaN an operation produces: its sign and payload are free, its fraction is not zero (R135, U6; log 5). -/
def fNaN (op : FpOp) (a b : F64) : F64 :=
  let x := Config.freeNaN op a b
  let y := x ||| 0x7FF0000000000000#64
  if fFrac x = 0 then y ||| 0x0008000000000000#64 else y

/-- The sum of two numbers; `op`, `b₀` name the operation and operand a NaN result is drawn for. A zero sum is +0 unless
both operands are negative. -/
def fSum (op : FpOp) (b₀ a b : F64) : F64 :=
  if fIsNaN a || fIsNaN b then fNaN op a b₀
  else if fIsInf a then
    if fIsInf b && fSign a != fSign b then fNaN op a b₀ else a
  else if fIsInf b then b
  else
    let v := fValue a + fValue b
    if v = 0 then fPack (fSign a && fSign b) 0 else fPack (decide (v < 0)) (roundMag v.natAbs 1)

/-- `fadd` (R9). -/
def fadd (a b : F64) : F64 := fSum .add b a b

/-- `fsub` (R9): the sum with the second operand's sign inverted. -/
def fsub (a b : F64) : F64 := fSum .sub b a (b ^^^ 0x8000000000000000#64)

/-- `fmul` (R9). -/
def fmul (a b : F64) : F64 :=
  let s := fSign a != fSign b
  if fIsNaN a || fIsNaN b then fNaN .mul a b
  else if fIsInf a || fIsInf b then
    if (!fIsInf a && fMag a == 0) || (!fIsInf b && fMag b == 0) then fNaN .mul a b else fPack s fInfBits
  else fPack s (roundMag (fMag a * fMag b) (2 ^ 1074))

/-- `fdiv` (R9, R135): a nonzero number over a zero is an infinity with the signs' exclusive or, zero over zero a NaN, a
finite number over an infinity a zero. -/
def fdiv (a b : F64) : F64 :=
  let s := fSign a != fSign b
  if fIsNaN a || fIsNaN b then fNaN .div a b
  else if fIsInf a then
    if fIsInf b then fNaN .div a b else fPack s fInfBits
  else if fIsInf b then fPack s 0
  else if fMag b = 0 then
    if fMag a = 0 then fNaN .div a b else fPack s fInfBits
  else fPack s (roundMag (fMag a * 2 ^ 1074) (fMag b))

/-- `f64_of_int` (R9, R135): an integer, exactly when its magnitude is below 2^53. Zero converts to +0. -/
def f64OfInt (v : Int) : F64 := fPack (decide (v < 0)) (roundMag (v.natAbs * 2 ^ 1074) 1)

/-- `lowpass` (44_filters.md R200): the five operations in the spec's order. -/
def lowpass (x prev dt T : F64) : F64 :=
  let a := fdiv dt T
  let t1 := fmul a x
  let t2 := fsub Config.one a
  let t3 := fmul t2 prev
  fadd t1 t3

end Sys2Proof.Machine
end

