-- ==== Sys2Proof/Machine/Operands.lean ====
section
/-! DEFINITION. Operand forms, result forms and the pure arithmetic of the block: the gain map (30_encoding.md R62), the
stored-code transform (R63), the mean and the difference (41_adc_calibration.md R134), the unit conversion (R135), the
handler's arithmetic (42_pulse_capture.md R162, R163), the values of the response (R69), the bytes of a register (R44). -/

namespace Sys2Proof.Machine

/-! ## The gain code (R62) -/

/-- The gain map: 128 gives 1 extra pulse, 64 gives 3, 32 gives 2; every other operand is refused (R62, R76). -/
def gainSelOf (code : Byte) : Option GainSel :=
  match code.toNat with
  | 128 => some 1#2
  | 64 => some 3#2
  | 32 => some 2#2
  | _ => none

/-- The inverse map: the gain code is recovered from the selector (R13). -/
def gainCodeOf (sel : GainSel) : Option Byte :=
  match sel.toNat with
  | 1 => some 128#8
  | 2 => some 32#8
  | 3 => some 64#8
  | _ => none

/-- Clock pulses in a frame: `DATA_BITS` data pulses and the gain pulses (R61). -/
def framePulses (sel : GainSel) : Nat := Config.dataBits + sel.toNat

/-! ## Codes (R63) and integer arithmetic (R134) -/

/-- The stored code: the wire code with bit 23 inverted. -/
def storedCode (w : Code) : Code := w ^^^ 0x800000#24

/-- A stored code in its container, the top 8 bits zero (R16). -/
def codeWord (s : Code) : Raw := s.setWidth Config.rawW

/-- The truncating mean of `n` reads whose exact sum is `acc` (R120, R134). -/
def meanOf (acc : Acc) (n : Count) : Raw := acc / n.setWidth Config.accW

/-- `code - offset`, 32-bit two's complement, wrapping (R134, D6, U5; log 16). -/
def difference (code : Raw) (offset : Offset) : Raw := code - offset

/-- A unit conversion: the exact conversion of the difference, divided by the scale (R135). -/
def unitsOf (v : Raw) (scale : F64) : F64 := fdiv (f64OfInt v.toInt) scale

/-! ## Response values (R69) -/

/-- A `bool` as 0 or 1. -/
def boolValue (b : Bool) : BitVec 64 := if b then 1#64 else 0#64

/-- A stored code or a count, zero-extended. -/
def unsignedValue {w : Nat} (v : BitVec w) : BitVec 64 := v.setWidth 64

/-- A signed integer, sign-extended to 64 bits. -/
def signedValue {w : Nat} (v : BitVec w) : BitVec 64 := v.signExtend 64

/-- The value of an operation without a result. -/
def noValue : BitVec 64 := 0#64

/-! ## The handler's arithmetic (R160, R162, R163) -/

/-- Elapsed milliseconds since the last accepted edge, modulo 2^32 (R162). -/
def elapsed (now last : Time) : Time := now - last

/-- Does the edge pass the debounce test (R160, R162)? -/
def accepts (dt : Time) : Bool := Config.debounceMs ≤ dt.toNat

/-- A millisecond count as a binary64 number, exactly. -/
def f64OfMs (dt : Time) : F64 := f64OfInt (dt.toNat : Int)

/-- Instantaneous speed `60000 / dt` in rotations per minute (R163, D11). -/
def instantSpeed (dt : Time) : F64 := fdiv Config.speedNum (f64OfMs dt)

/-- The sample interval in seconds (R163). -/
def intervalSeconds (dt : Time) : F64 := fdiv (f64OfMs dt) Config.msPerSecond

/-- The filtered speed after an edge accepted `dt` ms after the last (R160, R200). -/
def foldSpeed (dt : Time) (prev : F64) : F64 :=
  lowpass (instantSpeed dt) prev (intervalSeconds dt) Config.filterT

/-! ## Bytes of a register (R44, R168) -/

/-- Byte k of a register: bits 8k+7 to 8k. -/
def byteOf (v : F64) (k : Nat) : BitVec 8 := v.extractLsb' (8 * k) 8

/-- A byte put in place k of a value whose byte k is zero. -/
def putByte (v : F64) (k : Nat) (b : BitVec 8) : F64 := v ||| (b.setWidth 64 <<< (8 * k))

end Sys2Proof.Machine
end

