-- ==== Sys2Proof/Machine/Ops.lean ====
section
/-! DEFINITION. The shared operations: the six ports (20_memory.md R40, R41), taking the edge interrupt and returning from it
(60_exceptions.md R220 to R227), and how a command ends (30_encoding.md R69). -/

namespace Sys2Proof.Machine

/-! ## Pin maps -/

/-- Set a pin's entry, keeping the pins in rising order. -/
def pinSet {α : Type} (m : PinMap α) (p : Nat) (a : α) : PinMap α :=
  match m with
  | [] => [(p, a)]
  | (q, b) :: rest =>
    if p < q then (p, a) :: (q, b) :: rest
    else if p = q then (p, a) :: rest
    else (q, b) :: pinSet rest p a

/-- The canonical form of a pin map: pins strictly rising from at least `lo`. -/
def pinsFrom {α : Type} (lo : Nat) : PinMap α → Bool
  | [] => true
  | (q, _) :: rest => decide (lo ≤ q) && pinsFrom (q + 1) rest

/-- The canonical form of a pin map. -/
def pinsRising {α : Type} (m : PinMap α) : Bool := pinsFrom 0 m

/-! ## The ports (R40): each call appends its event to the history (R41) -/

/-- Append one event. -/
def record (e : Event) (s : State) : State := { s with hist := s.hist ++ [e] }

/-- `PinConfigOutput(pin)` -/
def pinConfigOutput (p : Pin) (s : State) : State :=
  record (.cfgOut p) { s with gpio := { s.gpio with dir := pinSet s.gpio.dir p.toNat .output } }

/-- `PinConfigInput(pin, pullup)` -/
def pinConfigInput (p : Pin) (pullup : Bool) (s : State) : State :=
  record (.cfgIn p pullup)
    { s with gpio := { s.gpio with dir := pinSet s.gpio.dir p.toNat (if pullup then .inputPullup else .input) } }

/-- `PinWrite(pin, level)` -/
def pinWrite (p : Pin) (l : Level) (s : State) : State :=
  record (.wr p l) { s with gpio := { s.gpio with out := pinSet s.gpio.out p.toNat l } }

/-- `PinRead(pin) -> level`, answered `l`: no effect but its event (R46). -/
def pinRead (p : Pin) (l : Level) (s : State) : State := record (.rd p l) s

/-- `AttachFalling(pin)` -/
def attachFalling (p : Pin) (s : State) : State :=
  record (.attach p) { s with gpio := { s.gpio with handler := pinSet s.gpio.handler p.toNat .edge } }

/-- `NowMillis()`, answered `t`. -/
def nowMillis (t : Time) (s : State) : State := record (.now t) { s with gpio := { s.gpio with now := t } }

/-! ## The edge interrupt -/

/-- `rot.edge`, the handler's register writes, all or none (R160): the debounce test, the counter modulo 2^32 (R161), the
timestamps, the filtered speed (R163). -/
def edgeHandler (now : Time) (r : Rot) : Rot :=
  let dt := elapsed now r.lastEdgeTime
  if accepts dt then
    { r with
      pulseCount := r.pulseCount + 1#32
      previousEdgeTime := r.lastEdgeTime
      lastEdgeTime := now
      filteredSpeed := foldSpeed dt r.filteredSpeed }
  else r

/-- Return from the interrupt: there is no return instruction, nothing is restored because nothing was saved, and the
main-line context goes on as it stood (R227). -/
def edgeReturn (s : State) : State := s

/-- Take the edge interrupt (R224): control goes to the one handler, which reads the clock (event `Edge(now)`), writes its
four registers and ends, atomically (R222). An edge before the attach is lost without trace (R55, R221). -/
def takeEdge (now : Time) (s : State) : State :=
  if edgeEnabled s then
    edgeReturn (record (.edge now) { s with rot := edgeHandler now s.rot, gpio := { s.gpio with now := now } })
  else s

/-! ## How a command begins and ends -/

/-- End with a response; no command is running any more (R69). A read has put the sequencer back to IDLE before (R25). -/
def respond (r : Response) (s : State) : State := { s with task := .idle, rsp := some r }

/-- `return v` (R9, R69). -/
def finish (v : BitVec 64) (s : State) : State := respond { status := .ok, value := v } s

/-- `refuse(reason)` (R9, R69, R212): nothing changes but the response, which is no state of the block. -/
def refuse (r : Reason) (s : State) : State := { s with rsp := some { status := .refused, value := reasonCode r } }

/-- A running command that must read an unwritten register ends refused (R30). The tests made when the command is issued keep
this from happening; it stands for states no run reaches. -/
def abandon (r : Reason) (s : State) : State := respond { status := .refused, value := reasonCode r } s

/-- The end of a bounded wait (R97): status `FAULT`, reason `NeverReady`, the registers as they stood, the sequencer IDLE. -/
def neverReady (s : State) : State :=
  respond { status := .fault, value := reasonCode .neverReady } { s with adc := { s.adc with seq := .idle } }

/-- Issue a command: only when none is running (R72; log 13). -/
def command (s : State) (body : State → State) : Out :=
  if isIdle s then .next (body s) else .refused .commandRunning

/-- Issue a command of the ADC unit: `NotConstructed` is tested first (R91, R223). -/
def adcCommand (s : State) (body : State → State) : Out :=
  command s fun s => if isConstructed s then body s else refuse .notConstructed s

/-! ## The host's side of a command -/

/-- The next thing presented, taken from the host's list (R72, R226). -/
def fetchNext (s : State) : Option (Presented × State) :=
  match s.env.cmds with
  | [] => none
  | p :: rest => some (p, { s with env := { s.env with cmds := rest } })

/-- The reason a word that does not decode is refused with (R76). -/
def decodeReason : DecodeError → Reason
  | .reservedOpcode => .reserved
  | .unusedBits => .reserved
  | .badGainCode => .badGainCode

/-- A word that does not decode is refused, whatever the state (R76, R223). -/
def rejectWord (e : DecodeError) (s : State) : State := refuse (decodeReason e) s

/-- Put something at the head of the host's list, with no command running. -/
def present (p : Presented) (s : State) : State :=
  { s with task := .idle, adc := { s.adc with seq := .idle }, env := { s.env with cmds := p :: s.env.cmds } }

end Sys2Proof.Machine
end

