-- ==== Sys2Proof/Machine/Sequencer.lean ====
section
/-! DEFINITION. The micro-steps of the main-line context (10_state.md R25, 40_adc_wire.md R90 to R106, 42_pulse_capture.md R155,
R168), their interleaving with the edge interrupt (60_exceptions.md R222, R226), and running a command for as long as the
environment answers (log 1).

Positions that touch no port (PACK of a read, the flag flip of `rot.start`, each byte of a torn read) are micro-steps too, as
R25, R155 and R168 count them, so an edge may fall on either side of each (log 17). -/

namespace Sys2Proof.Machine

/-! ## The read (R95, R25) -/

/-- Set the sequencer position. -/
def setSeq (q : Seq) (s : State) : State := { s with adc := { s.adc with seq := q } }

/-- Enter WAIT: a read begins (R95). -/
def enterWait (s : State) : State := { s with adc := { s.adc with seq := .wait, polls := 0 } }

/-- The position after data pulse `i` falls (R25): the next bit, or the gain pulses, or PACK when there are none. -/
def afterFall (sel : GainSel) : Fin Config.dataBits → Seq
  | ⟨0, _⟩ => if sel = 0#2 then .pack else .gainp 1#2 .rise
  | ⟨i + 1, h⟩ => .shift ⟨i, Nat.lt_of_succ_lt h⟩ .rise

/-- The position after gain pulse `j` falls (R25). -/
def afterGain (sel j : GainSel) : Seq := if j.toNat < sel.toNat then .gainp (j + 1#2) .rise else .pack

/-- Bit `i` of the shift register receives a sample (R26, R64). -/
def setBit (r : Code) (i : Nat) (b : Bool) : Code := if b then r ||| (1#24 <<< i) else r &&& ~~~(1#24 <<< i)

/-- A sample in WAIT: HIGH polls again, for ever unless the wait is bounded; LOW clears the shift register and starts bit 23
(R95, R96, R97). -/
def pollReady (l : Level) (s : State) : State :=
  let s := pinRead s.adc.dataPin l s
  match l with
  | .low => { s with adc := { s.adc with shreg := 0#24, seq := .shift 23 .rise } }
  | .high =>
    let n := s.adc.polls + 1
    let s := { s with adc := { s.adc with polls := n } }
    match s.cfg.readyPollBound with
    | none => s
    | some bound => if bound ≤ n then neverReady s else s

/-- The mean of the reads is complete: store it and answer (R120, R122, R124, R128). -/
def finishMean (use : MeanUse) (m : Raw) (s : State) : State :=
  let s := { s with adc := { s.adc with lastRawReading := some m } }
  match use with
  | .raw => finish (unsignedValue m) s
  | .value =>
    match s.adc.offset with
    | some o => finish (signedValue (difference m o)) s
    | none => abandon .unwritten s
  | .units =>
    match s.adc.offset, s.adc.scale with
    | some o, some c => finish (unitsOf (difference m o) c) s
    | _, _ => abandon .unwritten s
  | .tare => finish (signedValue m) { s with adc := { s.adc with offset := some m } }

/-- PACK (R95): invert bit 23, store the code; then what the command makes of it. Next is IDLE, or WAIT when reads are left. -/
def packRead (use : ReadUse) (s : State) : State :=
  let c := codeWord (storedCode s.adc.shreg)
  let s := { s with adc := { s.adc with lastRawReading := some c, seq := .idle } }
  match use with
  | .dummy => finish noValue s
  | .single => finish (unsignedValue c) s
  | .average n u =>
    let acc := s.adc.acc + c
    let left := s.adc.left - 1#8
    let s := { s with adc := { s.adc with acc := acc, left := left } }
    if left = 0#8 then finishMean u (meanOf acc n) s else enterWait s

/-- One position of a read, given the level a `PinRead` is answered with (R25, R95). -/
def readStep (use : ReadUse) (l : Level) (s : State) : State :=
  match s.adc.seq with
  | .idle => s
  | .wait => pollReady l s
  | .shift i .rise => setSeq (.shift i .sample) (pinWrite s.adc.clockPin .high s)
  | .shift i .sample =>
    let s := pinRead s.adc.dataPin l s
    { s with adc := { s.adc with shreg := setBit s.adc.shreg i.val l.bit, seq := .shift i .fall } }
  | .shift i .fall => setSeq (afterFall s.adc.gainSel i) (pinWrite s.adc.clockPin .low s)
  | .gainp j .rise => setSeq (.gainp j .fall) (pinWrite s.adc.clockPin .high s)
  | .gainp j .fall => setSeq (afterGain s.adc.gainSel j) (pinWrite s.adc.clockPin .low s)
  | .pack => packRead use s

/-! ## The shared registers (R168) -/

/-- The value of a shared register, zero-extended to 64 bits. -/
def sharedValue (reg : SharedReg) (r : Rot) : F64 :=
  match reg with
  | .speed => r.filteredSpeed
  | .rotates => unsignedValue r.pulseCount

/-- How many bytes a shared register has. -/
def sharedBytes : SharedReg → Nat
  | .speed => 8
  | .rotates => 4

/-- No edge is to come: none is listed and they do not go on. -/
abbrev noEdges (e : Env) : Prop := e.edges = [] ∧ e.edgesGoOn = false

/-- Which of the remaining bytes is read next: the environment's choice; then a free value, but for the lowest remaining byte
once no edge is to come, when the order cannot be seen (R44, R168; log 4). -/
def nextPick (e : Env) : Nat × Env :=
  match e.picks with
  | p :: ps => (p, { e with picks := ps })
  | [] =>
    if noEdges e then (0, e)
    else (Config.freePick e.drawn.picks, { e with drawn := { e.drawn with picks := e.drawn.picks + 1 } })

/-- One byte of a shared register is read as the register holds it now; after the last the bytes are the result (R168). -/
def readByte (reg : SharedReg) (left : List Nat) (got : F64) (s : State) : State :=
  let (p, e) := nextPick s.env
  let s := { s with env := e }
  let at' := p % left.length
  match left[at']? with
  | none => finish got s
  | some k =>
    let got := putByte got k (byteOf (sharedValue reg s.rot) k)
    let left := left.eraseIdx at'
    if left = [] then finish got s else { s with task := .sharedBytes reg left got }

/-! ## One micro-step -/

/-- One micro-step of `rot.start` (R153, R155), given the clock's answer. -/
def startStep (pos : StartPos) (t : Time) (s : State) : State :=
  match s.rot.pin with
  | none => abandon .noPin s
  | some p =>
    match pos with
    | .configure => { pinConfigInput p true s with task := .start .now }
    | .now =>
      let s := nowMillis t s
      { s with rot := { s.rot with lastEdgeTime := t, previousEdgeTime := t }, task := .start .attach }
    | .attach => { attachFalling p s with task := .start .flip }
    | .flip => finish (boolValue true) { s with rot := { s.rot with started := true } }

/-- The micro-step the main-line context performs next, `l` and `t` being what the environment answers if it is a `PinRead` or
a `NowMillis`. -/
def microStep (l : Level) (t : Time) (s : State) : State :=
  match s.task with
  | .idle => s
  | .sampleReady => finish (boolValue (readyLevel l)) (pinRead s.adc.dataPin l s)
  | .constructOut => { pinConfigOutput s.adc.clockPin s with task := .constructIn }
  | .constructIn => { pinConfigInput s.adc.dataPin false s with task := .gainLow }
  | .gainLow =>
    let s := { s with adc := { s.adc with gainSel := s.adc.gainArg } }
    enterWait { pinWrite s.adc.clockPin .low s with task := .reading .dummy }
  | .reading use => readStep use l s
  | .powerDownLow => { pinWrite s.adc.clockPin .low s with task := .powerDownHigh }
  | .powerDownHigh => finish noValue (pinWrite s.adc.clockPin .high s)
  | .powerUpLow => finish noValue (pinWrite s.adc.clockPin .low s)
  | .start pos => startStep pos t s
  | .sharedWhole reg => finish (sharedValue reg s.rot) s
  | .sharedBytes reg left got => readByte reg left got s

/-- What the next micro-step needs from the environment. -/
inductive Need where
  /-- no command is running -/
  | done
  /-- no answer -/
  | nothing
  /-- the answer to a `PinRead` -/
  | level
  /-- the answer to a `NowMillis` -/
  | clock
deriving DecidableEq, Repr

/-- The need of a read's position. -/
def seqNeed : Seq → Need
  | .wait => .level
  | .shift _ .sample => .level
  | .idle | .shift _ .rise | .shift _ .fall | .gainp _ _ | .pack => .nothing

/-- What the main-line context's next micro-step needs. -/
def need (s : State) : Need :=
  match s.task with
  | .idle => .done
  | .sampleReady => .level
  | .reading _ => seqNeed s.adc.seq
  | .start .now => .clock
  | .start .configure | .start .attach | .start .flip => .nothing
  | .constructOut | .constructIn | .gainLow | .powerDownLow | .powerDownHigh | .powerUpLow | .sharedWhole _
  | .sharedBytes _ _ _ => .nothing

/-! ## Interleaving (R222, R226) -/

/-- A batch of unlisted edges. -/
def freeEdgeBatch (k : Nat) : List EdgeAt := (Config.freeEdges k).map fun x => { after := x.1, now := x.2 }

/-- Where the listed edges are used up and edges go on, a batch of free ones is listed, a finite number each turn, so that the
sequence of edges may be infinite (R55; log 3). -/
def moreEdges (s : State) : State :=
  if s.env.edges = [] ∧ s.env.edgesGoOn = true then
    { s with env := { s.env with
      edges := freeEdgeBatch s.env.drawn.edges, drawn := { s.env.drawn with edges := s.env.drawn.edges + 1 } } }
  else s

/-- Deliver, in arrival order, the edges that are due before the next micro-step; `es` are the edges to come. -/
def deliver (es : List EdgeAt) (s : State) : State :=
  match es with
  | [] => { s with env := { s.env with edges := [] } }
  | e :: rest =>
    match e.after with
    | 0 => deliver rest (takeEdge e.now s)
    | _ + 1 => { s with env := { s.env with edges := e :: rest } }

/-- One main-line micro-step has passed: the next edge is one micro-step nearer. -/
def countDown (s : State) : State :=
  match s.env.edges with
  | [] => s
  | e :: rest => { s with env := { s.env with edges := { e with after := e.after - 1 } :: rest } }

/-- One turn of the machine while a command runs: the edges due, then one micro-step. -/
def turn (l : Level) (t : Time) (s : State) : State :=
  let s := moreEdges s
  countDown (microStep l t (deliver s.env.edges s))

/-- The turn of a micro-step that needs no answer: the answers it is handed are not looked at. -/
def plainTurn (s : State) : State := turn .low 0#32 s

/-- The turn of a `PinRead`, answered by the first level the environment has ready; nothing happens when it has none. -/
def levelTurn (s : State) : State :=
  match s.env.levels with
  | [] => s
  | l :: ls => turn l 0#32 { s with env := { s.env with levels := ls } }

/-- The turn of a `NowMillis`, likewise. -/
def clockTurn (s : State) : State :=
  match s.env.clocks with
  | [] => s
  | t :: ts => turn .low t { s with env := { s.env with clocks := ts } }

/-- At most `n` turns that need no sample: stops when the command has ended, or when a sample is needed. -/
def settle : Nat → State → State
  | 0, s => s
  | n + 1, s =>
    match need s with
    | .done => s
    | .level => s
    | .nothing => settle n (plainTurn s)
    | .clock => if s.env.clocks = [] then s else settle n (clockTurn s)

/-- More turns than any command makes between two samples. The longest run is nine: the fall of the last data pulse, six
half gain pulses, PACK, and the step that finds the command waiting or ended; a torn read makes eight. -/
def settleBound : Nat := 12

/-- Run through at most `n` samples, settling before, between and after. -/
def runSamples : Nat → State → State
  | 0, s => settle settleBound s
  | n + 1, s =>
    let s := settle settleBound s
    match need s with
    | .level => runSamples n (levelTurn s)
    | .done => s
    | .nothing => s
    | .clock => s

/-- Run the command for as long as the environment has answers ready. -/
def runCommand (s : State) : State := runSamples s.env.levels.length s

/-- Start a command that makes micro-steps: no response stands until it ends. -/
def startTask (k : Task) (s : State) : State := runCommand { s with task := k, rsp := none }

/-- Start a command that begins with a read. -/
def startRead (use : ReadUse) (s : State) : State :=
  runCommand (enterWait { s with task := .reading use, rsp := none })

/-- Start a main-line read of a register the handler writes (R168). -/
def startShared (reg : SharedReg) (s : State) : State :=
  if s.cfg.atomicReads then startTask (.sharedWhole reg) s
  else startTask (.sharedBytes reg (List.range (sharedBytes reg)) 0#64) s

/-- Start `n` reads for a mean (R120): the accumulator is cleared. -/
def startMean (n : Count) (use : MeanUse) (s : State) : State :=
  startRead (.average n use) { s with adc := { s.adc with acc := 0#32, left := n } }

/-! ## Going on with a command that waits -/

/-- Where the environment has no answer ready for the micro-step that needs one, it answers with a free value (R53, R54; log 2). -/
def supply (s : State) : State :=
  match need s with
  | .level =>
    if s.env.levels = [] then
      { s with env := { s.env with
        levels := [Config.freeLevel s.env.drawn.levels]
        drawn := { s.env.drawn with levels := s.env.drawn.levels + 1 } } }
    else s
  | .clock =>
    if s.env.clocks = [] then
      { s with env := { s.env with
        clocks := [Config.freeNow s.env.drawn.clocks]
        drawn := { s.env.drawn with clocks := s.env.drawn.clocks + 1 } } }
    else s
  | .done => s
  | .nothing => s

/-- Go on with the running command: with the answers that are ready, or with one free answer. -/
def resume (s : State) : State := runCommand (supply s)

/-- No command is running and none is presented: an edge may arrive (R222, "while no command runs"); otherwise the block waits
for its next command (R240). -/
def idleStep (s : State) : State :=
  let s := moreEdges s
  match s.env.edges with
  | [] => s
  | e :: rest => takeEdge e.now { s with env := { s.env with edges := rest } }

end Sys2Proof.Machine
end

