-- ==== Sys2Proof/Machine/GainCode.lean ====
section
/-! DEFINITION. The meanings of the three gain-code operand rows (30_encoding.md R62).

They are operand values of `adc.construct` and `adc.setGain`, not commands of the host (R70). What a row does is the arm of
R93's `case gainCode of` that it selects, `g <- 1`, `3` or `2`; `adc.setGain` then writes `adc.gainSel <- g` (log 11). -/

namespace Sys2Proof.Machine

/-- `case gainCode of ... g <- ...` (R93): the local `g` receives the selector of a legal code. -/
def selectGain (sel : GainSel) (s : State) : State := { s with adc := { s.adc with gainArg := sel } }

/-- An operand row: the selector its code maps to (R62). -/
def gainRow (code : Byte) (s : State) : State :=
  match gainSelOf code with
  | some sel => selectGain sel s
  | none => refuse .badGainCode s

/-- `gainCode.128`: one extra pulse (R62). -/
def execGainCode128 (s : State) : Out := command s (gainRow 128#8)

/-- `gainCode.64`: three extra pulses (R62). -/
def execGainCode64 (s : State) : Out := command s (gainRow 64#8)

/-- `gainCode.32`: two extra pulses (R62). -/
def execGainCode32 (s : State) : Out := command s (gainRow 32#8)

end Sys2Proof.Machine
end

