-- ==== Sys2Proof/Machine/AdcLink.lean ====
section
/-! DEFINITION. The meanings of the six operations of the ADC unit on the link (40_adc_wire.md). -/

namespace Sys2Proof.Machine

/-- `adc.construct dataPin, clockPin, gainCode` (R90): `AlreadyConstructed`, then `BadGainCode`, before anything is written;
then the two pins and the flag, the two configurations, and the whole of `adc.setGain`. -/
def execAdcConstruct (dataPin clockPin : Pin) (gainCode : Byte) (s : State) : Out :=
  command s fun s =>
    if isConstructed s then refuse .alreadyConstructed s
    else
      match gainSelOf gainCode with
      | none => refuse .badGainCode s
      | some sel =>
        let s := selectGain sel s
        startTask .constructOut
          { s with adc := { s.adc with dataPin := dataPin, clockPin := clockPin, constructed := true } }

/-- `adc.isReady` (R92): one sample of the data pin, true when it is LOW. -/
def execAdcIsReady (s : State) : Out := adcCommand s (startTask .sampleReady)

/-- `adc.setGain gainCode` (R93): the selector, the clock LOW, and one whole read whose result is not returned. -/
def execAdcSetGain (gainCode : Byte) (s : State) : Out :=
  adcCommand s fun s =>
    match gainSelOf gainCode with
    | none => refuse .badGainCode s
    | some sel => startTask .gainLow (selectGain sel s)

/-- `adc.read` (R95): the wait, 24 data pulses, the gain pulses, the stored code. -/
def execAdcRead (s : State) : Out := adcCommand s (startRead .single)

/-- `adc.powerDown` (R104): the clock LOW, then HIGH. -/
def execAdcPowerDown (s : State) : Out := adcCommand s (startTask .powerDownLow)

/-- `adc.powerUp` (R106): the clock LOW. -/
def execAdcPowerUp (s : State) : Out := adcCommand s (startTask .powerUpLow)

end Sys2Proof.Machine
end

