-- ==== Sys2Proof/Machine/AdcCalibration.lean ====
section
/-! DEFINITION. The meanings of the nine averaging and calibration operations of the ADC unit (41_adc_calibration.md). Each
tests `NotConstructed` first, then its own tests in the order of its rule (R91, R223). -/

namespace Sys2Proof.Machine

/-- `adc.readAverage n` (R120). -/
def execAdcReadAverage (n : Count) (s : State) : Out :=
  adcCommand s fun s => if n = 0#8 then refuse .zeroCount s else startMean n .raw s

/-- `adc.getValue n` (R122). -/
def execAdcGetValue (n : Count) (s : State) : Out :=
  adcCommand s fun s =>
    if n = 0#8 then refuse .zeroCount s
    else if s.adc.offset.isNone then refuse .unwritten s
    else startMean n .value s

/-- `adc.getUnits n` (R124). -/
def execAdcGetUnits (n : Count) (s : State) : Out :=
  adcCommand s fun s =>
    if n = 0#8 then refuse .zeroCount s
    else if s.adc.offset.isNone || s.adc.scale.isNone then refuse .unwritten s
    else startMean n .units s

/-- `adc.getLastUnits` (R126): a conversion of whatever `adc.lastRawReading` holds, no port call. A last reading nothing has
written, which only a `FAULT` inside `adc.construct` can leave, is refused by R30 (log 15). -/
def execAdcGetLastUnits (s : State) : Out :=
  adcCommand s fun s =>
    match s.adc.offset, s.adc.scale, s.adc.lastRawReading with
    | some o, some c, some r => finish (unitsOf (difference r o) c) s
    | _, _, _ => refuse .unwritten s

/-- `adc.tare n` (R128). -/
def execAdcTare (n : Count) (s : State) : Out :=
  adcCommand s fun s => if n = 0#8 then refuse .zeroCount s else startMean n .tare s

/-- `adc.setScale s` (R130): every bit pattern is stored as it is. -/
def execAdcSetScale (scale : F64) (s : State) : Out :=
  adcCommand s fun s => finish noValue { s with adc := { s.adc with scale := some scale } }

/-- `adc.getScale` (R131). -/
def execAdcGetScale (s : State) : Out :=
  adcCommand s fun s =>
    match s.adc.scale with
    | some c => finish c s
    | none => refuse .unwritten s

/-- `adc.setOffset o` (R132): every 32-bit value is accepted. -/
def execAdcSetOffset (offset : Offset) (s : State) : Out :=
  adcCommand s fun s => finish noValue { s with adc := { s.adc with offset := some offset } }

/-- `adc.getOffset` (R133). -/
def execAdcGetOffset (s : State) : Out :=
  adcCommand s fun s =>
    match s.adc.offset with
    | some o => finish (signedValue o) s
    | none => refuse .unwritten s

end Sys2Proof.Machine
end

