-- ==== Sys2Proof/Machine/Pulse.lean ====
section
/-! DEFINITION. The meanings of the four commands of the pulse-timing unit and of its event (42_pulse_capture.md). -/

namespace Sys2Proof.Machine

/-- `rot.construct pin` (R151): records the pin only while not started; otherwise a silent no-op. The later of two pins wins
(90_conflicts.md C2). -/
def execRotConstruct (pin : Pin) (s : State) : Out :=
  command s fun s =>
    if isStarted s then finish noValue s
    else finish noValue { s with rot := { s.rot with pin := some pin } }

/-- `rot.start` (R153, R154, R155). -/
def execRotStart (s : State) : Out :=
  command s fun s =>
    if isStarted s then finish (boolValue false) s
    else
      match s.rot.pin with
      | none => refuse .noPin s
      | some _ => startTask (.start .configure) s

/-- `rot.getSpeed` (R166). -/
def execRotGetSpeed (s : State) : Out := command s (startShared .speed)

/-- `rot.getRotates` (R167). -/
def execRotGetRotates (s : State) : Out := command s (startShared .rotates)

/-- `rot.edge` (R160): one falling edge is delivered, its handler reading the clock as `now`. It may arrive while a command
runs (R222) and is lost before the attach (R55, R150). -/
def execRotEdge (now : Time) (s : State) : Out := .next (takeEdge now s)

end Sys2Proof.Machine
end

