-- ==== Sys2Proof/Machine/Dispatch.lean ====
section
/-! DEFINITION. One arm per constructor of `Instr`. -/

namespace Sys2Proof.Machine

def exec (i : Instr) (s : State) : Host.Outcome State Fault Refusal :=
  match i with
  | .adcConstruct dataPin clockPin gainCode => Sys2Proof.Machine.execAdcConstruct dataPin clockPin gainCode s
  | .adcIsReady => Sys2Proof.Machine.execAdcIsReady s
  | .adcSetGain gainCode => Sys2Proof.Machine.execAdcSetGain gainCode s
  | .adcRead => Sys2Proof.Machine.execAdcRead s
  | .adcReadAverage n => Sys2Proof.Machine.execAdcReadAverage n s
  | .adcGetValue n => Sys2Proof.Machine.execAdcGetValue n s
  | .adcGetUnits n => Sys2Proof.Machine.execAdcGetUnits n s
  | .adcGetLastUnits => Sys2Proof.Machine.execAdcGetLastUnits s
  | .adcTare n => Sys2Proof.Machine.execAdcTare n s
  | .adcSetScale scale => Sys2Proof.Machine.execAdcSetScale scale s
  | .adcGetScale => Sys2Proof.Machine.execAdcGetScale s
  | .adcSetOffset offset => Sys2Proof.Machine.execAdcSetOffset offset s
  | .adcGetOffset => Sys2Proof.Machine.execAdcGetOffset s
  | .adcPowerDown => Sys2Proof.Machine.execAdcPowerDown s
  | .adcPowerUp => Sys2Proof.Machine.execAdcPowerUp s
  | .rotConstruct pin => Sys2Proof.Machine.execRotConstruct pin s
  | .rotStart => Sys2Proof.Machine.execRotStart s
  | .rotGetSpeed => Sys2Proof.Machine.execRotGetSpeed s
  | .rotGetRotates => Sys2Proof.Machine.execRotGetRotates s
  | .rotEdge now => Sys2Proof.Machine.execRotEdge now s
  | .gainCode128 => Sys2Proof.Machine.execGainCode128 s
  | .gainCode64 => Sys2Proof.Machine.execGainCode64 s
  | .gainCode32 => Sys2Proof.Machine.execGainCode32 s

end Sys2Proof.Machine
end

