-- ==== Sys2Proof/Machine/Step.lean ====
section
/-! DEFINITION. One step of the machine: it goes on with the running command; or it takes the next thing presented, decodes it
and runs it; or, with nothing presented, an edge may arrive (60_exceptions.md R226; logs 1 and 18). -/

namespace Sys2Proof.Machine

/-- One step. -/
def step (s : State) : Host.Outcome State Fault Refusal :=
  if isIdle s then
    match fetchNext s with
    | some (p, s') =>
      match decode p with
      | .ok i => exec i s'
      | .error e => .next (rejectWord e s')
    | none => .next (idleStep s)
  else .next (resume s)

/-- The state with a table row's word presented, so that the next step decodes and runs it (log 18). -/
def State.withFetchWord (s : State) (nbits w : Nat) : State := present (presentedOf nbits w) s

end Sys2Proof.Machine
end

