-- ==== Sys2Proof/Machine/Assembler.lean ====
section
/-! DEFINITION. The textual form of a command (30_encoding.md R77): mnemonic, then operands separated by commas, in the
source's argument order; integers decimal or `0x` hexadecimal; a scale a decimal floating-point literal or `0x` and 16
hexadecimal digits; the gain code of `adc.construct` may be left out and is then 128. What R77 leaves open is in log 24. -/

namespace Sys2Proof.Machine

/-- White space between words. -/
def isBlank (c : Char) : Bool := c == ' ' || c == '\t'

/-- A word without the blanks around it. -/
def trimBlanks (cs : List Char) : List Char := ((cs.dropWhile isBlank).reverse.dropWhile isBlank).reverse

/-- The parts of a text between the occurrences of a separator. -/
def partsAt (sep : Char) : List Char → List (List Char)
  | [] => [[]]
  | c :: cs =>
    if c == sep then [] :: partsAt sep cs
    else
      match partsAt sep cs with
      | [] => [[c]]
      | p :: ps => (c :: p) :: ps

/-- The value of a digit in a base up to 16. -/
def digitIn (base : Nat) (c : Char) : Option Nat :=
  let n := c.toNat
  let v :=
    if 48 ≤ n ∧ n ≤ 57 then some (n - 48)
    else if 65 ≤ n ∧ n ≤ 70 then some (n - 55)
    else if 97 ≤ n ∧ n ≤ 102 then some (n - 87)
    else none
  v.bind fun d => if d < base then some d else none

/-- Digits appended to a number. -/
def digitsFrom (base : Nat) : Nat → List Char → Option Nat
  | acc, [] => some acc
  | acc, c :: cs => (digitIn base c).bind fun d => digitsFrom base (acc * base + d) cs

/-- A nonempty run of digits. -/
def digits (base : Nat) (cs : List Char) : Option Nat := if cs.isEmpty then none else digitsFrom base 0 cs

/-- An unsigned integer, decimal or `0x` hexadecimal. -/
def readNat : List Char → Option Nat
  | '0' :: 'x' :: cs => digits 16 cs
  | cs => digits 10 cs

/-- An 8-bit operand: a pin, a gain code or a sample count (R68). -/
def readByteOperand (cs : List Char) : Option (BitVec 8) :=
  (readNat cs).bind fun n => if n < 256 then some (BitVec.ofNat 8 n) else none

/-- An offset: a signed decimal integer, or a hexadecimal pattern of 32 bits (R68). -/
def readOffset : List Char → Option Offset
  | '-' :: cs => (digits 10 cs).bind fun n => if n ≤ 2 ^ 31 then some (BitVec.ofInt 32 (-(n : Int))) else none
  | '0' :: 'x' :: cs => (digits 16 cs).bind fun n => if n < 2 ^ 32 then some (BitVec.ofNat 32 n) else none
  | cs => (digits 10 cs).bind fun n => if n < 2 ^ 31 then some (BitVec.ofNat 32 n) else none

/-- The binary64 number nearest to `n / 10^k`, with a sign. -/
def nearestDecimal (neg : Bool) (n k : Nat) : F64 := fPack neg (roundMag (n * 2 ^ 1074) (10 ^ k))

/-- An unsigned decimal floating-point literal: digits, and a fraction if there is a point. -/
def readDecimal (neg : Bool) (cs : List Char) : Option F64 :=
  match partsAt '.' cs with
  | [whole] => (digits 10 whole).map fun n => nearestDecimal neg n 0
  | [whole, frac] =>
    if frac.isEmpty then none else (digits 10 (whole ++ frac)).map fun n => nearestDecimal neg n frac.length
  | _ => none

/-- A scale: 16 hexadecimal digits are the bit pattern, otherwise a decimal literal. -/
def readScale : List Char → Option F64
  | '0' :: 'x' :: cs => if cs.length = 16 then (digits 16 cs).map (BitVec.ofNat 64) else none
  | '-' :: cs => readDecimal true cs
  | cs => readDecimal false cs

/-- The commands without operands. -/
def plainMnemonics : List Instr :=
  [.adcIsReady, .adcRead, .adcGetLastUnits, .adcGetScale, .adcGetOffset, .adcPowerDown, .adcPowerUp, .rotStart,
   .rotGetSpeed, .rotGetRotates]

/-- The commands with one 8-bit operand, each with its constructor. -/
def byteMnemonics : List (String × (BitVec 8 → Instr)) :=
  [("adc.setGain", .adcSetGain), ("adc.readAverage", .adcReadAverage), ("adc.getValue", .adcGetValue),
   ("adc.getUnits", .adcGetUnits), ("adc.tare", .adcTare), ("rot.construct", .rotConstruct)]

/-- A command from its mnemonic and its operands. -/
def assembleParts (m : List Char) (ops : List (List Char)) : Option Instr :=
  match ops with
  | [] => plainMnemonics.find? fun i => i.mnemonic.toList == m
  | [a] =>
    if m == "adc.setScale".toList then (readScale a).map .adcSetScale
    else if m == "adc.setOffset".toList then (readOffset a).map .adcSetOffset
    else (byteMnemonics.find? fun x => x.1.toList == m).bind fun x => (readByteOperand a).map x.2
  | [a, b] =>
    if m == "adc.construct".toList then
      (readByteOperand a).bind fun d => (readByteOperand b).map fun c => .adcConstruct d c Config.defaultGain
    else none
  | [a, b, g] =>
    if m == "adc.construct".toList then
      (readByteOperand a).bind fun d =>
        (readByteOperand b).bind fun c => (readByteOperand g).map fun g => .adcConstruct d c g
    else none
  | _ => none

/-- A line without its comment, which a semicolon opens. -/
def withoutComment (cs : List Char) : List Char := cs.takeWhile fun c => c != ';'

/-- One line of assembler text (R77). -/
def assemble (text : String) : Option Instr :=
  let line := trimBlanks (withoutComment text.toList)
  let m := line.takeWhile fun c => !isBlank c
  let rest := trimBlanks (line.drop m.length)
  if rest.isEmpty then assembleParts m [] else assembleParts m ((partsAt ',' rest).map trimBlanks)

/-- The command word of one line (R67, R77). -/
def assembleWord (text : String) : Option Presented := (assemble text).bind encode

end Sys2Proof.Machine
end

