-- ==== Sys2Proof/Machine/Surrounding.lean ====
section
/-! DEFINITION. The surrounding software, OUTSIDE the block (43_persistence_checksum.md R180, 44_filters.md R202): calibration
persistence, the checksum and the moving average, as pure functions over a storage value and a caller's buffer. They have no
command and no part of State; they reach the block only through `adc.setScale` and `adc.setOffset` (log 22). -/

namespace Sys2Proof.Machine

/-! ## The storage (R188) -/

/-- The non-volatile byte array. R188 calls it fixed-size and gives neither its size nor its address width: the size is a field, so a
claim holds for every size; an address is a natural number and exists when it is below the size (the model's choice, log 22). -/
structure Storage where
  /-- how many bytes there are; no operation changes it -/
  size : Nat
  /-- the bytes written: address and byte, addresses strictly rising and below the size -/
  bytes : PinMap (BitVec 8)
deriving DecidableEq, Repr

/-- `readByte(addr)`: a byte nothing has written, and an address that does not exist, read as free values (log 22). -/
def nvRead (m : Storage) (a : Nat) : BitVec 8 :=
  if a < m.size then (pinGet m.bytes a).getD (Config.erasedByte a) else Config.absentByte a

/-- `writeByteIfChanged(addr, byte)`: writes only when the stored byte differs, and only where a byte exists (log 22). -/
def nvUpdate (m : Storage) (a : Nat) (b : BitVec 8) : Storage :=
  if a < m.size then
    if nvRead m a = b then m else { m with bytes := pinSet m.bytes a b }
  else m

/-- Update a run of bytes, ascending (R182). -/
def nvUpdateAll (m : Storage) (a : Nat) : List (BitVec 8) → Storage
  | [] => m
  | b :: bs => nvUpdateAll (nvUpdate m a b) (a + 1) bs

/-- Read a run of bytes. -/
def nvReadAll (m : Storage) (a n : Nat) : List (BitVec 8) := (List.range n).map fun i => nvRead m (a + i)

/-! ## The checksum (R186, R187): CRC-32, D25 -/

/-- A 32-bit checksum (R186, D25). -/
abbrev Word := BitVec 32

/-- One bit of the reflected CRC-32, polynomial 0xEDB88320. -/
def crcBit (c : Word) : Word := if c.getLsbD 0 then (c >>> 1) ^^^ 0xEDB88320#32 else c >>> 1

/-- `n` bits. -/
def crcBits : Nat → Word → Word
  | 0, c => c
  | n + 1, c => crcBits n (crcBit c)

/-- One byte. -/
def crcByte (c : Word) (b : BitVec 8) : Word := crcBits 8 (c ^^^ b.setWidth 32)

/-- `compute(bytes)`: initial value and final exclusive-or 0xFFFFFFFF (R186). -/
def crc32 (bytes : List (BitVec 8)) : Word := bytes.foldl crcByte 0xFFFFFFFF#32 ^^^ 0xFFFFFFFF#32

/-- The bytes of a 32-bit word, least significant first (R184). -/
def wordBytes (v : Word) : List (BitVec 8) := (List.range 4).map fun k => v.extractLsb' (8 * k) 8

/-- `append(B, compute(B))` (R187). -/
def withChecksum (bytes : List (BitVec 8)) : List (BitVec 8) := bytes ++ wordBytes (crc32 bytes)

/-- `verify(bytes)`: recompute over all but the last four bytes and compare (R187). -/
def verifyChecksum (bytes : List (BitVec 8)) : Bool :=
  bytes.drop (bytes.length - 4) == wordBytes (crc32 (bytes.take (bytes.length - 4)))

/-! ## The record (R181 to R185) -/

/-- The bytes of a binary64 number, least significant first (R184). -/
def doubleBytes (v : F64) : List (BitVec 8) := (List.range 8).map fun k => v.extractLsb' (8 * k) 8

/-- The 16 bytes of the record: scale, offset, checksum of the twelve before (R184). -/
def recordBytes (scale : F64) (offset : Offset) : List (BitVec 8) := withChecksum (doubleBytes scale ++ wordBytes offset)

/-- A number from its bytes, least significant first. -/
def ofBytes : List (BitVec 8) → Nat
  | [] => 0
  | b :: bs => b.toNat + 256 * ofBytes bs

/-- `save(scale, offset)`: always true (R182). -/
def saveRecord (scale : F64) (offset : Offset) (m : Storage) : Bool × Storage :=
  (true, nvUpdateAll m Config.nvBase (recordBytes scale offset))

/-- `load`: the pair when the checksum verifies; otherwise nothing, the outputs being unspecified (R183, U4). -/
def loadRecord (m : Storage) : Option (F64 × Offset) :=
  let buf := nvReadAll m Config.nvBase 16
  if verifyChecksum buf then
    some (BitVec.ofNat 64 (ofBytes (buf.take 8)), BitVec.ofNat 32 (ofBytes ((buf.drop 8).take 4)))
  else none

/-- The calling procedure's fallback to the defaults (R185). -/
def calibrationOrDefault (m : Storage) : F64 × Offset :=
  (loadRecord m).getD (Config.defaultScale, Config.defaultOffset)

/-- Step 2 of the start-up sequence (70_reset_and_hazards.md R245): the commands that load the calibration registers. -/
def calibrationCommands (m : Storage) : List Instr :=
  [.adcSetScale (calibrationOrDefault m).1, .adcSetOffset (calibrationOrDefault m).2]

/-! ## The moving average (R202) -/

/-- `init(buf, N, v)` -/
def averageInit (n : Nat) (v : F64) : List F64 := List.replicate n v

/-- The buffer after a step: the oldest sample leaves at index 0, the new one enters at the end. The window size N is open (D27), and
in a window of no samples there is no `buf[N-1]` to write: such a buffer stays empty (the model's choice, log 22). -/
def averageShift (buf : List F64) (x : F64) : List F64 :=
  match buf with
  | [] => []
  | _ :: rest => rest ++ [x]

/-- The sum of the samples in index order. -/
def sumInOrder : List F64 → F64
  | [] => 0#64
  | x :: xs => xs.foldl fadd x

/-- `step(buf, N, x)`: the new buffer and the mean. For N = 0, which R202 does not treat, the mean is zero over zero, a NaN of free
sign and payload (the model's choice, log 22). -/
def averageStep (buf : List F64) (x : F64) : List F64 × F64 :=
  let buf := averageShift buf x
  (buf, fdiv (sumInOrder buf) (f64OfInt (buf.length : Int)))

end Sys2Proof.Machine
end

