-- ==== Sys2Proof/Safety.lean ====
section
/-! DEFINITION. The terms claims are stated in: what the environment answers in a frame and what the block then leaves in the
history (30_encoding.md R61, 40_adc_wire.md R98), the end of a run (70_reset_and_hazards.md R256), and the invariant. -/

namespace Sys2Proof.Machine

/-! ## Frames (R61, R95, R98) -/

/-- The 24 samples that spell a wire code, most significant bit first (R43, R61). -/
def wireLevels (w : Code) : List Level := (List.range Config.dataBits).map fun i => Level.ofBit (w.getLsbD (23 - i))

/-- The answers to the `PinRead`s of one read: `k` HIGH polls, the LOW poll, the 24 samples (R98). -/
def frameLevels (k : Nat) (w : Code) : List Level := List.replicate k .high ++ .low :: wireLevels w

/-- The events of one data pulse (R95). -/
def dataPulse (c d : Pin) (l : Level) : List Event := [.wr c .high, .rd d l, .wr c .low]

/-- The events of `g` gain pulses (R95). -/
def gainPulses (c : Pin) (g : Nat) : List Event := (List.replicate g [Event.wr c .high, Event.wr c .low]).flatten

/-- The main-line events of one read (R98): `c` the clock pin, `d` the data pin, `k` HIGH polls, wire code `w`, `g` gain pulses. -/
def frameEvents (c d : Pin) (k : Nat) (w : Code) (g : GainSel) : List Event :=
  List.replicate k (.rd d .high) ++ .rd d .low :: ((wireLevels w).flatMap (dataPulse c d) ++ gainPulses c g.toNat)

/-- A script of conversions: HIGH polls before each, and its wire code (95_test_vectors.md section 2). -/
abbrev Script := List (Nat × Code)

/-- The answers of a script's frames, one after the other (R120). -/
def scriptLevels (cs : Script) : List Level := cs.flatMap fun x => frameLevels x.1 x.2

/-- The events of a script's frames (R120: n copies of the pattern of R98). -/
def scriptEvents (c d : Pin) (g : GainSel) (cs : Script) : List Event := cs.flatMap fun x => frameEvents c d x.1 x.2 g

/-- The exact sum of a script's stored codes (R134). -/
def codeSum (cs : Script) : Nat := (cs.map fun x => (storedCode x.2).toNat).sum

/-- The truncating integer mean of a script's stored codes (R120, R134). -/
def codeMean (cs : Script) : Raw := BitVec.ofNat Config.rawW (codeSum cs / cs.length)

/-- `k` HIGH polls stay below the bound of the wait, if there is one (R96, R97). -/
def pollsFit (cfg : Config) (k : Nat) : Prop := ∀ b, cfg.readyPollBound = some b → k < b

/-- The stored code of a wire code, in its register (R16, R63). -/
def rawWord (w : Code) : Raw := codeWord (storedCode w)

/-- What a frame leaves in the collaborator: the clock LOW (R61, R95). -/
def clockLow (s : State) : Gpio := { s.gpio with out := pinSet s.gpio.out s.adc.clockPin.toNat .low }

/-- No command is running and the ADC unit has been constructed: the state in which an `adc.` command runs (R91, R246). -/
def adcReady (s : State) : Prop := s.task = .idle ∧ s.adc.constructed = true

/-- No edge is to come. -/
def quiet (s : State) : Prop := noEdges s.env

/-- What one whole read leaves (R95): the stored code kept, the sequencer IDLE, the clock LOW, the frame's events, its answers
used up. -/
def afterRead (k : Nat) (w : Code) (rest : List Level) (s : State) : State :=
  { s with
    adc := { s.adc with lastRawReading := some (rawWord w), seq := .idle, shreg := w, polls := k }
    gpio := clockLow s
    hist := s.hist ++ frameEvents s.adc.clockPin s.adc.dataPin k w s.adc.gainSel
    env := { s.env with levels := rest } }

/-- What a script's reads and their mean leave (R120): the mean in place of the last sample. -/
def afterMean (cs : Script) (rest : List Level) (s : State) : State :=
  { s with
    adc := { s.adc with
      lastRawReading := some (codeMean cs), seq := .idle, acc := BitVec.ofNat Config.accW (codeSum cs), left := 0#8,
      shreg := (cs.getLast?.map Prod.snd).getD s.adc.shreg, polls := (cs.getLast?.map Prod.fst).getD s.adc.polls }
    gpio := clockLow s
    hist := s.hist ++ scriptEvents s.adc.clockPin s.adc.dataPin s.adc.gainSel cs
    env := { s.env with levels := rest } }

/-- What the command leaves beside its effect: the response `OK v`, no command running (R69). -/
def answered (v : BitVec 64) (s : State) : State := { s with task := .idle, rsp := some { status := .ok, value := v } }

/-- What a refusal leaves: the response `REFUSED` with its reason code, all else as it was (R69, R212). -/
def refusedWith (code : BitVec 64) (s : State) : State := { s with rsp := some { status := .refused, value := code } }

/-- The selector and the LOW that `adc.setGain` writes before its read (R93). -/
def afterGainWrite (sel : GainSel) (s : State) : State :=
  { s with
    adc := { s.adc with gainArg := sel, gainSel := sel }
    gpio := clockLow s
    hist := s.hist ++ [.wr s.adc.clockPin .low] }

/-- What `adc.construct` writes and configures before it performs `adc.setGain` (R90). -/
def afterConfigure (dataPin clockPin : Pin) (s : State) : State :=
  { s with
    adc := { s.adc with constructed := true, dataPin := dataPin, clockPin := clockPin }
    gpio := { s.gpio with dir := pinSet (pinSet s.gpio.dir clockPin.toNat .output) dataPin.toNat .input }
    hist := s.hist ++ [.cfgOut clockPin, .cfgIn dataPin false] }

/-- The answers a mean of `n` reads needs: one conversion for each, then `rest` (R120). -/
def scripted (n : Count) (cs : Script) (rest : List Level) (s : State) : Prop :=
  cs.length = n.toNat ∧ s.env.levels = scriptLevels cs ++ rest ∧ ∀ x ∈ cs, pollsFit s.cfg x.1

/-- A read of command `use` has polled HIGH `k` times and waits: not a response, not a move of the clock, and no register of the spec
written by that read (R96). -/
def waitingFor (use : ReadUse) (k : Nat) (s : State) : State :=
  { s with
    task := .reading use, rsp := none, adc := { s.adc with seq := .wait, polls := k }
    hist := s.hist ++ List.replicate k (.rd s.adc.dataPin .high), env := { s.env with levels := [] } }

/-- A read has polled HIGH `b` times, the bound of the wait, and its command has ended in `FAULT`, `NeverReady` (R97). -/
def neverReadyAfter (b : Nat) (rest : List Level) (s : State) : State :=
  { s with
    task := .idle, rsp := some { status := .fault, value := 8#64 }, adc := { s.adc with seq := .idle, polls := b }
    hist := s.hist ++ List.replicate b (.rd s.adc.dataPin .high), env := { s.env with levels := rest } }

/-- The reads of a script, done on the way to a mean of `n` (R120): the last sample kept, the sum so far, the reads left. -/
def afterSamples (n : Count) (cs : Script) (s : State) : State :=
  { s with
    adc := { s.adc with
      lastRawReading := (cs.getLast?.map fun x => some (rawWord x.2)).getD s.adc.lastRawReading
      acc := BitVec.ofNat Config.accW (codeSum cs), left := n - BitVec.ofNat Config.nW cs.length
      shreg := (cs.getLast?.map Prod.snd).getD s.adc.shreg }
    gpio := if cs.isEmpty then s.gpio else clockLow s
    hist := s.hist ++ scriptEvents s.adc.clockPin s.adc.dataPin s.adc.gainSel cs }

/-- The command that makes this use of the mean of `n` reads (R120, R122, R124, R128). -/
def meanCommand (use : MeanUse) (n : Count) : Instr :=
  match use with
  | .raw => .adcReadAverage n
  | .value => .adcGetValue n
  | .units => .adcGetUnits n
  | .tare => .adcTare n

/-- The registers that command reads at its end have been written (R122, R124). -/
def meanOperands (use : MeanUse) (s : State) : Prop :=
  match use with
  | .raw | .tare => True
  | .value => s.adc.offset.isSome = true
  | .units => s.adc.offset.isSome = true ∧ s.adc.scale.isSome = true

/-- The operand bits a command word must leave zero, by opcode; nothing for a reserved opcode (R67, R70, opcode_table.json). -/
def unusedBits (opcode : Nat) : Option (BitVec 64) :=
  match opcode with
  | 0x10 => some 0xFFFFFFFFFF000000#64
  | 0x11 | 0x13 | 0x17 | 0x1A | 0x1C | 0x1D | 0x1E | 0x21 | 0x22 | 0x23 => some 0xFFFFFFFFFFFFFFFF#64
  | 0x12 | 0x14 | 0x15 | 0x16 | 0x18 | 0x20 => some 0xFFFFFFFFFFFFFF00#64
  | 0x19 => some 0#64
  | 0x1B => some 0xFFFFFFFF00000000#64
  | _ => none

/-- Is the word's encoding reserved (R76): an opcode not in R70, or a nonzero unused operand bit? -/
def reservedWord (w : BitVec 72) : Bool :=
  match unusedBits (w.toNat / 2 ^ 64) with
  | none => true
  | some m => BitVec.ofNat 64 w.toNat &&& m != 0#64

/-! ## The history -/

/-- Is the event the delivery of an edge? -/
def isEdgeEvent : Event → Bool
  | .edge _ => true
  | .cfgOut _ | .cfgIn _ _ | .wr _ _ | .rd _ _ | .attach _ | .now _ => false

/-- The main-line events of a history, in order (R98). -/
def mainEvents (h : List Event) : List Event := h.filter fun e => !isEdgeEvent e

/-- The edges delivered in a history (R41). -/
def edgeEvents (h : List Event) : List Event := h.filter isEdgeEvent

/-- The clock value of an edge event. -/
def edgeTime : Event → Option Time
  | .edge t => some t
  | .cfgOut _ | .cfgIn _ _ | .wr _ _ | .rd _ _ | .attach _ | .now _ => none

/-- The clock values of the edges delivered in a history, in order (R41). -/
def edgeTimes (h : List Event) : List Time := h.filterMap edgeTime

/-- The registers of the pulse-timing unit after the handler has run at each of some clock values, in order (R160, R221). -/
def afterTimes (ts : List Time) (r : Rot) : Rot := ts.foldl (fun r t => edgeHandler t r) r

/-- The free edges of `n` batches, from batch `k` on (R55; log 3). -/
def drawnEdges (k n : Nat) : List EdgeAt := (List.range n).flatMap fun i => freeEdgeBatch (k + i)

/-! ## The end of a run (R256) -/

/-- The host's list is exhausted, the last command has answered, and no undelivered edge is one the claim at hand wants counted
(R256). Which edges a claim wants counted is the claim's to say: `wanted` of the edges listed, `wantsMore` of those that go on
past them; the form is the model's choice (log 28). No handler is ever in progress between two steps (R222). -/
def runEnded (wanted : EdgeAt → Bool) (wantsMore : Bool) (s : State) : Bool :=
  isIdle s && s.env.cmds.isEmpty && !s.env.edges.any wanted && !(wantsMore && s.env.edgesGoOn)

/-- A read is waiting for the device (R96). -/
def waiting (s : State) : Bool :=
  match s.task with
  | .reading _ => s.adc.seq == .wait
  | .idle | .sampleReady | .constructOut | .constructIn | .gainLow | .powerDownLow | .powerDownHigh | .powerUpLow
  | .start _ | .sharedWhole _ | .sharedBytes _ _ _ => false

/-- Is this a getter of the pulse-timing unit, which answers with a register the handler writes (R166, R167)? -/
def isGetter : Instr → Bool
  | .rotGetSpeed | .rotGetRotates => true
  | .adcConstruct .. | .adcIsReady | .adcSetGain _ | .adcRead | .adcReadAverage _ | .adcGetValue _ | .adcGetUnits _
  | .adcGetLastUnits | .adcTare _ | .adcSetScale _ | .adcGetScale | .adcSetOffset _ | .adcGetOffset | .adcPowerDown
  | .adcPowerUp | .rotConstruct _ | .rotStart | .rotEdge _ | .gainCode128 | .gainCode64 | .gainCode32 => false

/-- Does the step begin, or go on with, a getter of the pulse-timing unit (R166, R167)? -/
def readsShared (s : State) : Bool :=
  match s.task with
  | .sharedWhole _ | .sharedBytes _ _ _ => true
  | .idle =>
    match fetchNext s with
    | some (p, _) =>
      match decode p with
      | .ok i => isGetter i
      | .error _ => false
    | none => false
  | .sampleReady | .constructOut | .constructIn | .gainLow | .reading _ | .powerDownLow | .powerDownHigh | .powerUpLow
  | .start _ => false

/-! ## Two runs that differ in their edges (R98, R99, R227) -/

/-- The same command at the same micro-step, but for the bytes a getter has read. -/
def tasksAlike (a b : Task) : Prop :=
  a = b ∨ ∃ r l g l' g', a = .sharedBytes r l g ∧ b = .sharedBytes r l' g' ∧ l.length = l'.length

/-- Two states alike in all that edges must not disturb: the ADC unit, the pins' levels and directions, the pulse-timing unit's pin and
flag, the running command, whether and how the last one answered, the main-line events, and what the host and the device will do. Free
are the edges to come, the handler's registers, and the value a getter answered. -/
structure AdcSideAlike (s u : State) : Prop where
  adc : s.adc = u.adc
  cfg : s.cfg = u.cfg
  out : s.gpio.out = u.gpio.out
  dir : s.gpio.dir = u.gpio.dir
  pin : s.rot.pin = u.rot.pin
  started : s.rot.started = u.rot.started
  task : tasksAlike s.task u.task
  status : s.rsp.map Response.status = u.rsp.map Response.status
  main : mainEvents s.hist = mainEvents u.hist
  cmds : s.env.cmds = u.env.cmds
  levels : s.env.levels = u.env.levels
  clocks : s.env.clocks = u.env.clocks
  levelsDrawn : s.env.drawn.levels = u.env.drawn.levels
  clocksDrawn : s.env.drawn.clocks = u.env.drawn.clocks

/-! ## Correct rounding (R9, D8) -/

/-- `r` is the rational `n / d` in units of 2^-1074, correctly rounded to nearest, ties to even, with sign `s`: an infinity from half a
last place above the largest finite number on, else a finite number that none is closer than, even where another is as close. -/
def roundedTo (r : F64) (n d : Int) (s : Bool) : Prop :=
  fSign r = s ∧
    if (2 ^ 54 - 1) * 2 ^ 2044 * d.natAbs ≤ n.natAbs then fIsInf r = true
    else
      fIsFinite r = true ∧
        ∀ c, fIsFinite c = true →
          (fValue r * d - n).natAbs ≤ (fValue c * d - n).natAbs ∧
            ((fValue r * d - n).natAbs = (fValue c * d - n).natAbs → fValue c ≠ fValue r → fFrac r % 2 = 0)

/-! ## The invariant -/

/-- The collaborator's maps are in canonical form (log 14). -/
def mapsCanonical (s : State) : Prop :=
  pinsRising s.gpio.dir = true ∧ pinsRising s.gpio.out = true ∧ pinsRising s.gpio.handler = true

/-- Every raw reading fits 24 bits: the top 8 bits of `adc.lastRawReading` are zero (R16). -/
def readingsFit (s : State) : Prop := ∀ r, s.adc.lastRawReading = some r → r.toNat < 2 ^ 24

/-- Before `adc.construct` nothing of the ADC unit has been written and nothing of it runs (R12, R31, R91). -/
def unconstructedIsBare (s : State) : Prop :=
  s.adc.constructed = false →
    s.adc.gainSel = 0#2 ∧ s.adc.scale = none ∧ s.adc.offset = none ∧ s.adc.lastRawReading = none ∧
      (s.task = .idle ∨ (∃ p, s.task = .start p) ∨ (∃ r, s.task = .sharedWhole r) ∨ ∃ r l g, s.task = .sharedBytes r l g)

/-- Is the main-line context before the write of `adc.gainSel` in `adc.construct` or `adc.setGain`? -/
def gainPending : Task → Bool
  | .constructOut | .constructIn | .gainLow => true
  | .idle | .sampleReady | .reading _ | .powerDownLow | .powerDownHigh | .powerUpLow | .start _ | .sharedWhole _
  | .sharedBytes _ _ _ => false

/-- `adc.gainSel` is 1, 2 or 3 once `adc.construct` has written it (R13), and the selector about to be written is too. -/
def gainIsLegal (s : State) : Prop :=
  (s.adc.constructed = true → gainPending s.task = false → s.adc.gainSel ≠ 0#2) ∧
    (gainPending s.task = true → s.adc.gainArg ≠ 0#2)

/-- `adc.seq` is IDLE exactly when no read is in progress (R25), and a gain pulse has a number from 1 to `adc.gainSel`. -/
def sequencerIsSound (s : State) : Prop :=
  ((∃ u, s.task = .reading u) ↔ s.adc.seq ≠ .idle) ∧
    ∀ j p, s.adc.seq = .gainp j p → 0 < j.toNat ∧ j.toNat ≤ s.adc.gainSel.toNat

/-- While `n` reads run, some are left, and the sum of those done is that of codes below 2^24, so it never overflows (R27). -/
def accumulatorFits (s : State) : Prop :=
  ∀ n u, s.task = .reading (.average n u) →
    0 < s.adc.left.toNat ∧ s.adc.left.toNat ≤ n.toNat ∧
      s.adc.acc.toNat ≤ (n.toNat - s.adc.left.toNat) * (2 ^ 24 - 1)

/-- What a command reads at its end has been written (R30, R122, R124, R154). -/
def operandsWritten (s : State) : Prop :=
  (∀ n, s.task = .reading (.average n .value) → s.adc.offset.isSome = true) ∧
    (∀ n, s.task = .reading (.average n .units) → s.adc.offset.isSome = true ∧ s.adc.scale.isSome = true) ∧
    ∀ p, s.task = .start p → s.rot.pin.isSome = true

/-- The pulse-timing unit's two states (R150): running means the handler is attached to the pin; not started means no handler
is attached, but for the moment between the attach and the flag (R155); a start in progress means not started. -/
def pulseUnitIsSound (s : State) : Prop :=
  (s.rot.started = true → edgeEnabled s = true) ∧
    (s.task = .start .flip → edgeEnabled s = true) ∧
    (s.rot.started = false → s.task ≠ .start .flip → s.gpio.handler = []) ∧
    ∀ p, s.task = .start p → s.rot.started = false

/-- The invariant of the machine. -/
structure State.Inv (s : State) : Prop where
  maps : mapsCanonical s
  readings : readingsFit s
  bare : unconstructedIsBare s
  gain : gainIsLegal s
  seq : sequencerIsSound s
  acc : accumulatorFits s
  operands : operandsWritten s
  pulse : pulseUnitIsSound s

end Sys2Proof.Machine
end

