-- ==== Sys2Proof/Certificates/Slice0/Obligations.lean ====
section
/-! DEFINITION. The statements for the provers. -/

open Sys2Proof Sys2Proof.Machine

/-! ## Encodings -/

/-- Decoding what was encoded gives the instruction back, every operand included (R62, R67, R68, R70). -/
def Obligations.DecodeOfEncodeIsIdentity : Prop :=
  ∀ i p, encode i = some p → decode p = .ok i

/-- What decodes is encoded back to the same bits: no bit of a word is ignored (R67, R76). -/
def Obligations.EncodeOfDecodeIsIdentity : Prop :=
  ∀ p i, decode p = .ok i → encode i = some p

/-- Seven command words written out in 30_encoding.md R77 and 95_test_vectors.md 3.1, and one gain operand of 3.4 (R62; that an operand
is presented by itself is log 11), decode to what they stand for; three reserved words of 3.1 do not decode. -/
def Obligations.SpecWordsDecodeAsWritten : Prop :=
  decodeTableWord 72 0x100000000000400203 = some (.adcConstruct 3#8 2#8 64#8) ∧
    decodeTableWord 72 0x120000000000000020 = some (.adcSetGain 32#8) ∧
    decodeTableWord 72 0x16000000000000000A = some (.adcGetUnits 10#8) ∧
    decodeTableWord 72 0x194004000000000000 = some (.adcSetScale 0x4004000000000000#64) ∧
    decodeTableWord 72 0x1B00000000FFFFFC18 = some (.adcSetOffset 0xFFFFFC18#32) ∧
    decodeTableWord 72 0x200000000000000007 = some (.rotConstruct 7#8) ∧
    decodeTableWord 72 0x210000000000000000 = some .rotStart ∧
    decodeTableWord 8 0x40 = some .gainCode64 ∧
    decodeTableWord 72 0x120000000000000180 = none ∧
    decodeTableWord 72 0x1BFFFFFFFFFFFFFC18 = none ∧
    decodeTableWord 72 0x1F0000000000000000 = none

/-- R76: a reserved command word is refused with `Reserved`, whatever the state; an unlisted gain code with `BadGainCode`, a
zero count with `ZeroCount`, once the other tests of the command are passed; nothing else changes. A word that is not
reserved decodes. -/
def Obligations.ReservedEncodingsAreRefused : Prop :=
  (∀ s w rest, s.task = .idle → s.env.cmds = .command w :: rest → reservedWord w = true →
      step s = .next (refusedWith 6#64 { s with env := { s.env with cmds := rest } })) ∧
    (∀ w, reservedWord w = false → ∃ i, decodeCommand w = .ok i) ∧
    (∀ s g, adcReady s → gainCodeLegal g = false → exec (.adcSetGain g) s = .next (refusedWith 3#64 s)) ∧
    (∀ s d c g, s.task = .idle → s.adc.constructed = false → gainCodeLegal g = false →
      exec (.adcConstruct d c g) s = .next (refusedWith 3#64 s)) ∧
    (∀ s, adcReady s →
      exec (.adcReadAverage 0#8) s = .next (refusedWith 4#64 s) ∧ exec (.adcGetValue 0#8) s = .next (refusedWith 4#64 s) ∧
        exec (.adcGetUnits 0#8) s = .next (refusedWith 4#64 s) ∧ exec (.adcTare 0#8) s = .next (refusedWith 4#64 s))

/-- R62: the gain map, its inverse (R13) and the pulses of a frame. -/
def Obligations.GainMapIsTheSpecs : Prop :=
  (∀ g sel, gainSelOf g = some sel ↔ (g = 128#8 ∧ sel = 1#2) ∨ (g = 64#8 ∧ sel = 3#2) ∨ (g = 32#8 ∧ sel = 2#2)) ∧
    (∀ g sel, gainSelOf g = some sel → gainCodeOf sel = some g) ∧
    framePulses 1#2 = 25 ∧ framePulses 3#2 = 27 ∧ framePulses 2#2 = 26

/-- R63: the stored code is the wire code with bit 23 inverted, byte 2 with `0x80`; it adds 2^23 to the signed reading; it is
its own inverse, and its container holds it unsigned; wire code 0x7FFFFF gives 0xFFFFFF. -/
def Obligations.StoredCodeAddsHalfRange : Prop :=
  (∀ w : Code,
    ((storedCode w).toNat : Int) = w.toInt + 8388608 ∧ storedCode (storedCode w) = w ∧
      storedCode w = (w.extractLsb' 16 8 ^^^ 0x80#8) ++ (w.extractLsb' 8 8 ++ w.extractLsb' 0 8) ∧
      (codeWord (storedCode w)).toNat = (storedCode w).toNat) ∧
    storedCode 0x7FFFFF#24 = 0xFFFFFF#24

/-- R69: the response word holds the status above the value, and status 3 is never produced. -/
def Obligations.ResponseWordHoldsStatusAndValue : Prop :=
  ∀ r : Response,
    (responseWord r).extractLsb' 64 2 = statusCode r.status ∧ (responseWord r).extractLsb' 0 64 = r.value ∧
      statusCode r.status ≠ 3#2

/-- The lines of R77's listing assemble to the words printed beside them; a left-out gain code is 128. -/
def Obligations.AssemblerExamplesOfTheSpec : Prop :=
  assemble "adc.construct 3, 2" = some (.adcConstruct 3#8 2#8 128#8) ∧
    assembleWord "adc.construct 3, 2, 64" = some (.command 0x100000000000400203#72) ∧
    assembleWord "adc.setGain 32" = some (.command 0x120000000000000020#72) ∧
    assembleWord "adc.getUnits 10" = some (.command 0x16000000000000000A#72) ∧
    assembleWord "adc.setScale 2.5" = some (.command 0x194004000000000000#72) ∧
    assembleWord "adc.setOffset -1000" = some (.command 0x1B00000000FFFFFC18#72) ∧
    assembleWord "rot.construct 7" = some (.command 0x200000000000000007#72) ∧
    assembleWord "rot.start" = some (.command 0x210000000000000000#72)

/-! ## The step -/

/-- With no command running, what is presented and decodes is run by `exec`, the host's list one shorter; a table row's word
placed by `withFetchWord` is what the next step runs; while a command runs a step goes on with it. The placing, which sets the running
command aside and lets an operand row be presented, is the model's choice (logs 18 and 11), and so is how far a step goes (log 1). -/
def Obligations.StepRunsTheDecodedInstruction : Prop :=
  (∀ s p rest i, s.task = .idle → s.env.cmds = p :: rest → decode p = .ok i →
      step s = exec i { s with env := { s.env with cmds := rest } }) ∧
    (∀ (s : State) nbits w i, decodeTableWord nbits w = some i →
      step (s.withFetchWord nbits w) = exec i { s with task := .idle, adc := { s.adc with seq := .idle } }) ∧
    ∀ s, s.task ≠ .idle → step s = .next (resume s)

/-- R210: no step ends in a fault or a refusal of the model. -/
def Obligations.EveryStepAnswersANextState : Prop := ∀ s, ∃ t, step s = .next t

/-- A command presented while another runs has no meaning (R72, U16): the model refuses it by name. The model's choice of a
refusal is log 13. -/
def Obligations.CommandWhileRunningIsRefused : Prop :=
  ∀ i s, i.isCommand = true → s.task ≠ .idle → exec i s = .refused .commandRunning

/-! ## Reset and the invariant -/

/-- R240: the power-on state, in which the block waits for its first command and drives nothing. -/
def Obligations.PowerOnStateIsTheSpecs : Prop :=
  let s := State.reset
  (s.adc.constructed = false ∧ s.rot.started = false ∧ s.rot.pin = none ∧ edgeEnabled s = false ∧
      s.gpio.handler = [] ∧ s.gpio.dir = [] ∧ s.gpio.out = []) ∧
    (s.adc.scale = none ∧ s.adc.offset = none ∧ s.adc.lastRawReading = none) ∧
    (s.rot.pulseCount = 0#32 ∧ s.rot.filteredSpeed = 0x0000000000000000#64 ∧ s.rot.lastEdgeTime = 0#32 ∧
      s.rot.previousEdgeTime = 0#32 ∧ s.adc.seq = .idle ∧ s.hist = []) ∧
    step s = .next s

/-- The invariant holds after power-on. -/
def Obligations.PowerOnMeetsTheInvariant : Prop := State.reset.Inv

/-- Every step keeps the invariant, from every state that meets it: canonical maps, 24-bit readings (R16), nothing written
before construct (R91), a legal gain selector (R13), a sound sequencer (R25), an accumulator that never overflows (R27),
operands written (R30), the pulse-timing unit's two states (R150, R155). -/
def Obligations.EveryStepKeepsTheInvariant : Prop := ∀ s t, s.Inv → step s = .next t → t.Inv

/-! ## Refusals -/

/-- R91: an `adc.` command before `adc.construct` is refused with `NotConstructed` and changes nothing. -/
def Obligations.AdcCommandsNeedConstruct : Prop :=
  ∀ i s, i.isAdc = true → (∀ d c g, i ≠ .adcConstruct d c g) → s.task = .idle → s.adc.constructed = false →
    exec i s = .next (refusedWith 1#64 s)

/-- R212: a refused command leaves everything but its response as it was. -/
def Obligations.RefusedCommandsChangeNothing : Prop :=
  ∀ i s t v, i.isCommand = true → s.task = .idle → exec i s = .next t → t.rsp = some ⟨.refused, v⟩ →
    t = { s with rsp := t.rsp }

/-- R90, R223: a second construct is refused with `AlreadyConstructed`, whatever its gain code. R122, R124, R126, R131, R133:
a command that must read an unwritten register is refused with `Unwritten`, after the count. -/
def Obligations.UnwrittenAndSecondConstructAreRefused : Prop :=
  ∀ s, adcReady s →
    (∀ d c g, exec (.adcConstruct d c g) s = .next (refusedWith 2#64 s)) ∧
      (∀ n, n ≠ 0#8 → s.adc.offset = none → exec (.adcGetValue n) s = .next (refusedWith 5#64 s)) ∧
      (∀ n, n ≠ 0#8 → s.adc.offset = none ∨ s.adc.scale = none →
        exec (.adcGetUnits n) s = .next (refusedWith 5#64 s)) ∧
      (s.adc.offset = none ∨ s.adc.scale = none ∨ s.adc.lastRawReading = none →
        exec .adcGetLastUnits s = .next (refusedWith 5#64 s)) ∧
      (s.adc.scale = none → exec .adcGetScale s = .next (refusedWith 5#64 s)) ∧
      (s.adc.offset = none → exec .adcGetOffset s = .next (refusedWith 5#64 s))

/-! ## The ADC unit on the link -/

/-- R90: `adc.construct` on a device that answers: the pins, the flag, the configurations, then all of `adc.setGain`. -/
def Obligations.ConstructCompletes : Prop :=
  ∀ s d c g sel k w rest, s.task = .idle → s.adc.constructed = false → quiet s → gainSelOf g = some sel →
    s.env.levels = frameLevels k w ++ rest → pollsFit s.cfg k →
    exec (.adcConstruct d c g) s = .next (answered 0#64 (afterRead k w rest (afterGainWrite sel (afterConfigure d c s))))

/-- R29, R90: whatever the device and the edges do, a construct that is not refused binds the pins, makes the clock pin an output
and the data pin an input without pull-up, sets the selector, and writes neither scale nor offset. -/
def Obligations.ConstructBindsAndConfiguresThePins : Prop :=
  ∀ s d c g sel, s.task = .idle → s.adc.constructed = false → gainSelOf g = some sel →
    ∃ t, exec (.adcConstruct d c g) s = .next t ∧ t.adc.constructed = true ∧ t.adc.dataPin = d ∧ t.adc.clockPin = c ∧
      t.adc.gainSel = sel ∧ t.adc.scale = s.adc.scale ∧ t.adc.offset = s.adc.offset ∧
      pinGet t.gpio.dir d.toNat = some .input ∧ (c ≠ d → pinGet t.gpio.dir c.toNat = some .output)

/-- R92: `adc.isReady` samples the data pin once and says whether it was LOW; no register, no other pin, changes. -/
def Obligations.IsReadyCompletes : Prop :=
  ∀ s l rest, adcReady s → quiet s → s.env.levels = l :: rest →
    exec .adcIsReady s =
      .next (answered (if l = .low then 1#64 else 0#64)
        { s with hist := s.hist ++ [.rd s.adc.dataPin l], env := { s.env with levels := rest } })

/-- R93: `adc.setGain` writes the selector, drives the clock LOW, and performs one whole read with the new number of pulses,
whose sample stays in `adc.lastRawReading`. -/
def Obligations.SetGainCompletes : Prop :=
  ∀ s g sel k w rest, adcReady s → quiet s → gainSelOf g = some sel → s.env.levels = frameLevels k w ++ rest →
    pollsFit s.cfg k →
    exec (.adcSetGain g) s = .next (answered 0#64 (afterRead k w rest (afterGainWrite sel s)))

/-- R95, R98: `adc.read` leaves exactly the events of the frame, returns and keeps the stored code, and changes nothing else. -/
def Obligations.ReadCompletes : Prop :=
  ∀ s k w rest, adcReady s → quiet s → s.env.levels = frameLevels k w ++ rest → pollsFit s.cfg k →
    exec .adcRead s = .next (answered (unsignedValue (rawWord w)) (afterRead k w rest s))

/-- R104, R105, R106: `adc.powerDown` writes LOW then HIGH and leaves the clock HIGH; `adc.powerUp` writes LOW; no register of the
block changes. -/
def Obligations.PowerCommandsComplete : Prop :=
  ∀ s, adcReady s → quiet s →
    exec .adcPowerDown s =
        .next (answered 0#64
          { s with
            gpio := { s.gpio with out := pinSet s.gpio.out s.adc.clockPin.toNat .high }
            hist := s.hist ++ [.wr s.adc.clockPin .low, .wr s.adc.clockPin .high] }) ∧
      exec .adcPowerUp s =
        .next (answered 0#64 { s with gpio := clockLow s, hist := s.hist ++ [.wr s.adc.clockPin .low] })

/-- R96: on a device that answers only HIGH, and with no bound on the wait, every command that contains a read polls and polls: after
any number `k` of answers it has not responded, the waiting read has not moved the clock, and no register of the spec has changed but
those written before that wait: the pins, flag and selector of `adc.construct` and `adc.setGain`, the samples of a mean so far. -/
def Obligations.ReadWaitsWithoutBound : Prop :=
  ∀ s k, quiet s → s.cfg.readyPollBound = none →
    (adcReady s → s.env.levels = List.replicate k .high →
        exec .adcRead s = .next (waitingFor .single k s) ∧
          ∀ g sel, gainSelOf g = some sel →
            exec (.adcSetGain g) s = .next (waitingFor .dummy k (afterGainWrite sel s))) ∧
      (s.task = .idle → s.adc.constructed = false → s.env.levels = List.replicate k .high →
        ∀ d c g sel, gainSelOf g = some sel →
          exec (.adcConstruct d c g) s = .next (waitingFor .dummy k (afterGainWrite sel (afterConfigure d c s)))) ∧
      (adcReady s → ∀ use n cs, meanOperands use s → cs.length < n.toNat →
        s.env.levels = scriptLevels cs ++ List.replicate k .high →
        exec (meanCommand use n) s = .next (waitingFor (.average n use) k (afterSamples n cs s)))

/-- R97: with the wait bounded by B, a wait whose first B samples are HIGH ends every command that contains it in `FAULT`,
`NeverReady`, after exactly B HIGH samples, with no clock activity from that read and the registers as they stood when the wait began:
the selector already written, or the previous sample of a mean kept. -/
def Obligations.BoundedWaitEndsInFault : Prop :=
  ∀ s b rest, quiet s → 0 < b → s.cfg.readyPollBound = some b →
    (adcReady s → s.env.levels = List.replicate b .high ++ rest →
        exec .adcRead s = .next (neverReadyAfter b rest s) ∧
          ∀ g sel, gainSelOf g = some sel →
            exec (.adcSetGain g) s = .next (neverReadyAfter b rest (afterGainWrite sel s))) ∧
      (s.task = .idle → s.adc.constructed = false → s.env.levels = List.replicate b .high ++ rest →
        ∀ d c g sel, gainSelOf g = some sel →
          exec (.adcConstruct d c g) s = .next (neverReadyAfter b rest (afterGainWrite sel (afterConfigure d c s)))) ∧
      (adcReady s → ∀ use n cs, meanOperands use s → cs.length < n.toNat → (∀ x ∈ cs, x.1 < b) →
        s.env.levels = scriptLevels cs ++ (List.replicate b .high ++ rest) →
        exec (meanCommand use n) s = .next (neverReadyAfter b rest (afterSamples n cs s)))

/-- R96, R222, R226: while a read waits, every edge that is due is handled before the next sample, in order; the next edge not yet due
comes one micro-step nearer, and the read goes on waiting. -/
def Obligations.HandlerRunsWhileAReadWaits : Prop :=
  ∀ s due later, waiting s = true → edgeEnabled s = true → (∀ b, s.cfg.readyPollBound = some b → s.adc.polls + 1 < b) →
    s.env.edges = due ++ later → s.env.edges ≠ [] ∨ s.env.edgesGoOn = false → (∀ e ∈ due, e.after = 0) →
    (∀ e ∈ later.head?, 0 < e.after) → s.env.levels = [.high] →
    ∃ t, step s = .next t ∧ waiting t = true ∧ t.rot = afterTimes (due.map EdgeAt.now) s.rot ∧ t.rsp = s.rsp ∧
      t.hist = s.hist ++ due.map (fun e => .edge e.now) ++ [.rd s.adc.dataPin .high] ∧
      t.env.edges = (later.head?.map fun e => { e with after := e.after - 1 }).toList ++ later.tail

/-- R28, R55, R221, R222: the edges of a step. Of the edges to come, those listed and those that go on past them, a step takes a first
part: it is lost as far as it comes before the attach, and of the rest each gives exactly one `Edge` event, in order, none lost and none
merged; what is not taken is still to come. With no command running or presented a step takes the next listed edge. -/
def Obligations.EveryEdgeIsDeliveredOnceInOrder : Prop :=
  (∀ s t, step s = .next t →
      ∃ k lost held rest es,
        t.env.edgesGoOn = s.env.edgesGoOn ∧ t.env.drawn.edges = s.env.drawn.edges + k ∧
          (s.env.edgesGoOn = false → k = 0) ∧
          s.env.edges ++ drawnEdges s.env.drawn.edges k = lost ++ held ++ rest ∧
          t.env.edges.map EdgeAt.now = rest.map EdgeAt.now ∧ t.env.edges.tail = rest.tail ∧
          t.hist = s.hist ++ es ∧ edgeTimes es = held.map EdgeAt.now ∧ (edgeEnabled s = true → lost = []) ∧
          (edgeEnabled t = false → held = [])) ∧
    ∀ s e rest, s.task = .idle → s.env.cmds = [] → s.env.edges = e :: rest →
      step s = .next (takeEdge e.now { s with env := { s.env with edges := rest } })

/-! ## Averaging and calibration -/

/-- R120: `adc.readAverage n` performs n reads, returns the truncating mean of the stored codes and keeps the mean. -/
def Obligations.ReadAverageCompletes : Prop :=
  ∀ s n cs rest, adcReady s → quiet s → n ≠ 0#8 → scripted n cs rest s →
    exec (.adcReadAverage n) s = .next (answered (unsignedValue (codeMean cs)) (afterMean cs rest s))

/-- R122: `adc.getValue n` returns the mean less the offset, signed. -/
def Obligations.GetValueCompletes : Prop :=
  ∀ s n cs rest o, adcReady s → quiet s → n ≠ 0#8 → scripted n cs rest s → s.adc.offset = some o →
    exec (.adcGetValue n) s = .next (answered (signedValue (codeMean cs - o)) (afterMean cs rest s))

/-- R124: `adc.getUnits n` returns that difference divided by the scale; a zero scale is not refused. -/
def Obligations.GetUnitsCompletes : Prop :=
  ∀ s n cs rest o c, adcReady s → quiet s → n ≠ 0#8 → scripted n cs rest s → s.adc.offset = some o →
    s.adc.scale = some c →
    exec (.adcGetUnits n) s =
      .next (answered (fdiv (f64OfInt (codeMean cs - o).toInt) c) (afterMean cs rest s))

/-- R126: `adc.getLastUnits` converts the reading that is kept; no port call, no register. -/
def Obligations.GetLastUnitsCompletes : Prop :=
  ∀ s o c r, adcReady s → s.adc.offset = some o → s.adc.scale = some c → s.adc.lastRawReading = some r →
    exec .adcGetLastUnits s = .next (answered (fdiv (f64OfInt (r - o).toInt) c) s)

/-- R128: `adc.tare n` makes the mean the offset, and returns it. -/
def Obligations.TareCompletes : Prop :=
  ∀ s n cs rest, adcReady s → quiet s → n ≠ 0#8 → scripted n cs rest s →
    exec (.adcTare n) s =
      .next (answered (signedValue (codeMean cs))
        (let t := afterMean cs rest s; { t with adc := { t.adc with offset := some (codeMean cs) } }))

/-- R130 to R133: the setters store their operand bit for bit, the getters return what is stored; nothing else changes. -/
def Obligations.AccessorsComplete : Prop :=
  ∀ s, adcReady s →
    (∀ v, exec (.adcSetScale v) s = .next (answered 0#64 { s with adc := { s.adc with scale := some v } })) ∧
      (∀ o, exec (.adcSetOffset o) s = .next (answered 0#64 { s with adc := { s.adc with offset := some o } })) ∧
      (∀ v, s.adc.scale = some v → exec .adcGetScale s = .next (answered v s)) ∧
      ∀ o, s.adc.offset = some o → exec .adcGetOffset s = .next (answered (o.signExtend 64) s)

/-- R134: the difference is exact for every stored code unless the offset is below -2130706432. -/
def Obligations.DifferenceIsExactOutsideTheWrapBand : Prop :=
  ∀ (code : Raw) (offset : Offset), code.toNat < 2 ^ 24 → -2130706432 ≤ offset.toInt →
    (difference code offset).toInt = code.toNat - offset.toInt

/-- R27, R134: the sum of a script of at most 255 conversions fits the accumulator, and the mean is a stored code. -/
def Obligations.MeanOfCodesIsACode : Prop :=
  ∀ cs : Script, cs.length ≤ 255 → codeSum cs < 2 ^ 32 ∧ (codeMean cs).toNat < 2 ^ 24

/-- R135: the unit conversion with a zero, NaN or infinite scale, and of a zero difference. -/
def Obligations.ScaleCornersFollowIeee : Prop :=
  ∀ (v : Raw) (c : F64),
    (fIsNaN c = true → fIsNaN (unitsOf v c) = true) ∧
      (fMag c = 0 → v = 0#32 → fIsNaN (unitsOf v c) = true) ∧
      (fMag c = 0 → v ≠ 0#32 → unitsOf v c = fPack (v.msb != fSign c) fInfBits) ∧
      (fIsInf c = true → unitsOf v c = fPack (v.msb != fSign c) 0) ∧
      (fIsFinite c = true → fMag c ≠ 0 → unitsOf 0#32 c = fPack (fSign c) 0)

/-- R9, R135: an integer of magnitude below 2^53 converts exactly. -/
def Obligations.IntegersConvertExactly : Prop :=
  ∀ v : Int, v.natAbs < 2 ^ 53 → fIsFinite (f64OfInt v) = true ∧ fValue (f64OfInt v) = v * 2 ^ 1074

/-- R9, D8: the rounding of every operation, of `n / d` in units of 2^-1074, is to nearest with ties to even: it overflows from half a
last place above the largest finite number on; otherwise no finite magnitude is closer, and where another is as close the pattern chosen
is even. -/
def Obligations.RoundingIsToNearestEven : Prop :=
  ∀ n d : Nat, 0 < d →
    (roundMag n d = fInfBits ↔ (2 ^ 54 - 1) * 2 ^ 2044 * d ≤ n) ∧
      (roundMag n d < fInfBits → ∀ m, m < fInfBits →
        ((fMag (fPack false (roundMag n d)) : Int) * d - n).natAbs ≤ ((fMag (fPack false m) : Int) * d - n).natAbs ∧
          (((fMag (fPack false (roundMag n d)) : Int) * d - n).natAbs = ((fMag (fPack false m) : Int) * d - n).natAbs →
            m ≠ roundMag n d → roundMag n d % 2 = 0))

/-- R9, D8, R135: on finite operands each of the four operations gives the exact result correctly rounded, once, with the sign of IEEE
754: the signs' exclusive or for a product and a quotient, the sign of the exact sum or difference, and +0 for an exact zero sum unless
both terms are negative. -/
def Obligations.ArithmeticIsCorrectlyRounded : Prop :=
  ∀ a b, fIsFinite a = true → fIsFinite b = true →
    roundedTo (fadd a b) (fValue a + fValue b) 1
        (if fValue a + fValue b = 0 then fSign a && fSign b else decide (fValue a + fValue b < 0)) ∧
      roundedTo (fsub a b) (fValue a - fValue b) 1
        (if fValue a - fValue b = 0 then fSign a && !fSign b else decide (fValue a - fValue b < 0)) ∧
      roundedTo (fmul a b) (fValue a * fValue b) (2 ^ 1074) (fSign a != fSign b) ∧
      (fMag b ≠ 0 → roundedTo (fdiv a b) (fValue a * 2 ^ 1074) (fValue b) (fSign a != fSign b))

/-! ## The pulse-timing unit -/

/-- R151: `rot.construct` records the pin while not started, also over an earlier one, and is a silent no-op once running. -/
def Obligations.RotConstructCompletes : Prop :=
  ∀ s p, s.task = .idle →
    (s.rot.started = false →
        exec (.rotConstruct p) s = .next (answered 0#64 { s with rot := { s.rot with pin := some p } })) ∧
      (s.rot.started = true → exec (.rotConstruct p) s = .next (answered 0#64 s))

/-- R153, R154: `rot.start` configures, reads the clock into both timestamps, attaches and flips the flag, in this order, and
returns true; a second start returns false and changes nothing; without a pin it is refused with `NoPin`. With no edge to come in the
first clause; that `gpio.now` keeps the clock's answer is the model's record of R29's state (log 14). -/
def Obligations.RotStartCompletes : Prop :=
  ∀ s, s.task = .idle →
    (∀ p now rest, quiet s → s.rot.started = false → s.rot.pin = some p → s.env.clocks = now :: rest →
        exec .rotStart s =
          .next (answered 1#64
            { s with
              rot := { s.rot with started := true, lastEdgeTime := now, previousEdgeTime := now }
              gpio := { s.gpio with
                dir := pinSet s.gpio.dir p.toNat .inputPullup, handler := pinSet s.gpio.handler p.toNat .edge, now := now }
              hist := s.hist ++ [.cfgIn p true, .now now, .attach p], env := { s.env with clocks := rest } })) ∧
      (s.rot.started = true → exec .rotStart s = .next (answered 0#64 s)) ∧
      (s.rot.started = false → s.rot.pin = none → exec .rotStart s = .next (refusedWith 7#64 s))

/-- R55, R155: edges during `rot.start`. The micro-steps are configure, clock read, attach, flip: edges due before one of the first
three are lost without trace, those due between the attach and the flip are handled, with both timestamps already valid; the start
returns true all the same. That `gpio.now` keeps the clock value last read is the model's record of R29's state (log 14). -/
def Obligations.StartLosesEarlyEdgesAndHandlesLaterOnes : Prop :=
  ∀ s p now rest lost held, s.task = .idle → s.rot.started = false → s.rot.pin = some p → edgeEnabled s = false →
    s.env.clocks = now :: rest → s.env.edgesGoOn = false → s.env.edges = lost ++ held →
    (lost.map EdgeAt.after).sum ≤ 2 → (∀ e ∈ held.head?, (lost.map EdgeAt.after).sum + e.after = 3) →
    (∀ e ∈ held.tail, e.after = 0) →
    exec .rotStart s =
      .next (answered 1#64
        { s with
          rot := { afterTimes (held.map EdgeAt.now) { s.rot with lastEdgeTime := now, previousEdgeTime := now } with
            started := true }
          gpio := { s.gpio with
            dir := pinSet s.gpio.dir p.toNat .inputPullup, handler := pinSet s.gpio.handler p.toNat .edge
            now := (held.getLast?.map EdgeAt.now).getD now }
          hist := s.hist ++ [.cfgIn p true, .now now, .attach p] ++ held.map (fun e => .edge e.now)
          env := { s.env with clocks := rest, edges := [] } })

/-- R166, R167, R168: with no edge to come a getter returns its register, whether reads are atomic or not and whatever the order of
the bytes; it changes nothing, touches no port and leaves no event. -/
def Obligations.GettersReturnTheirRegister : Prop :=
  ∀ s, s.task = .idle → quiet s →
    (∃ ps, exec .rotGetSpeed s = .next (answered s.rot.filteredSpeed { s with env := { s.env with picks := ps } })) ∧
      ∃ ps, exec .rotGetRotates s =
        .next (answered (s.rot.pulseCount.setWidth 64) { s with env := { s.env with picks := ps } })

/-- R168, U10: whatever edges arrive, a getter answers, leaving the `Edge` events `es` of the edges delivered during the read and no
other event; each byte of its value is that byte of a value the register held, after the first `j` of those edges; with `ATOMIC_READS`
true the whole value is one such value. No edge is delivered while the handler is not attached. -/
def Obligations.TornReadsMixHeldValues : Prop :=
  ∀ s, s.task = .idle →
    (∃ t v es, exec .rotGetSpeed s = .next t ∧ t.rsp = some ⟨.ok, v⟩ ∧ t.hist = s.hist ++ es ∧
        (∀ e ∈ es, isEdgeEvent e = true) ∧ (edgeEnabled s = false → es = []) ∧
        t.rot = afterTimes (edgeTimes es) s.rot ∧
        (∀ k, k < 8 → ∃ j, j ≤ es.length ∧
          byteOf v k = byteOf (afterTimes ((edgeTimes es).take j) s.rot).filteredSpeed k) ∧
        (s.cfg.atomicReads = true → ∃ j, j ≤ es.length ∧ v = (afterTimes ((edgeTimes es).take j) s.rot).filteredSpeed)) ∧
      ∃ t v es, exec .rotGetRotates s = .next t ∧ t.rsp = some ⟨.ok, v⟩ ∧ t.hist = s.hist ++ es ∧
        (∀ e ∈ es, isEdgeEvent e = true) ∧ (edgeEnabled s = false → es = []) ∧
        t.rot = afterTimes (edgeTimes es) s.rot ∧ v.toNat < 2 ^ 32 ∧
        (∀ k, k < 4 → ∃ j, j ≤ es.length ∧
          byteOf v k = byteOf ((afterTimes ((edgeTimes es).take j) s.rot).pulseCount.setWidth 64) k) ∧
        (s.cfg.atomicReads = true → ∃ j, j ≤ es.length ∧
          v = (afterTimes ((edgeTimes es).take j) s.rot).pulseCount.setWidth 64)

/-- R160, R161, R162: an edge before the attach is lost; an edge in the millisecond of the last accepted one leaves only its event;
any other adds one to the counter modulo 2^32, shifts the timestamps and folds the speed. No other register changes. -/
def Obligations.EdgeHandlerWritesAllOrNothing : Prop :=
  ∀ s now,
    (edgeEnabled s = false → exec (.rotEdge now) s = .next s) ∧
      (edgeEnabled s = true → now = s.rot.lastEdgeTime →
        exec (.rotEdge now) s = .next { s with hist := s.hist ++ [.edge now], gpio := { s.gpio with now := now } }) ∧
      (edgeEnabled s = true → now ≠ s.rot.lastEdgeTime →
        exec (.rotEdge now) s =
          .next
            { s with
              hist := s.hist ++ [.edge now], gpio := { s.gpio with now := now }
              rot := { s.rot with
                pulseCount := s.rot.pulseCount + 1#32, previousEdgeTime := s.rot.lastEdgeTime, lastEdgeTime := now
                filteredSpeed :=
                  lowpass (fdiv 0x40ED4C0000000000#64 (f64OfInt ((now - s.rot.lastEdgeTime).toNat : Int)))
                    s.rot.filteredSpeed
                    (fdiv (f64OfInt ((now - s.rot.lastEdgeTime).toNat : Int)) 0x408F400000000000#64)
                    0x4000000000000000#64 } })

/-- R164: with two seconds between accepted edges the speed becomes 30.0 whatever finite value it had. -/
def Obligations.TwoSecondGapForgetsTheOldSpeed : Prop :=
  ∀ p : F64, fIsFinite p = true → foldSpeed 2000#32 p = 0x403E000000000000#64

/-- R200: the filter returns its new sample when the interval is the time constant, for finite arguments. -/
def Obligations.LowpassAtTheTimeConstantIsTheSample : Prop :=
  ∀ x prev T : F64, fIsFinite x = true → fMag x ≠ 0 → fIsFinite prev = true → fIsFinite T = true → fMag T ≠ 0 →
    lowpass x prev T T = x

/-- R163: the instantaneous speed of an accepted edge is finite, positive, not zero, and at most 60000.0. -/
def Obligations.InstantSpeedIsBounded : Prop :=
  ∀ dt : Time, accepts dt = true →
    fIsFinite (instantSpeed dt) = true ∧ fSign (instantSpeed dt) = false ∧ 0 < fMag (instantSpeed dt) ∧
      fMag (instantSpeed dt) ≤ fMag 0x40ED4C0000000000#64

/-! ## The gain-code rows -/

/-- R62 with log 11, the model's choice: an operand row selects its number of pulses into the local `g` of R93, and changes no
register of the spec. -/
def Obligations.GainRowsSelectTheirPulses : Prop :=
  ∀ s, s.task = .idle →
    exec .gainCode128 s = .next { s with adc := { s.adc with gainArg := 1#2 } } ∧
      exec .gainCode64 s = .next { s with adc := { s.adc with gainArg := 3#2 } } ∧
      exec .gainCode32 s = .next { s with adc := { s.adc with gainArg := 2#2 } }

/-! ## Rules of the whole machine -/

/-- R10, R32, R225: the commands and the event of the pulse-timing unit leave the ADC unit and every pin's level as they were,
whatever edges arrive; an `adc.` command leaves the pulse-timing unit and the handler as they were, when none arrives. -/
def Obligations.TheUnitsShareNothing : Prop :=
  ∀ i s t, exec i s = .next t →
    (i = .rotStart ∨ i = .rotGetSpeed ∨ i = .rotGetRotates ∨ (∃ p, i = .rotConstruct p) ∨ (∃ now, i = .rotEdge now) →
        t.adc = s.adc ∧ t.gpio.out = s.gpio.out ∧ t.cfg = s.cfg) ∧
      (i.isAdc = true → quiet s → t.rot = s.rot ∧ t.gpio.handler = s.gpio.handler ∧ t.gpio.now = s.gpio.now ∧ t.cfg = s.cfg)

/-- R21, R225: over every step, from every state, the counter and the filtered speed change only if an edge was delivered. -/
def Obligations.OnlyTheHandlerMutatesCounterAndSpeed : Prop :=
  ∀ s t, step s = .next t → edgeEvents t.hist = edgeEvents s.hist →
    t.rot.pulseCount = s.rot.pulseCount ∧ t.rot.filteredSpeed = s.rot.filteredSpeed

/-- R41: the history only grows. -/
def Obligations.HistoryOnlyGrows : Prop := ∀ s t, step s = .next t → ∃ es, t.hist = s.hist ++ es

/-- R11, R12, R17, R18, R150: once constructed the ADC unit stays so, with its two pins; once started the pulse-timing unit stays so,
with its pin; the parameters never change. -/
def Obligations.LifecyclesNeverGoBack : Prop :=
  ∀ s t, step s = .next t →
    (s.adc.constructed = true →
        t.adc.constructed = true ∧ t.adc.clockPin = s.adc.clockPin ∧ t.adc.dataPin = s.adc.dataPin) ∧
      (s.rot.started = true → t.rot.started = true ∧ t.rot.pin = s.rot.pin) ∧ t.cfg = s.cfg

/-- R40: over every step the block writes no pin but `adc.clockPin` and reads no pin but `adc.dataPin`. -/
def Obligations.OnlyTheClockIsWrittenAndTheDataRead : Prop :=
  ∀ s t es, step s = .next t → t.hist = s.hist ++ es →
    ∀ e ∈ es, (∀ p l, e = .wr p l → p = t.adc.clockPin) ∧ ∀ p l, e = .rd p l → p = t.adc.dataPin

/-- R98, R99, R227, for the run of one command: issued with any edges to come and with none, a command of the ADC unit comes to the same
registers, the same response, the same progress and the same main-line events. -/
def Obligations.EdgesDoNotDisturbTheAdcUnit : Prop :=
  ∀ i s t u, i.isAdc = true → exec i s = .next t →
    exec i { s with env := { s.env with edges := [], edgesGoOn := false } } = .next u →
    t.adc = u.adc ∧ t.rsp = u.rsp ∧ t.task = u.task ∧ t.gpio.out = u.gpio.out ∧ t.gpio.dir = u.gpio.dir ∧
      mainEvents t.hist = mainEvents u.hist ∧ t.env.levels = u.env.levels

/-- R98, R99, R227, for every step: two states alike on the ADC side, whatever edges are to come in each and whatever the handler has
written, step to two states alike on the ADC side, a command that waits included; and unless the step runs a getter of the pulse-timing
unit, equal responses stay equal. -/
def Obligations.EveryStepKeepsTheAdcSidesAlike : Prop :=
  ∀ s u t v, AdcSideAlike s u → step s = .next t → step u = .next v →
    AdcSideAlike t v ∧ (readsShared s = false → s.rsp = u.rsp → t.rsp = v.rsp)

/-! ## The surrounding software, outside the block -/

/-- R182, R183: save always answers true, and where the record lies in the storage a saved pair loads back bit for bit, whatever the
storage held and whatever its size (log 22). -/
def Obligations.LoadAfterSaveReturnsThePair : Prop :=
  ∀ scale offset m, (saveRecord scale offset m).1 = true ∧
    (Config.nvBase + 16 ≤ m.size → loadRecord (saveRecord scale offset m).2 = some (scale, offset))

/-- R187: a buffer with its checksum appended verifies; with any one byte of its payload replaced by another, or its checksum
replaced by any other word, it does not: in particular no single flipped bit goes undetected. -/
def Obligations.ChecksumVerifiesAndCatchesFlips : Prop :=
  (∀ bs, verifyChecksum (withChecksum bs) = true) ∧
    (∀ (bs cs : List (BitVec 8)) (b b' : BitVec 8), b' ≠ b →
      verifyChecksum (bs ++ b' :: cs ++ wordBytes (crc32 (bs ++ b :: cs))) = false) ∧
    ∀ bs (v : Word), v ≠ crc32 bs → verifyChecksum (bs ++ wordBytes v) = false
end

