-- ==== Sys2Proof/Laws/State.lean ====
section
/-! SUPPORT. One lemma per field per named update of State, each true by definition, so that no proof unfolds an update. -/

namespace Sys2Proof.Laws

open Sys2Proof.Machine

@[simp] theorem record_adc (e : Event) (s : State) : (record e s).adc = s.adc := rfl
@[simp] theorem record_rot (e : Event) (s : State) : (record e s).rot = s.rot := rfl
@[simp] theorem record_gpio (e : Event) (s : State) : (record e s).gpio = s.gpio := rfl
@[simp] theorem record_hist (e : Event) (s : State) : (record e s).hist = s.hist ++ [e] := rfl
@[simp] theorem record_task (e : Event) (s : State) : (record e s).task = s.task := rfl
@[simp] theorem record_rsp (e : Event) (s : State) : (record e s).rsp = s.rsp := rfl
@[simp] theorem record_env (e : Event) (s : State) : (record e s).env = s.env := rfl
@[simp] theorem record_cfg (e : Event) (s : State) : (record e s).cfg = s.cfg := rfl

@[simp] theorem pinConfigOutput_adc (p : Pin) (s : State) : (pinConfigOutput p s).adc = s.adc := rfl
@[simp] theorem pinConfigOutput_rot (p : Pin) (s : State) : (pinConfigOutput p s).rot = s.rot := rfl
@[simp] theorem pinConfigOutput_gpio (p : Pin) (s : State) : (pinConfigOutput p s).gpio = { s.gpio with dir := pinSet s.gpio.dir p.toNat .output } := rfl
@[simp] theorem pinConfigOutput_hist (p : Pin) (s : State) : (pinConfigOutput p s).hist = s.hist ++ [.cfgOut p] := rfl
@[simp] theorem pinConfigOutput_task (p : Pin) (s : State) : (pinConfigOutput p s).task = s.task := rfl
@[simp] theorem pinConfigOutput_rsp (p : Pin) (s : State) : (pinConfigOutput p s).rsp = s.rsp := rfl
@[simp] theorem pinConfigOutput_env (p : Pin) (s : State) : (pinConfigOutput p s).env = s.env := rfl
@[simp] theorem pinConfigOutput_cfg (p : Pin) (s : State) : (pinConfigOutput p s).cfg = s.cfg := rfl

@[simp] theorem pinConfigInput_adc (p : Pin) (b : Bool) (s : State) : (pinConfigInput p b s).adc = s.adc := rfl
@[simp] theorem pinConfigInput_rot (p : Pin) (b : Bool) (s : State) : (pinConfigInput p b s).rot = s.rot := rfl
@[simp] theorem pinConfigInput_gpio (p : Pin) (b : Bool) (s : State) : (pinConfigInput p b s).gpio = { s.gpio with dir := pinSet s.gpio.dir p.toNat (if b then .inputPullup else .input) } := rfl
@[simp] theorem pinConfigInput_hist (p : Pin) (b : Bool) (s : State) : (pinConfigInput p b s).hist = s.hist ++ [.cfgIn p b] := rfl
@[simp] theorem pinConfigInput_task (p : Pin) (b : Bool) (s : State) : (pinConfigInput p b s).task = s.task := rfl
@[simp] theorem pinConfigInput_rsp (p : Pin) (b : Bool) (s : State) : (pinConfigInput p b s).rsp = s.rsp := rfl
@[simp] theorem pinConfigInput_env (p : Pin) (b : Bool) (s : State) : (pinConfigInput p b s).env = s.env := rfl
@[simp] theorem pinConfigInput_cfg (p : Pin) (b : Bool) (s : State) : (pinConfigInput p b s).cfg = s.cfg := rfl

@[simp] theorem pinWrite_adc (p : Pin) (l : Level) (s : State) : (pinWrite p l s).adc = s.adc := rfl
@[simp] theorem pinWrite_rot (p : Pin) (l : Level) (s : State) : (pinWrite p l s).rot = s.rot := rfl
@[simp] theorem pinWrite_gpio (p : Pin) (l : Level) (s : State) : (pinWrite p l s).gpio = { s.gpio with out := pinSet s.gpio.out p.toNat l } := rfl
@[simp] theorem pinWrite_hist (p : Pin) (l : Level) (s : State) : (pinWrite p l s).hist = s.hist ++ [.wr p l] := rfl
@[simp] theorem pinWrite_task (p : Pin) (l : Level) (s : State) : (pinWrite p l s).task = s.task := rfl
@[simp] theorem pinWrite_rsp (p : Pin) (l : Level) (s : State) : (pinWrite p l s).rsp = s.rsp := rfl
@[simp] theorem pinWrite_env (p : Pin) (l : Level) (s : State) : (pinWrite p l s).env = s.env := rfl
@[simp] theorem pinWrite_cfg (p : Pin) (l : Level) (s : State) : (pinWrite p l s).cfg = s.cfg := rfl

@[simp] theorem pinRead_adc (p : Pin) (l : Level) (s : State) : (pinRead p l s).adc = s.adc := rfl
@[simp] theorem pinRead_rot (p : Pin) (l : Level) (s : State) : (pinRead p l s).rot = s.rot := rfl
@[simp] theorem pinRead_gpio (p : Pin) (l : Level) (s : State) : (pinRead p l s).gpio = s.gpio := rfl
@[simp] theorem pinRead_hist (p : Pin) (l : Level) (s : State) : (pinRead p l s).hist = s.hist ++ [.rd p l] := rfl
@[simp] theorem pinRead_task (p : Pin) (l : Level) (s : State) : (pinRead p l s).task = s.task := rfl
@[simp] theorem pinRead_rsp (p : Pin) (l : Level) (s : State) : (pinRead p l s).rsp = s.rsp := rfl
@[simp] theorem pinRead_env (p : Pin) (l : Level) (s : State) : (pinRead p l s).env = s.env := rfl
@[simp] theorem pinRead_cfg (p : Pin) (l : Level) (s : State) : (pinRead p l s).cfg = s.cfg := rfl

@[simp] theorem attachFalling_adc (p : Pin) (s : State) : (attachFalling p s).adc = s.adc := rfl
@[simp] theorem attachFalling_rot (p : Pin) (s : State) : (attachFalling p s).rot = s.rot := rfl
@[simp] theorem attachFalling_gpio (p : Pin) (s : State) : (attachFalling p s).gpio = { s.gpio with handler := pinSet s.gpio.handler p.toNat .edge } := rfl
@[simp] theorem attachFalling_hist (p : Pin) (s : State) : (attachFalling p s).hist = s.hist ++ [.attach p] := rfl
@[simp] theorem attachFalling_task (p : Pin) (s : State) : (attachFalling p s).task = s.task := rfl
@[simp] theorem attachFalling_rsp (p : Pin) (s : State) : (attachFalling p s).rsp = s.rsp := rfl
@[simp] theorem attachFalling_env (p : Pin) (s : State) : (attachFalling p s).env = s.env := rfl
@[simp] theorem attachFalling_cfg (p : Pin) (s : State) : (attachFalling p s).cfg = s.cfg := rfl

@[simp] theorem nowMillis_adc (t : Time) (s : State) : (nowMillis t s).adc = s.adc := rfl
@[simp] theorem nowMillis_rot (t : Time) (s : State) : (nowMillis t s).rot = s.rot := rfl
@[simp] theorem nowMillis_gpio (t : Time) (s : State) : (nowMillis t s).gpio = { s.gpio with now := t } := rfl
@[simp] theorem nowMillis_hist (t : Time) (s : State) : (nowMillis t s).hist = s.hist ++ [.now t] := rfl
@[simp] theorem nowMillis_task (t : Time) (s : State) : (nowMillis t s).task = s.task := rfl
@[simp] theorem nowMillis_rsp (t : Time) (s : State) : (nowMillis t s).rsp = s.rsp := rfl
@[simp] theorem nowMillis_env (t : Time) (s : State) : (nowMillis t s).env = s.env := rfl
@[simp] theorem nowMillis_cfg (t : Time) (s : State) : (nowMillis t s).cfg = s.cfg := rfl

@[simp] theorem respond_adc (r : Response) (s : State) : (respond r s).adc = s.adc := rfl
@[simp] theorem respond_rot (r : Response) (s : State) : (respond r s).rot = s.rot := rfl
@[simp] theorem respond_gpio (r : Response) (s : State) : (respond r s).gpio = s.gpio := rfl
@[simp] theorem respond_hist (r : Response) (s : State) : (respond r s).hist = s.hist := rfl
@[simp] theorem respond_task (r : Response) (s : State) : (respond r s).task = .idle := rfl
@[simp] theorem respond_rsp (r : Response) (s : State) : (respond r s).rsp = some r := rfl
@[simp] theorem respond_env (r : Response) (s : State) : (respond r s).env = s.env := rfl
@[simp] theorem respond_cfg (r : Response) (s : State) : (respond r s).cfg = s.cfg := rfl

@[simp] theorem finish_adc (v : BitVec 64) (s : State) : (finish v s).adc = s.adc := rfl
@[simp] theorem finish_rot (v : BitVec 64) (s : State) : (finish v s).rot = s.rot := rfl
@[simp] theorem finish_gpio (v : BitVec 64) (s : State) : (finish v s).gpio = s.gpio := rfl
@[simp] theorem finish_hist (v : BitVec 64) (s : State) : (finish v s).hist = s.hist := rfl
@[simp] theorem finish_task (v : BitVec 64) (s : State) : (finish v s).task = .idle := rfl
@[simp] theorem finish_rsp (v : BitVec 64) (s : State) : (finish v s).rsp = some { status := .ok, value := v } := rfl
@[simp] theorem finish_env (v : BitVec 64) (s : State) : (finish v s).env = s.env := rfl
@[simp] theorem finish_cfg (v : BitVec 64) (s : State) : (finish v s).cfg = s.cfg := rfl

@[simp] theorem refuse_adc (r : Reason) (s : State) : (refuse r s).adc = s.adc := rfl
@[simp] theorem refuse_rot (r : Reason) (s : State) : (refuse r s).rot = s.rot := rfl
@[simp] theorem refuse_gpio (r : Reason) (s : State) : (refuse r s).gpio = s.gpio := rfl
@[simp] theorem refuse_hist (r : Reason) (s : State) : (refuse r s).hist = s.hist := rfl
@[simp] theorem refuse_task (r : Reason) (s : State) : (refuse r s).task = s.task := rfl
@[simp] theorem refuse_rsp (r : Reason) (s : State) : (refuse r s).rsp = some { status := .refused, value := reasonCode r } := rfl
@[simp] theorem refuse_env (r : Reason) (s : State) : (refuse r s).env = s.env := rfl
@[simp] theorem refuse_cfg (r : Reason) (s : State) : (refuse r s).cfg = s.cfg := rfl

@[simp] theorem abandon_adc (r : Reason) (s : State) : (abandon r s).adc = s.adc := rfl
@[simp] theorem abandon_rot (r : Reason) (s : State) : (abandon r s).rot = s.rot := rfl
@[simp] theorem abandon_gpio (r : Reason) (s : State) : (abandon r s).gpio = s.gpio := rfl
@[simp] theorem abandon_hist (r : Reason) (s : State) : (abandon r s).hist = s.hist := rfl
@[simp] theorem abandon_task (r : Reason) (s : State) : (abandon r s).task = .idle := rfl
@[simp] theorem abandon_rsp (r : Reason) (s : State) : (abandon r s).rsp = some { status := .refused, value := reasonCode r } := rfl
@[simp] theorem abandon_env (r : Reason) (s : State) : (abandon r s).env = s.env := rfl
@[simp] theorem abandon_cfg (r : Reason) (s : State) : (abandon r s).cfg = s.cfg := rfl

@[simp] theorem neverReady_adc (s : State) : (neverReady s).adc = { s.adc with seq := .idle } := rfl
@[simp] theorem neverReady_rot (s : State) : (neverReady s).rot = s.rot := rfl
@[simp] theorem neverReady_gpio (s : State) : (neverReady s).gpio = s.gpio := rfl
@[simp] theorem neverReady_hist (s : State) : (neverReady s).hist = s.hist := rfl
@[simp] theorem neverReady_task (s : State) : (neverReady s).task = .idle := rfl
@[simp] theorem neverReady_rsp (s : State) : (neverReady s).rsp = some { status := .fault, value := reasonCode .neverReady } := rfl
@[simp] theorem neverReady_env (s : State) : (neverReady s).env = s.env := rfl
@[simp] theorem neverReady_cfg (s : State) : (neverReady s).cfg = s.cfg := rfl

@[simp] theorem setSeq_adc (q : Seq) (s : State) : (setSeq q s).adc = { s.adc with seq := q } := rfl
@[simp] theorem setSeq_rot (q : Seq) (s : State) : (setSeq q s).rot = s.rot := rfl
@[simp] theorem setSeq_gpio (q : Seq) (s : State) : (setSeq q s).gpio = s.gpio := rfl
@[simp] theorem setSeq_hist (q : Seq) (s : State) : (setSeq q s).hist = s.hist := rfl
@[simp] theorem setSeq_task (q : Seq) (s : State) : (setSeq q s).task = s.task := rfl
@[simp] theorem setSeq_rsp (q : Seq) (s : State) : (setSeq q s).rsp = s.rsp := rfl
@[simp] theorem setSeq_env (q : Seq) (s : State) : (setSeq q s).env = s.env := rfl
@[simp] theorem setSeq_cfg (q : Seq) (s : State) : (setSeq q s).cfg = s.cfg := rfl

@[simp] theorem enterWait_adc (s : State) : (enterWait s).adc = { s.adc with seq := .wait, polls := 0 } := rfl
@[simp] theorem enterWait_rot (s : State) : (enterWait s).rot = s.rot := rfl
@[simp] theorem enterWait_gpio (s : State) : (enterWait s).gpio = s.gpio := rfl
@[simp] theorem enterWait_hist (s : State) : (enterWait s).hist = s.hist := rfl
@[simp] theorem enterWait_task (s : State) : (enterWait s).task = s.task := rfl
@[simp] theorem enterWait_rsp (s : State) : (enterWait s).rsp = s.rsp := rfl
@[simp] theorem enterWait_env (s : State) : (enterWait s).env = s.env := rfl
@[simp] theorem enterWait_cfg (s : State) : (enterWait s).cfg = s.cfg := rfl

@[simp] theorem selectGain_adc (g : GainSel) (s : State) : (selectGain g s).adc = { s.adc with gainArg := g } := rfl
@[simp] theorem selectGain_rot (g : GainSel) (s : State) : (selectGain g s).rot = s.rot := rfl
@[simp] theorem selectGain_gpio (g : GainSel) (s : State) : (selectGain g s).gpio = s.gpio := rfl
@[simp] theorem selectGain_hist (g : GainSel) (s : State) : (selectGain g s).hist = s.hist := rfl
@[simp] theorem selectGain_task (g : GainSel) (s : State) : (selectGain g s).task = s.task := rfl
@[simp] theorem selectGain_rsp (g : GainSel) (s : State) : (selectGain g s).rsp = s.rsp := rfl
@[simp] theorem selectGain_env (g : GainSel) (s : State) : (selectGain g s).env = s.env := rfl
@[simp] theorem selectGain_cfg (g : GainSel) (s : State) : (selectGain g s).cfg = s.cfg := rfl

@[simp] theorem edgeReturn_adc (s : State) : (edgeReturn s).adc = s.adc := rfl
@[simp] theorem edgeReturn_rot (s : State) : (edgeReturn s).rot = s.rot := rfl
@[simp] theorem edgeReturn_gpio (s : State) : (edgeReturn s).gpio = s.gpio := rfl
@[simp] theorem edgeReturn_hist (s : State) : (edgeReturn s).hist = s.hist := rfl
@[simp] theorem edgeReturn_task (s : State) : (edgeReturn s).task = s.task := rfl
@[simp] theorem edgeReturn_rsp (s : State) : (edgeReturn s).rsp = s.rsp := rfl
@[simp] theorem edgeReturn_env (s : State) : (edgeReturn s).env = s.env := rfl
@[simp] theorem edgeReturn_cfg (s : State) : (edgeReturn s).cfg = s.cfg := rfl

@[simp] theorem present_adc (p : Presented) (s : State) : (present p s).adc = { s.adc with seq := .idle } := rfl
@[simp] theorem present_rot (p : Presented) (s : State) : (present p s).rot = s.rot := rfl
@[simp] theorem present_gpio (p : Presented) (s : State) : (present p s).gpio = s.gpio := rfl
@[simp] theorem present_hist (p : Presented) (s : State) : (present p s).hist = s.hist := rfl
@[simp] theorem present_task (p : Presented) (s : State) : (present p s).task = .idle := rfl
@[simp] theorem present_rsp (p : Presented) (s : State) : (present p s).rsp = s.rsp := rfl
@[simp] theorem present_env (p : Presented) (s : State) : (present p s).env = { s.env with cmds := p :: s.env.cmds } := rfl
@[simp] theorem present_cfg (p : Presented) (s : State) : (present p s).cfg = s.cfg := rfl

end Sys2Proof.Laws
end

