-- ==== Sys2Proof/Laws/PinMaps.lean ====
section
/-! SUPPORT. The laws of pin maps: read after write, other pins untouched, writes to one pin collapse, and every write keeps the
canonical form. -/

namespace Sys2Proof.Laws

open Sys2Proof.Machine

variable {α : Type}

@[simp] theorem pinGet_pinSet_same (m : PinMap α) (p : Nat) (a : α) : pinGet (pinSet m p a) p = some a := by
  induction m with
  | nil => simp [pinSet, pinGet]
  | cons x rest ih =>
    obtain ⟨q, b⟩ := x
    unfold pinSet
    split
    · simp [pinGet]
    · split
      · simp [pinGet]
      · simp [pinGet, *]

theorem pinGet_pinSet_other (m : PinMap α) {p q : Nat} (a : α) (h : q ≠ p) : pinGet (pinSet m p a) q = pinGet m q := by
  induction m with
  | nil => simp [pinSet, pinGet, h]
  | cons x rest ih =>
    obtain ⟨r, b⟩ := x
    unfold pinSet
    split
    · simp [pinGet, h]
    · split
      · rename_i hpr
        subst hpr
        simp [pinGet, h]
      · simp [pinGet, ih]

@[simp] theorem pinSet_pinSet_same (m : PinMap α) (p : Nat) (a b : α) : pinSet (pinSet m p a) p b = pinSet m p b := by
  induction m with
  | nil => simp [pinSet]
  | cons x rest ih =>
    obtain ⟨q, c⟩ := x
    by_cases h1 : p < q
    · simp [pinSet, h1]
    · by_cases h2 : p = q
      · simp [pinSet, h2]
      · simp [pinSet, h1, h2, ih]

theorem pinsFrom_mono (m : PinMap α) {lo hi : Nat} (h : lo ≤ hi) (hm : pinsFrom hi m = true) : pinsFrom lo m = true := by
  cases m with
  | nil => rfl
  | cons x rest =>
    obtain ⟨q, b⟩ := x
    simp only [pinsFrom, Bool.and_eq_true, decide_eq_true_eq] at hm ⊢
    exact ⟨by omega, hm.2⟩

theorem pinSet_pinsFrom (m : PinMap α) (p : Nat) (a : α) :
    ∀ lo, lo ≤ p → pinsFrom lo m = true → pinsFrom lo (pinSet m p a) = true := by
  induction m with
  | nil => intro lo h _; simp [pinSet, pinsFrom, h]
  | cons x rest ih =>
    obtain ⟨q, b⟩ := x
    intro lo h hm
    simp only [pinsFrom, Bool.and_eq_true, decide_eq_true_eq] at hm
    unfold pinSet
    split
    · simp only [pinsFrom, Bool.and_eq_true, decide_eq_true_eq]
      exact ⟨h, by omega, hm.2⟩
    · split
      · rename_i hpq
        subst hpq
        simp only [pinsFrom, Bool.and_eq_true, decide_eq_true_eq]
        exact ⟨h, hm.2⟩
      · simp only [pinsFrom, Bool.and_eq_true, decide_eq_true_eq]
        exact ⟨hm.1, ih _ (by omega) hm.2⟩

theorem pinSet_pinsRising (m : PinMap α) (p : Nat) (a : α) (h : pinsRising m = true) : pinsRising (pinSet m p a) = true :=
  pinSet_pinsFrom m p a 0 (Nat.zero_le p) h

end Sys2Proof.Laws
end

