-- ==== Sys2Proof/Laws/Sequencer.lean ====
section
/-! SUPPORT. What running a command does, said once. A running command makes turns; a turn is edges, one micro-step and a count.
So a property kept by the handler, by a micro-step and by every change of the environment's queues is kept by a run, and
`step_cases` says what a step can be. -/

namespace Sys2Proof.Laws

open Sys2Proof.Machine

/-! ## Keeping a property -/

/-- A property kept by taking an edge and by any change of the environment's queues is kept by the deliveries of a turn. -/
theorem deliver_keeps {P : State → Prop} (hedge : ∀ t s, P s → P (takeEdge t s))
    (henv : ∀ e s, P s → P { s with env := e }) : ∀ es s, P s → P (deliver es s)
  | [], s, h => henv _ s h
  | ⟨0, t⟩ :: rest, s, h => deliver_keeps hedge henv rest _ (hedge t s h)
  | ⟨_ + 1, _⟩ :: _, s, h => henv _ s h

theorem countDown_keeps {P : State → Prop} (henv : ∀ e s, P s → P { s with env := e }) {s : State} (h : P s) :
    P (countDown s) := by
  unfold countDown
  split
  · exact h
  · exact henv _ s h

theorem moreEdges_keeps {P : State → Prop} (henv : ∀ e s, P s → P { s with env := e }) {s : State} (h : P s) :
    P (moreEdges s) := by
  unfold moreEdges
  split
  · exact henv _ s h
  · exact h

theorem turn_keeps {P : State → Prop} (hedge : ∀ t s, P s → P (takeEdge t s))
    (hmicro : ∀ l t s, P s → P (microStep l t s)) (henv : ∀ e s, P s → P { s with env := e }) {s : State}
    (l : Level) (t : Time) (h : P s) : P (turn l t s) :=
  countDown_keeps henv (hmicro l t _ (deliver_keeps hedge henv _ _ (moreEdges_keeps henv h)))

/-- A property kept by every turn is kept by settling. -/
theorem settle_keeps_of_turn {P : State → Prop} (hturn : ∀ l t s, P s → P (turn l t s))
    (henv : ∀ e s, P s → P { s with env := e }) : ∀ n s, P s → P (settle n s)
  | 0, s, h => h
  | n + 1, s, h => by
    unfold settle
    split
    · exact h
    · exact h
    · exact settle_keeps_of_turn hturn henv n _ (hturn _ _ _ h)
    · split
      · exact h
      · refine settle_keeps_of_turn hturn henv n _ ?_
        unfold clockTurn
        split
        · exact h
        · exact hturn _ _ _ (henv _ _ h)

theorem runSamples_keeps_of_turn {P : State → Prop} (hturn : ∀ l t s, P s → P (turn l t s))
    (henv : ∀ e s, P s → P { s with env := e }) : ∀ n s, P s → P (runSamples n s)
  | 0, s, h => settle_keeps_of_turn hturn henv _ s h
  | n + 1, s, h => by
    have hs := settle_keeps_of_turn hturn henv settleBound s h
    unfold runSamples
    simp only
    split
    · refine runSamples_keeps_of_turn hturn henv n _ ?_
      unfold levelTurn
      split
      · exact hs
      · exact hturn _ _ _ (henv _ _ hs)
    all_goals exact hs

theorem supply_keeps {P : State → Prop} (henv : ∀ e s, P s → P { s with env := e }) {s : State} (h : P s) :
    P (supply s) := by
  unfold supply
  split
  · split
    · exact henv _ s h
    · exact h
  · split
    · exact henv _ s h
    · exact h
  · exact h
  · exact h

theorem runCommand_keeps {P : State → Prop} (hedge : ∀ t s, P s → P (takeEdge t s))
    (hmicro : ∀ l t s, P s → P (microStep l t s)) (henv : ∀ e s, P s → P { s with env := e }) {s : State} (h : P s) :
    P (runCommand s) :=
  runSamples_keeps_of_turn (fun l t _ h => turn_keeps hedge hmicro henv l t h) henv _ s h

theorem resume_keeps {P : State → Prop} (hedge : ∀ t s, P s → P (takeEdge t s))
    (hmicro : ∀ l t s, P s → P (microStep l t s)) (henv : ∀ e s, P s → P { s with env := e }) {s : State} (h : P s) :
    P (resume s) :=
  runCommand_keeps hedge hmicro henv (supply_keeps henv h)

theorem idleStep_keeps {P : State → Prop} (hedge : ∀ t s, P s → P (takeEdge t s))
    (henv : ∀ e s, P s → P { s with env := e }) {s : State} (h : P s) : P (idleStep s) := by
  have h := moreEdges_keeps henv h
  unfold idleStep
  simp only
  split
  · exact h
  · exact hedge _ _ (henv _ _ h)

/-! ## What a step can be -/

theorem isIdle_iff {s : State} : isIdle s = true ↔ s.task = .idle := by simp [isIdle]

theorem command_next {s t : State} {body : State → State} (h : command s body = .next t) :
    s.task = .idle ∧ t = body s := by
  unfold command at h
  split at h
  · rename_i hi
    injection h with h
    exact ⟨isIdle_iff.1 hi, h.symm⟩
  · cases h

theorem command_of_idle {s : State} (body : State → State) (h : s.task = .idle) : command s body = .next (body s) := by
  simp [command, isIdle_iff.2 h]

theorem adcCommand_of_ready {s : State} (body : State → State) (h : s.task = .idle) (hc : s.adc.constructed = true) :
    adcCommand s body = .next (body s) := by
  simp [adcCommand, command_of_idle _ h, isConstructed, hc]

/-- A step goes on with the running command, or runs the next decoded instruction, or refuses a word, or is an idle step. -/
theorem step_cases {s t : State} (h : step s = .next t) :
    (s.task ≠ .idle ∧ t = resume s) ∨
      (∃ p s' i, s.task = .idle ∧ fetchNext s = some (p, s') ∧ decode p = .ok i ∧ exec i s' = .next t) ∨
      (∃ p s' e, s.task = .idle ∧ fetchNext s = some (p, s') ∧ decode p = .error e ∧ t = rejectWord e s') ∨
      (s.task = .idle ∧ fetchNext s = none ∧ t = idleStep s) := by
  unfold step at h
  split at h
  · rename_i hi
    have hi := isIdle_iff.1 hi
    split at h
    · rename_i p s' hf
      split at h
      · rename_i i hd
        exact .inr (.inl ⟨p, s', i, hi, hf, hd, h⟩)
      · rename_i e hd
        injection h with h
        exact .inr (.inr (.inl ⟨p, s', e, hi, hf, hd, h.symm⟩))
    · rename_i hf
      injection h with h
      exact .inr (.inr (.inr ⟨hi, hf, h.symm⟩))
  · rename_i hi
    injection h with h
    exact .inl ⟨fun hc => hi (isIdle_iff.2 hc), h.symm⟩

theorem fetchNext_some {s s' : State} {p : Presented} (h : fetchNext s = some (p, s')) :
    ∃ rest, s.env.cmds = p :: rest ∧ s' = { s with env := { s.env with cmds := rest } } := by
  unfold fetchNext at h
  split at h
  · cases h
  · rename_i q rest hq
    injection h with h
    injection h with h1 h2
    exact ⟨rest, by rw [hq, h1], h2.symm⟩

/-! ## The edge -/

/-- All that taking an edge can do: nothing while the interrupt is not enabled, else one event, the handler's writes and the
clock value. -/
theorem takeEdge_cases (t : Time) (s : State) :
    (edgeEnabled s = false ∧ takeEdge t s = s) ∨
      (edgeEnabled s = true ∧
        takeEdge t s = { s with hist := s.hist ++ [.edge t], rot := edgeHandler t s.rot, gpio := { s.gpio with now := t } }) := by
  unfold takeEdge
  split
  · rename_i h; exact .inr ⟨h, rfl⟩
  · rename_i h; exact .inl ⟨by simpa using h, rfl⟩

@[simp] theorem takeEdge_adc (t : Time) (s : State) : (takeEdge t s).adc = s.adc := by
  rcases takeEdge_cases t s with ⟨_, h⟩ | ⟨_, h⟩ <;> rw [h]

@[simp] theorem takeEdge_task (t : Time) (s : State) : (takeEdge t s).task = s.task := by
  rcases takeEdge_cases t s with ⟨_, h⟩ | ⟨_, h⟩ <;> rw [h]

@[simp] theorem takeEdge_rsp (t : Time) (s : State) : (takeEdge t s).rsp = s.rsp := by
  rcases takeEdge_cases t s with ⟨_, h⟩ | ⟨_, h⟩ <;> rw [h]

@[simp] theorem takeEdge_env (t : Time) (s : State) : (takeEdge t s).env = s.env := by
  rcases takeEdge_cases t s with ⟨_, h⟩ | ⟨_, h⟩ <;> rw [h]

@[simp] theorem takeEdge_cfg (t : Time) (s : State) : (takeEdge t s).cfg = s.cfg := by
  rcases takeEdge_cases t s with ⟨_, h⟩ | ⟨_, h⟩ <;> rw [h]

/-- The handler writes the pin and the flag never (R225). -/
@[simp] theorem edgeHandler_pin (t : Time) (r : Rot) : (edgeHandler t r).pin = r.pin := by
  simp only [edgeHandler]; split <;> rfl

@[simp] theorem edgeHandler_started (t : Time) (r : Rot) : (edgeHandler t r).started = r.started := by
  simp only [edgeHandler]; split <;> rfl

/-! ## Without edges to come a turn is its micro-step -/

theorem moreEdges_of_not {s : State} (h : s.env.edgesGoOn = false) : moreEdges s = s := by
  unfold moreEdges
  rw [if_neg (by simp [h])]

theorem moreEdges_of_listed {s : State} (h : s.env.edges ≠ []) : moreEdges s = s := by
  unfold moreEdges
  rw [if_neg (by simp [h])]

theorem moreEdges_quiet {s : State} (h : noEdges s.env) : moreEdges s = s := moreEdges_of_not h.2

theorem deliver_nil (s : State) (h : s.env.edges = []) : deliver s.env.edges s = s := by
  obtain ⟨adc, rot, gpio, hist, task, rsp, env, cfg⟩ := s
  obtain ⟨cmds, levels, clocks, edges, edgesGoOn, picks, drawn⟩ := env
  simp only at h
  subst h
  rfl

theorem countDown_nil (s : State) (h : s.env.edges = []) : countDown s = s := by
  unfold countDown
  rw [h]

end Sys2Proof.Laws
end

