-- ==== Sys2Proof/Laws/Edges.lean ====
section
/-! SUPPORT. The edges of a history, the handler over several of them, what delivering them leaves alone, and two states alike on the
ADC side. -/

namespace Sys2Proof.Laws

open Sys2Proof.Machine

/-! ## The parts of a history -/

@[simp] theorem edgeTimes_nil : edgeTimes [] = [] := rfl
@[simp] theorem edgeTimes_append (h k : List Event) : edgeTimes (h ++ k) = edgeTimes h ++ edgeTimes k := List.filterMap_append
@[simp] theorem edgeEvents_append (h k : List Event) : edgeEvents (h ++ k) = edgeEvents h ++ edgeEvents k := List.filter_append ..
@[simp] theorem mainEvents_append (h k : List Event) : mainEvents (h ++ k) = mainEvents h ++ mainEvents k := List.filter_append ..

theorem edgeTimes_edges (ts : List Time) : edgeTimes (ts.map .edge) = ts := by
  induction ts with
  | nil => rfl
  | cons t ts ih => simp_all [edgeTimes, edgeTime]

theorem mainEvents_edges (ts : List Time) : mainEvents (ts.map .edge) = [] := by
  simp [mainEvents, isEdgeEvent]

/-! ## The handler over several edges -/

@[simp] theorem afterTimes_nil (r : Rot) : afterTimes [] r = r := rfl
@[simp] theorem afterTimes_cons (t : Time) (ts : List Time) (r : Rot) : afterTimes (t :: ts) r = afterTimes ts (edgeHandler t r) := rfl
@[simp] theorem afterTimes_append (ts us : List Time) (r : Rot) : afterTimes (ts ++ us) r = afterTimes us (afterTimes ts r) :=
  List.foldl_append ..

@[simp] theorem afterTimes_pin (ts : List Time) (r : Rot) : (afterTimes ts r).pin = r.pin := by
  induction ts generalizing r with
  | nil => rfl
  | cons t ts ih => simp [ih]

@[simp] theorem afterTimes_started (ts : List Time) (r : Rot) : (afterTimes ts r).started = r.started := by
  induction ts generalizing r with
  | nil => rfl
  | cons t ts ih => simp [ih]

/-! ## Free edges -/

@[simp] theorem drawnEdges_zero (k : Nat) : drawnEdges k 0 = [] := rfl

theorem drawnEdges_succ (k n : Nat) : drawnEdges k (n + 1) = drawnEdges k n ++ freeEdgeBatch (k + n) := by
  simp [drawnEdges, List.range_succ]

/-! ## Delivering edges -/

/-- The handler stays attached through the edges it handles. -/
@[simp] theorem edgeEnabled_takeEdge (t : Time) (s : State) : edgeEnabled (takeEdge t s) = edgeEnabled s := by
  obtain h | h := takeEdge_cases t s
  · rw [h.2]
  · rw [h.2]; simp [edgeEnabled]

/-- An edge delivered to the attached handler: one event, one run of the handler. -/
theorem takeEdge_of_enabled {s : State} (t : Time) (h : edgeEnabled s = true) :
    takeEdge t s = { s with
      hist := s.hist ++ [.edge t], rot := edgeHandler t s.rot, gpio := { s.gpio with now := t } } := by
  simp [takeEdge, h, edgeReturn, record]

/-- An edge before the attach is lost without trace. -/
theorem takeEdge_of_not {s : State} (t : Time) (h : edgeEnabled s = false) : takeEdge t s = s := by
  simp [takeEdge, h]

/-! ## Two states alike on the ADC side -/

theorem AdcSideAlike.refl (s : State) : AdcSideAlike s s :=
  ⟨rfl, rfl, rfl, rfl, rfl, rfl, .inl rfl, rfl, rfl, rfl, rfl, rfl, rfl, rfl⟩

/-- An edge taken by one of two states alike leaves them alike. -/
theorem AdcSideAlike.takeEdge {s u : State} (h : AdcSideAlike s u) (t : Time) : AdcSideAlike (takeEdge t s) u := by
  cases he : edgeEnabled s
  · rw [takeEdge_of_not t he]; exact h
  · rw [takeEdge_of_enabled t he]
    exact ⟨h.adc, h.cfg, h.out, h.dir, by simpa using h.pin, by simpa using h.started, h.task, h.status,
      by simpa [mainEvents, isEdgeEvent] using h.main, h.cmds, h.levels, h.clocks, h.levelsDrawn, h.clocksDrawn⟩

end Sys2Proof.Laws
end

