-- ==== Sys2Proof/Laws/Encoding.lean ====
section
/-! SUPPORT. The fields of an encoded word read back (30_encoding.md R67, R68). -/

namespace Sys2Proof.Laws

theorem extract_high (a b : Nat) (x : BitVec a) (y : BitVec b) : (x ++ y).extractLsb' b a = x := by
  rw [BitVec.extractLsb'_append_eq_of_le (Nat.le_refl b)]
  simp

theorem extract_low (a b : Nat) (x : BitVec a) (y : BitVec b) : (x ++ y).extractLsb' 0 b = y := by
  rw [BitVec.extractLsb'_append_eq_of_add_le (by omega)]
  simp

theorem commandWord_opcode (op : BitVec 8) (f : BitVec 64) : (commandWord op f).extractLsb' 64 8 = op :=
  extract_high 8 64 op f

theorem commandWord_field (op : BitVec 8) (f : BitVec 64) : (commandWord op f).extractLsb' 0 64 = f :=
  extract_low 8 64 op f

theorem byteField_high (n : BitVec 8) : (0#56 ++ n).extractLsb' 8 56 = 0#56 := extract_high 56 8 0#56 n

theorem byteField_low (n : BitVec 8) : (0#56 ++ n).extractLsb' 0 8 = n := extract_low 56 8 0#56 n

theorem wordField_high (o : BitVec 32) : (0#32 ++ o).extractLsb' 32 32 = 0#32 := extract_high 32 32 0#32 o

theorem wordField_low (o : BitVec 32) : (0#32 ++ o).extractLsb' 0 32 = o := extract_low 32 32 0#32 o

theorem threeBytes_high (g c d : BitVec 8) : (0#40 ++ (g ++ (c ++ d))).extractLsb' 24 40 = 0#40 :=
  extract_high 40 24 0#40 (g ++ (c ++ d))

theorem threeBytes_gain (g c d : BitVec 8) : (0#40 ++ (g ++ (c ++ d))).extractLsb' 16 8 = g := by
  rw [BitVec.extractLsb'_append_eq_of_add_le (by omega)]
  exact extract_high 8 16 g (c ++ d)

theorem threeBytes_clock (g c d : BitVec 8) : (0#40 ++ (g ++ (c ++ d))).extractLsb' 8 8 = c := by
  rw [BitVec.extractLsb'_append_eq_of_add_le (by omega), BitVec.extractLsb'_append_eq_of_add_le (by omega)]
  exact extract_high 8 8 c d

theorem threeBytes_data (g c d : BitVec 8) : (0#40 ++ (g ++ (c ++ d))).extractLsb' 0 8 = d := by
  rw [BitVec.extractLsb'_append_eq_of_add_le (by omega), BitVec.extractLsb'_append_eq_of_add_le (by omega)]
  exact extract_low 8 8 c d

end Sys2Proof.Laws
end

