-- ==== Sys2Proof/Laws/Quiet.lean ====
section
/-! SUPPORT. Runs in which no edge is to come: a turn is its micro-step, and a settled state stays as it is. From these a run is
evaluated micro-step by micro-step. -/

namespace Sys2Proof.Laws

open Sys2Proof.Machine

/-! ## What a micro-step leaves of the environment -/

theorem pollReady_env (l : Level) (s : State) : (pollReady l s).env = s.env := by
  cases l <;> simp only [pollReady]
  · rfl
  · split
    · rfl
    · split <;> rfl

theorem finishMean_env (u : MeanUse) (m : Raw) (s : State) : (finishMean u m s).env = s.env := by
  cases u <;> simp only [finishMean]
  · rfl
  · split <;> rfl
  · split <;> rfl
  · rfl

theorem packRead_env (u : ReadUse) (s : State) : (packRead u s).env = s.env := by
  cases u <;> simp only [packRead]
  · rfl
  · rfl
  · split
    · rw [finishMean_env]
    · rfl

theorem readStep_env (u : ReadUse) (l : Level) (s : State) : (readStep u l s).env = s.env := by
  unfold readStep
  split
  all_goals first | rfl | exact pollReady_env _ _ | exact packRead_env _ _

theorem startStep_env (p : StartPos) (t : Time) (s : State) : (startStep p t s).env = s.env := by
  unfold startStep
  split
  · rfl
  · cases p <;> rfl

theorem nextPick_edges (e : Env) : (nextPick e).2.edges = e.edges := by
  unfold nextPick
  split
  · rfl
  · split <;> rfl

theorem readByte_edges (reg : SharedReg) (left : List Nat) (got : F64) (s : State) :
    (readByte reg left got s).env.edges = s.env.edges := by
  unfold readByte
  simp only
  split
  · simp [nextPick_edges]
  · split <;> simp [nextPick_edges]

/-- No micro-step touches the edges to come. -/
theorem microStep_edges (l : Level) (t : Time) (s : State) : (microStep l t s).env.edges = s.env.edges := by
  unfold microStep
  split
  all_goals first
    | rfl
    | rw [readStep_env]
    | rw [startStep_env]
    | exact readByte_edges _ _ _ _

/-! ## Quiet turns -/

theorem turn_quiet {s : State} (l : Level) (t : Time) (h : noEdges s.env) : turn l t s = microStep l t s := by
  unfold turn
  rw [moreEdges_quiet h]
  simp only
  rw [deliver_nil s h.1, countDown_nil _ ((microStep_edges l t s).trans h.1)]

theorem settle_of_level {s : State} (h : need s = .level) : ∀ n, settle n s = s
  | 0 => rfl
  | n + 1 => by unfold settle; rw [h]

theorem settle_of_done {s : State} (h : need s = .done) : ∀ n, settle n s = s
  | 0 => rfl
  | n + 1 => by unfold settle; rw [h]

theorem settle_quiet {s : State} {n : Nat} (hn : 0 < n) (hq : noEdges s.env) (h : need s = .nothing) :
    settle n s = settle (n - 1) (microStep .low 0#32 s) := by
  obtain ⟨m, rfl⟩ : ∃ m, n = m + 1 := ⟨n - 1, by omega⟩
  conv => lhs; unfold settle
  rw [h]
  simp only [plainTurn, Nat.add_sub_cancel]
  rw [turn_quiet _ _ hq]

theorem runSamples_of_level {s : State} (n : Nat) (h : need s = .level) :
    runSamples (n + 1) s = runSamples n (levelTurn s) := by
  conv => lhs; unfold runSamples
  simp only [settle_of_level h]
  rw [h]

theorem runSamples_of_done {s : State} (h : need s = .done) : ∀ n, runSamples n s = s
  | 0 => by unfold runSamples; exact settle_of_done h _
  | n + 1 => by
    unfold runSamples
    simp only [settle_of_done h]
    rw [h]

/-- A run may be taken up where it first waits for a sample or ends. -/
theorem runSamples_settle {s s' : State} (n : Nat) (hs : settle settleBound s = s')
    (h : need s' = .level ∨ need s' = .done) : runSamples n s = runSamples n s' := by
  have hs' : settle settleBound s' = s' := h.elim (settle_of_level · _) (settle_of_done · _)
  cases n with
  | zero => simp only [runSamples, hs, hs']
  | succ n => simp only [runSamples, hs, hs']

theorem levelTurn_quiet {s : State} {l : Level} {ls : List Level} (hq : noEdges s.env)
    (hl : s.env.levels = l :: ls) :
    levelTurn s = microStep l 0#32 { s with env := { s.env with levels := ls } } := by
  unfold levelTurn
  rw [hl]
  exact turn_quiet _ _ hq

end Sys2Proof.Laws
end

