-- ==== Sys2Proof/Laws/Frame.lean ====
section
/-! SUPPORT. The two long runs of a read with no edge to come, by induction: the polls of the wait and the data pulses
(40_adc_wire.md R95, R96, R98). -/

namespace Sys2Proof.Laws

open Sys2Proof.Machine

/-- The polls of a wait with no edge to come: `k` HIGH answers leave `k` events and the wait goes on (40_adc_wire.md R96). -/
theorem poll_run (use : ReadUse) : ∀ (k : Nat) (s : State) (ls : List Level) (n : Nat),
    s.task = .reading use → s.adc.seq = .wait →
    noEdges s.env → s.env.levels = List.replicate k .high ++ ls →
    (∀ b, s.cfg.readyPollBound = some b → s.adc.polls + k < b) →
    runSamples (k + n) s =
      runSamples n
        { s with
          adc := { s.adc with polls := s.adc.polls + k }
          hist := s.hist ++ List.replicate k (.rd s.adc.dataPin .high), env := { s.env with levels := ls } }
  | 0, s, ls, n, ht, hq, he, hl, hb => by
    obtain ⟨adc, rot, gpio, hist, task, rsp, env, cfg⟩ := s
    obtain ⟨cmds, levels, clocks, edges, edgesGoOn, picks, drawn⟩ := env
    cases adc
    simp_all
  | k+1, s, ls, n, ht, hq, he, hl, hb => by
    have hneed : need s = .level := by simp [need, ht, hq, seqNeed]
    have hl' : s.env.levels = .high :: (List.replicate k .high ++ ls) := by rw [hl]; rfl
    rw [show k + 1 + n = (k + n) + 1 by omega, runSamples_of_level _ hneed, levelTurn_quiet he hl']
    have hstep : microStep .high 0#32 { s with env := { s.env with levels := List.replicate k .high ++ ls } } =
        { s with
          adc := { s.adc with polls := s.adc.polls + 1 }, hist := s.hist ++ [.rd s.adc.dataPin .high]
          env := { s.env with levels := List.replicate k .high ++ ls } } := by
      simp only [microStep, ht, readStep, hq, pollReady, pinRead, record]
      split
      · rfl
      · rename_i b hb'
        have := hb b hb'
        rw [if_neg (by omega)]
    rw [hstep, poll_run use k _ ls n (by simpa using ht) (by simpa using hq) (by simpa using he) rfl
      (by intro b h; have := hb b h; simp; omega)]
    simp [Nat.add_comm, Nat.add_left_comm, List.replicate_succ]

/-- The samples that spell bits `i` down to 0 of a wire code. -/
def bitsFrom (w : Code) (i : Nat) : List Level := (List.range (i+1)).map fun j => Level.ofBit (w.getLsbD (i - j))

theorem bitsFrom_succ (w : Code) (i : Nat) : bitsFrom w (i+1) = Level.ofBit (w.getLsbD (i+1)) :: bitsFrom w i := by
  simp [bitsFrom, List.range_succ_eq_map (n := i+1), Function.comp_def, Nat.add_sub_add_right]

/-- The shift register after bits `i` down to 0 have been set in it (R26, R95). -/
def shregFrom (w : Code) : Nat → Code → Code
  | 0, r => setBit r 0 (w.getLsbD 0)
  | i+1, r => shregFrom w i (setBit r (i+1) (w.getLsbD (i+1)))

@[simp] theorem bit_ofBit (b : Bool) : (Level.ofBit b).bit = b := by cases b <;> rfl

/-- The data pulses from the sample of bit `i` to the sample of bit 0, with no edge to come (R95, R98). -/
theorem shift_run (use : ReadUse) (w : Code) : ∀ (i : Nat) (h : i < 24) (s : State) (ls : List Level) (n : Nat)
    (o : PinMap Level), s.task = .reading use →
    s.adc.seq = .shift ⟨i, h⟩ .sample → noEdges s.env → s.env.levels = bitsFrom w i ++ ls →
    s.gpio.out = pinSet o s.adc.clockPin.toNat .high →
    runSamples (i + 1 + n) s = runSamples n { s with
      adc := { s.adc with shreg := shregFrom w i s.adc.shreg, seq := .shift ⟨0, by decide⟩ .fall }
      hist := s.hist ++ (.rd s.adc.dataPin (Level.ofBit (w.getLsbD i)) :: 
        (if i = 0 then [] else .wr s.adc.clockPin .low ::
           ((bitsFrom w (i-1)).flatMap (dataPulse s.adc.clockPin s.adc.dataPin)).dropLast))
      env := { s.env with levels := ls } }
  | 0, h, s, ls, n, o, ht, hq, he, hl, ho => by
    have hneed : need s = .level := by simp [need, ht, hq, seqNeed]
    have hl' : s.env.levels = Level.ofBit (w.getLsbD 0) :: ls := by rw [hl]; rfl
    rw [show 0 + 1 + n = n + 1 by omega, runSamples_of_level _ hneed, levelTurn_quiet he hl']
    simp [microStep, ht, readStep, hq, pinRead, record, shregFrom]
  | i+1, h, s, ls, n, o, ht, hq, he, hl, ho => by
    have hneed : need s = .level := by simp [need, ht, hq, seqNeed]
    have hl' : s.env.levels = Level.ofBit (w.getLsbD (i+1)) :: (bitsFrom w i ++ ls) := by rw [hl, bitsFrom_succ]; rfl
    rw [show i + 1 + 1 + n = (i + 1 + n) + 1 by omega, runSamples_of_level _ hneed, levelTurn_quiet he hl']
    have hset := runSamples_settle (s := microStep (Level.ofBit (w.getLsbD (i+1))) 0#32
      { s with env := { s.env with levels := bitsFrom w i ++ ls } })
      (s' := { s with
        adc := { s.adc with shreg := setBit s.adc.shreg (i+1) (w.getLsbD (i+1)), seq := .shift ⟨i, Nat.lt_of_succ_lt h⟩ .sample }
        hist := s.hist ++ [.rd s.adc.dataPin (Level.ofBit (w.getLsbD (i+1))), .wr s.adc.clockPin .low, .wr s.adc.clockPin .high]
        env := { s.env with levels := bitsFrom w i ++ ls } }) (i + 1 + n) (by
          simp only [microStep, ht, readStep, hq, pinRead, record, bit_ofBit]
          refine (settle_quiet (by decide) ?_ ?_).trans ?_
          · exact he
          · simp [need, seqNeed]
          simp only [microStep, readStep, pinWrite, setSeq, record, afterFall]
          refine (settle_quiet (by decide) ?_ ?_).trans ?_
          · exact he
          · simp [need, seqNeed]
          simp only [microStep, readStep, pinWrite, setSeq, record]
          refine (settle_of_level ?_ _).trans ?_
          · simp [need, seqNeed]
          simp [ho, List.append_assoc]
          obtain ⟨adc, rot, gpio, hist, task, rsp, env, cfg⟩ := s
          cases gpio
          simp_all) (.inl (by simp [need, ht, seqNeed]))
    rw [hset, shift_run use w i (by omega) _ ls n o (by simpa using ht) rfl (by simpa using he) rfl (by simpa using ho)]
    have hd : (bitsFrom w i).flatMap (dataPulse s.adc.clockPin s.adc.dataPin) =
        .wr s.adc.clockPin .high :: .rd s.adc.dataPin (Level.ofBit (w.getLsbD i)) :: .wr s.adc.clockPin .low ::
          (if i = 0 then [] else (bitsFrom w (i-1)).flatMap (dataPulse s.adc.clockPin s.adc.dataPin)) := by
      cases i with
      | zero => simp [bitsFrom, dataPulse]
      | succ i => rw [bitsFrom_succ]; simp [dataPulse]
    simp only [Nat.add_eq_zero_iff, Nat.add_sub_cancel]
    rw [hd]
    cases i with
    | zero => simp [shregFrom]
    | succ i =>
      have : (bitsFrom w i).flatMap (dataPulse s.adc.clockPin s.adc.dataPin) ≠ [] := by
        cases i with
        | zero => simp [bitsFrom, dataPulse]
        | succ i => rw [bitsFrom_succ]; simp [dataPulse]
      simp [shregFrom, List.dropLast_cons_of_ne_nil, this]

end Sys2Proof.Laws
end

