-- ==== Sys2Proof/Laws/MicroStep.lean ====
section
/-! SUPPORT. What one micro-step of the main-line context leaves alone, and what it appends to the history (10_state.md R41,
60_exceptions.md R225). Later proofs about a run cite these and `runCommand_keeps`, and do not unfold the micro-steps. -/

namespace Sys2Proof.Laws

open Sys2Proof.Machine

/-- What the main-line context never changes once a command runs: the pin bindings, the construct flag, the counter, the speed
and the parameters; and it never clears `rot.started`. -/
structure Kept (s t : State) : Prop where
  constructed : t.adc.constructed = s.adc.constructed
  clockPin : t.adc.clockPin = s.adc.clockPin
  dataPin : t.adc.dataPin = s.adc.dataPin
  pin : t.rot.pin = s.rot.pin
  pulseCount : t.rot.pulseCount = s.rot.pulseCount
  filteredSpeed : t.rot.filteredSpeed = s.rot.filteredSpeed
  started : s.rot.started = true → t.rot.started = true
  cfg : t.cfg = s.cfg

theorem Kept.refl (s : State) : Kept s s := ⟨rfl, rfl, rfl, rfl, rfl, rfl, id, rfl⟩

theorem pollReady_kept (l : Level) (s : State) : Kept s (pollReady l s) := by
  cases l <;> simp only [pollReady]
  · exact ⟨rfl, rfl, rfl, rfl, rfl, rfl, id, rfl⟩
  · split
    · exact ⟨rfl, rfl, rfl, rfl, rfl, rfl, id, rfl⟩
    · split <;> exact ⟨rfl, rfl, rfl, rfl, rfl, rfl, id, rfl⟩

theorem packRead_kept (u : ReadUse) (s : State) : Kept s (packRead u s) := by
  cases u <;> simp only [packRead]
  · exact ⟨rfl, rfl, rfl, rfl, rfl, rfl, id, rfl⟩
  · exact ⟨rfl, rfl, rfl, rfl, rfl, rfl, id, rfl⟩
  · split
    · rename_i u _
      cases u <;> simp only [finishMean] <;> (try split) <;> exact ⟨rfl, rfl, rfl, rfl, rfl, rfl, id, rfl⟩
    · exact ⟨rfl, rfl, rfl, rfl, rfl, rfl, id, rfl⟩

theorem startStep_kept (p : StartPos) (t : Time) (s : State) : Kept s (startStep p t s) := by
  unfold startStep
  split
  · exact ⟨rfl, rfl, rfl, rfl, rfl, rfl, id, rfl⟩
  · cases p
    · exact ⟨rfl, rfl, rfl, rfl, rfl, rfl, id, rfl⟩
    · exact ⟨rfl, rfl, rfl, rfl, rfl, rfl, id, rfl⟩
    · exact ⟨rfl, rfl, rfl, rfl, rfl, rfl, id, rfl⟩
    · exact ⟨rfl, rfl, rfl, rfl, rfl, rfl, fun _ => rfl, rfl⟩

theorem readByte_kept (reg : SharedReg) (left : List Nat) (got : F64) (s : State) : Kept s (readByte reg left got s) := by
  unfold readByte
  simp only
  split
  · exact ⟨rfl, rfl, rfl, rfl, rfl, rfl, id, rfl⟩
  · split <;> exact ⟨rfl, rfl, rfl, rfl, rfl, rfl, id, rfl⟩

/-- No micro-step changes a pin binding, the construct flag, the counter, the speed or a parameter (R225). -/
theorem microStep_kept (l : Level) (t : Time) (s : State) : Kept s (microStep l t s) := by
  unfold microStep
  split
  all_goals first
    | exact ⟨rfl, rfl, rfl, rfl, rfl, rfl, id, rfl⟩
    | exact startStep_kept _ _ _
    | exact readByte_kept _ _ _ _
    | skip
  unfold readStep
  split
  all_goals first
    | exact ⟨rfl, rfl, rfl, rfl, rfl, rfl, id, rfl⟩
    | exact pollReady_kept _ _
    | exact packRead_kept _ _

/-- An event the main-line context of a block with these registers may leave (20_memory.md R40, R41). -/
def MainEvent (s : State) (e : Event) : Prop :=
  isEdgeEvent e = false ∧ (∀ p l, e = .wr p l → p = s.adc.clockPin) ∧ ∀ p l, e = .rd p l → p = s.adc.dataPin

/-- The history grows by main-line events. -/
def Appends (s t : State) : Prop := ∃ es, t.hist = s.hist ++ es ∧ ∀ e ∈ es, MainEvent s e

theorem Appends.none {s t : State} (h : t.hist = s.hist) : Appends s t := ⟨[], by simp [h], by simp⟩

theorem Appends.one {s t : State} (e : Event) (h : t.hist = s.hist ++ [e]) (he : MainEvent s e) : Appends s t :=
  ⟨[e], h, by simpa using he⟩

theorem mainEvent_wr (s : State) (l : Level) : MainEvent s (.wr s.adc.clockPin l) :=
  ⟨rfl, fun _ _ h => by injection h with h; exact h.symm, fun _ _ h => by cases h⟩

theorem mainEvent_rd (s : State) (l : Level) : MainEvent s (.rd s.adc.dataPin l) :=
  ⟨rfl, fun _ _ h => (by cases h), fun _ _ h => by injection h with h; exact h.symm⟩

theorem mainEvent_of {s : State} {e : Event} (h : isEdgeEvent e = false) (hw : ∀ p l, e ≠ .wr p l) (hr : ∀ p l, e ≠ .rd p l) :
    MainEvent s e := ⟨h, fun p l he => absurd he (hw p l), fun p l he => absurd he (hr p l)⟩

theorem pollReady_hist (l : Level) (s : State) : (pollReady l s).hist = s.hist ++ [.rd s.adc.dataPin l] := by
  cases l <;> simp only [pollReady]
  · rfl
  · split
    · rfl
    · split <;> rfl

theorem packRead_hist (u : ReadUse) (s : State) : (packRead u s).hist = s.hist := by
  cases u <;> simp only [packRead]
  · rfl
  · rfl
  · split
    · rename_i u _
      cases u <;> simp only [finishMean] <;> (try split) <;> rfl
    · rfl

theorem startStep_appends (p : StartPos) (t : Time) (s : State) : Appends s (startStep p t s) := by
  unfold startStep
  split
  · exact .none rfl
  · rename_i q _
    cases p
    · exact .one (.cfgIn q true) rfl (mainEvent_of rfl (fun _ _ h => by cases h) fun _ _ h => by cases h)
    · exact .one (.now t) rfl (mainEvent_of rfl (fun _ _ h => by cases h) fun _ _ h => by cases h)
    · exact .one (.attach q) rfl (mainEvent_of rfl (fun _ _ h => by cases h) fun _ _ h => by cases h)
    · exact .none rfl

theorem readByte_hist (reg : SharedReg) (left : List Nat) (got : F64) (s : State) :
    (readByte reg left got s).hist = s.hist := by
  unfold readByte
  simp only
  split
  · rfl
  · split <;> rfl

/-- A micro-step appends main-line events only: it writes no pin but the clock pin and reads no pin but the data pin (R40). -/
theorem microStep_appends (l : Level) (t : Time) (s : State) : Appends s (microStep l t s) := by
  unfold microStep
  split
  · exact .none rfl
  · exact .one _ rfl (mainEvent_rd s l)
  · exact .one (.cfgOut s.adc.clockPin) rfl (mainEvent_of rfl (fun _ _ h => by cases h) fun _ _ h => by cases h)
  · exact .one (.cfgIn s.adc.dataPin false) rfl (mainEvent_of rfl (fun _ _ h => by cases h) fun _ _ h => by cases h)
  · exact .one _ rfl (mainEvent_wr s .low)
  · unfold readStep
    split
    · exact .none rfl
    · exact .one _ (pollReady_hist l s) (mainEvent_rd s l)
    · exact .one _ rfl (mainEvent_wr s .high)
    · exact .one _ rfl (mainEvent_rd s l)
    · exact .one _ rfl (mainEvent_wr s .low)
    · exact .one _ rfl (mainEvent_wr s .high)
    · exact .one _ rfl (mainEvent_wr s .low)
    · exact .none (packRead_hist _ s)
  · exact .one _ rfl (mainEvent_wr s .low)
  · exact .one _ rfl (mainEvent_wr s .high)
  · exact .one _ rfl (mainEvent_wr s .low)
  · exact startStep_appends _ _ _
  · exact .none rfl
  · exact .none (readByte_hist _ _ _ s)

end Sys2Proof.Laws
end

