-- ==== Sys2Proof/Laws/PerInstr.lean ====
section
/-! SUPPORT. The family OpcodeField: the opcode field of an instruction's command word is its row's opcode (30_encoding.md R67,
R70), and a row without a command word has no opcode. -/

namespace Sys2Proof.Laws

/-- The opcode of a command (R70). -/
def opcodeOf : Instr → Option (BitVec 8)
  | .adcConstruct _ _ _ => some 0x10#8
  | .adcIsReady => some 0x11#8
  | .adcSetGain _ => some 0x12#8
  | .adcRead => some 0x13#8
  | .adcReadAverage _ => some 0x14#8
  | .adcGetValue _ => some 0x15#8
  | .adcGetUnits _ => some 0x16#8
  | .adcGetLastUnits => some 0x17#8
  | .adcTare _ => some 0x18#8
  | .adcSetScale _ => some 0x19#8
  | .adcGetScale => some 0x1A#8
  | .adcSetOffset _ => some 0x1B#8
  | .adcGetOffset => some 0x1C#8
  | .adcPowerDown => some 0x1D#8
  | .adcPowerUp => some 0x1E#8
  | .rotConstruct _ => some 0x20#8
  | .rotStart => some 0x21#8
  | .rotGetSpeed => some 0x22#8
  | .rotGetRotates => some 0x23#8
  | .rotEdge _ => none
  | .gainCode128 => none
  | .gainCode64 => none
  | .gainCode32 => none

/-- The opcode field of what an instruction encodes to. -/
def OpcodeField.Statement (i : Instr) : Prop :=
  match encode i with
  | some (.command w) => some (w.extractLsb' 64 8) = opcodeOf i
  | some (.gainOperand _) => opcodeOf i = none
  | none => opcodeOf i = none

theorem OpcodeField.adcConstruct (d c : Pin) (g : Byte) : OpcodeField.Statement (.adcConstruct d c g) := congrArg some (commandWord_opcode _ _)
theorem OpcodeField.adcIsReady : OpcodeField.Statement .adcIsReady := congrArg some (commandWord_opcode _ _)
theorem OpcodeField.adcSetGain (g : Byte) : OpcodeField.Statement (.adcSetGain g) := congrArg some (commandWord_opcode _ _)
theorem OpcodeField.adcRead : OpcodeField.Statement .adcRead := congrArg some (commandWord_opcode _ _)
theorem OpcodeField.adcReadAverage (n : Count) : OpcodeField.Statement (.adcReadAverage n) := congrArg some (commandWord_opcode _ _)
theorem OpcodeField.adcGetValue (n : Count) : OpcodeField.Statement (.adcGetValue n) := congrArg some (commandWord_opcode _ _)
theorem OpcodeField.adcGetUnits (n : Count) : OpcodeField.Statement (.adcGetUnits n) := congrArg some (commandWord_opcode _ _)
theorem OpcodeField.adcGetLastUnits : OpcodeField.Statement .adcGetLastUnits := congrArg some (commandWord_opcode _ _)
theorem OpcodeField.adcTare (n : Count) : OpcodeField.Statement (.adcTare n) := congrArg some (commandWord_opcode _ _)
theorem OpcodeField.adcSetScale (v : F64) : OpcodeField.Statement (.adcSetScale v) := congrArg some (commandWord_opcode _ _)
theorem OpcodeField.adcGetScale : OpcodeField.Statement .adcGetScale := congrArg some (commandWord_opcode _ _)
theorem OpcodeField.adcSetOffset (o : Offset) : OpcodeField.Statement (.adcSetOffset o) := congrArg some (commandWord_opcode _ _)
theorem OpcodeField.adcGetOffset : OpcodeField.Statement .adcGetOffset := congrArg some (commandWord_opcode _ _)
theorem OpcodeField.adcPowerDown : OpcodeField.Statement .adcPowerDown := congrArg some (commandWord_opcode _ _)
theorem OpcodeField.adcPowerUp : OpcodeField.Statement .adcPowerUp := congrArg some (commandWord_opcode _ _)
theorem OpcodeField.rotConstruct (p : Pin) : OpcodeField.Statement (.rotConstruct p) := congrArg some (commandWord_opcode _ _)
theorem OpcodeField.rotStart : OpcodeField.Statement .rotStart := congrArg some (commandWord_opcode _ _)
theorem OpcodeField.rotGetSpeed : OpcodeField.Statement .rotGetSpeed := congrArg some (commandWord_opcode _ _)
theorem OpcodeField.rotGetRotates : OpcodeField.Statement .rotGetRotates := congrArg some (commandWord_opcode _ _)
theorem OpcodeField.rotEdge (t : Time) : OpcodeField.Statement (.rotEdge t) := rfl
theorem OpcodeField.gainCode128 : OpcodeField.Statement .gainCode128 := rfl
theorem OpcodeField.gainCode64 : OpcodeField.Statement .gainCode64 := rfl
theorem OpcodeField.gainCode32 : OpcodeField.Statement .gainCode32 := rfl

end Sys2Proof.Laws
end

