-- ==== Sys2Proof/Laws/Surrounding.lean ====
section
/-! SUPPORT. The storage of the surrounding software (43_persistence_checksum.md R188): its size never changes, read after update,
other bytes untouched, and the canonical form. -/

namespace Sys2Proof.Laws

open Sys2Proof.Machine

@[simp] theorem nvUpdate_size (m : Storage) (a : Nat) (b : BitVec 8) : (nvUpdate m a b).size = m.size := by
  unfold nvUpdate
  split
  · split <;> rfl
  · rfl

@[simp] theorem nvUpdateAll_size (bs : List (BitVec 8)) : ∀ (m : Storage) (a : Nat), (nvUpdateAll m a bs).size = m.size := by
  induction bs with
  | nil => intro m a; rfl
  | cons b bs ih => intro m a; simp [nvUpdateAll, ih]

theorem nvUpdate_pinsRising (m : Storage) (a : Nat) (b : BitVec 8) (h : pinsRising m.bytes = true) :
    pinsRising (nvUpdate m a b).bytes = true := by
  unfold nvUpdate
  split
  · split
    · exact h
    · exact pinSet_pinsRising m.bytes a b h
  · exact h

theorem nvRead_nvUpdate_same {m : Storage} {a : Nat} (b : BitVec 8) (h : a < m.size) : nvRead (nvUpdate m a b) a = b := by
  unfold nvUpdate
  rw [if_pos h]
  split
  · assumption
  · simp [nvRead, h]

theorem nvRead_nvUpdate_other (m : Storage) {a c : Nat} (b : BitVec 8) (h : c ≠ a) :
    nvRead (nvUpdate m a b) c = nvRead m c := by
  unfold nvUpdate
  split
  · split
    · rfl
    · simp [nvRead, pinGet_pinSet_other m.bytes b h]
  · rfl

theorem nvUpdateAll_pinsRising (bs : List (BitVec 8)) :
    ∀ (m : Storage) (a : Nat), pinsRising m.bytes = true → pinsRising (nvUpdateAll m a bs).bytes = true := by
  induction bs with
  | nil => intro m a h; exact h
  | cons b bs ih => intro m a h; exact ih _ _ (nvUpdate_pinsRising m a b h)

theorem nvRead_nvUpdateAll_below (bs : List (BitVec 8)) :
    ∀ (m : Storage) (a c : Nat), c < a → nvRead (nvUpdateAll m a bs) c = nvRead m c := by
  induction bs with
  | nil => intro m a c _; rfl
  | cons b bs ih =>
    intro m a c h
    simp only [nvUpdateAll]
    rw [ih _ _ _ (by omega), nvRead_nvUpdate_other m b (by omega)]

/-- Each byte of a run that lies in the storage reads back as it was written. -/
theorem nvRead_nvUpdateAll (bs : List (BitVec 8)) :
    ∀ (m : Storage) (a i : Nat) (h : i < bs.length), a + bs.length ≤ m.size → nvRead (nvUpdateAll m a bs) (a + i) = bs[i] := by
  induction bs with
  | nil => intro m a i h; simp at h
  | cons b bs ih =>
    intro m a i h hs
    simp only [List.length_cons] at hs
    cases i with
    | zero =>
      simp only [nvUpdateAll, Nat.add_zero, List.getElem_cons_zero]
      rw [nvRead_nvUpdateAll_below bs _ (a + 1) a (by omega), nvRead_nvUpdate_same b (by omega)]
    | succ i =>
      have h' : i < bs.length := by simpa using h
      have := ih (nvUpdate m a b) (a + 1) i h' (by simp; omega)
      simp only [nvUpdateAll, List.getElem_cons_succ]
      rw [← this]
      congr 1
      omega

end Sys2Proof.Laws
end

