-- ==== Sys2Proof/Laws/Widths.lean ====
section
/-! SUPPORT. The bounds of the block's words in numerals. A width is a named parameter (R8), which `omega` does not unfold: cite these,
or write `simp only [Config.timeW]` and the like. -/

namespace Sys2Proof.Laws

theorem raw_lt (v : Raw) : v.toNat < 4294967296 := v.isLt
theorem offset_lt (v : Offset) : v.toNat < 4294967296 := v.isLt
theorem acc_lt (v : Acc) : v.toNat < 4294967296 := v.isLt
theorem time_lt (v : Time) : v.toNat < 4294967296 := v.isLt
theorem edgeCount_lt (v : EdgeCount) : v.toNat < 4294967296 := v.isLt
theorem count_lt (v : Count) : v.toNat < 256 := v.isLt
theorem pin_lt (v : Pin) : v.toNat < 256 := v.isLt
theorem code_lt (v : Code) : v.toNat < 16777216 := v.isLt

end Sys2Proof.Laws
end

