-- ==== Sys2Proof/Tests/Slice0.lean ====
section
/-! SUPPORT. The model's own tests. Expected values are the spec's: 95_test_vectors.md (its row ids are quoted), or the rule
named; none was taken from the model. The witnesses at the end meet the hypotheses of the statements in Obligations.lean. -/

open Sys2Proof Sys2Proof.Machine

namespace Sys2Proof.Tests

/-! ## Helper states -/

/-- The state an outcome holds; the reset state for a stop. -/
def after : Out → State
  | .next t => t
  | .fault _ => State.reset
  | .refused _ => State.reset

/-- The response after an outcome. -/
def answer : Out → Option Response
  | .next t => t.rsp
  | .fault _ => none
  | .refused _ => none

/-- `OK v` -/
def ok (v : BitVec 64) : Option Response := some { status := .ok, value := v }

/-- `REFUSED v` -/
def no (v : BitVec 64) : Option Response := some { status := .refused, value := v }

/-- As after vector W1: data pin 3, clock pin 2, gain 128, last reading 0x800000 (history left empty). -/
def built : State :=
  { State.reset with
    adc := { Adc.reset with
      constructed := true, clockPin := 2#8, dataPin := 3#8, gainSel := 1#2, lastRawReading := some 0x800000#32 }
    gpio := { Gpio.reset with dir := [(2, .output), (3, .input)], out := [(2, .low)] } }

/-- A state whose device answers a script of conversions. -/
def fed (cs : Script) (s : State) : State := { s with env := { s.env with levels := scriptLevels cs } }

/-- A state whose device is ready at once each time and gives these stored codes. -/
def coded (cs : List Code) (s : State) : State := fed (cs.map fun c => (0, storedCode c)) s

/-- Written calibration registers. -/
def calibrated (o : Offset) (c : F64) (s : State) : State :=
  { s with adc := { s.adc with offset := some o, scale := some c } }

/-- The pulse-timing unit running on pin 9 with a given count, timestamps and speed. -/
def spinning (n : EdgeCount) (prev last : Time) (v : F64) : State :=
  { State.reset with
    rot := { pin := some 9#8, started := true, lastEdgeTime := last, previousEdgeTime := prev, pulseCount := n,
             filteredSpeed := v }
    gpio := { Gpio.reset with dir := [(9, .inputPullup)], handler := [(9, .edge)] } }

/-! ## Well-formedness (R76): one ill-formed term for each check -/

theorem test_wf_construct_gain : (Instr.adcConstruct 3#8 2#8 5#8).wellFormed = false := by decide
theorem test_wf_setGain_gain : (Instr.adcSetGain 129#8).wellFormed = false := by decide
theorem test_wf_readAverage_zero : (Instr.adcReadAverage 0#8).wellFormed = false := by decide
theorem test_wf_getValue_zero : (Instr.adcGetValue 0#8).wellFormed = false := by decide
theorem test_wf_getUnits_zero : (Instr.adcGetUnits 0#8).wellFormed = false := by decide
theorem test_wf_tare_zero : (Instr.adcTare 0#8).wellFormed = false := by decide
theorem test_wf_legal :
    (Instr.adcConstruct 3#8 2#8 128#8).wellFormed = true ∧ (Instr.adcSetGain 64#8).wellFormed = true ∧
      (Instr.adcSetGain 32#8).wellFormed = true ∧ (Instr.adcTare 255#8).wellFormed = true := by decide

/-! ## Decoding: words written out from R67, R68, R70 (95_test_vectors.md 3.1), one for each constructor -/

theorem test_decode_construct : decodeTableWord 72 0x100000000000800203 = some (.adcConstruct 3#8 2#8 128#8) := by decide
theorem test_decode_construct_32 : decodeTableWord 72 0x100000000000200405 = some (.adcConstruct 5#8 4#8 32#8) := by decide
theorem test_decode_isReady : decodeTableWord 72 0x110000000000000000 = some .adcIsReady := by decide
theorem test_decode_setGain : decodeTableWord 72 0x120000000000000020 = some (.adcSetGain 32#8) := by decide
theorem test_decode_read : decodeTableWord 72 0x130000000000000000 = some .adcRead := by decide
theorem test_decode_readAverage : decodeTableWord 72 0x14000000000000000A = some (.adcReadAverage 10#8) := by decide
theorem test_decode_getValue : decodeTableWord 72 0x1500000000000000FF = some (.adcGetValue 255#8) := by decide
theorem test_decode_getUnits : decodeTableWord 72 0x160000000000000001 = some (.adcGetUnits 1#8) := by decide
theorem test_decode_getLastUnits : decodeTableWord 72 0x170000000000000000 = some .adcGetLastUnits := by decide
theorem test_decode_tare : decodeTableWord 72 0x180000000000000004 = some (.adcTare 4#8) := by decide
theorem test_decode_setScale_nan :
    decodeTableWord 72 0x197FF8000000000001 = some (.adcSetScale 0x7FF8000000000001#64) := by decide
theorem test_decode_getScale : decodeTableWord 72 0x1A0000000000000000 = some .adcGetScale := by decide
theorem test_decode_setOffset : decodeTableWord 72 0x1B00000000FFFFFC18 = some (.adcSetOffset (-1000)) := by decide
theorem test_decode_getOffset : decodeTableWord 72 0x1C0000000000000000 = some .adcGetOffset := by decide
theorem test_decode_powerDown : decodeTableWord 72 0x1D0000000000000000 = some .adcPowerDown := by decide
theorem test_decode_powerUp : decodeTableWord 72 0x1E0000000000000000 = some .adcPowerUp := by decide
theorem test_decode_rotConstruct : decodeTableWord 72 0x200000000000000007 = some (.rotConstruct 7#8) := by decide
theorem test_decode_rotStart : decodeTableWord 72 0x210000000000000000 = some .rotStart := by decide
theorem test_decode_rotGetSpeed : decodeTableWord 72 0x220000000000000000 = some .rotGetSpeed := by decide
theorem test_decode_rotGetRotates : decodeTableWord 72 0x230000000000000000 = some .rotGetRotates := by decide
theorem test_decode_gainRows :
    decodeTableWord 8 0x80 = some .gainCode128 ∧ decodeTableWord 8 0x40 = some .gainCode64 ∧
      decodeTableWord 8 0x20 = some .gainCode32 ∧ decodeTableWord 8 0x81 = none := by decide

/-- The reserved words of 95_test_vectors.md 3.1. -/
theorem test_decode_reserved :
    decodeTableWord 72 0x000000000000000000 = none ∧ decodeTableWord 72 0x0F0000000000000000 = none ∧
      decodeTableWord 72 0x1F0000000000000000 = none ∧ decodeTableWord 72 0x240000000000000000 = none ∧
      decodeTableWord 72 0xFF0000000000000000 = none ∧ decodeTableWord 72 0x130000000000000001 = none ∧
      decodeTableWord 72 0x120000000000000180 = none ∧ decodeTableWord 72 0x100000000001800203 = none ∧
      decodeTableWord 72 0x1BFFFFFFFFFFFFFC18 = none ∧ decodeTableWord 72 0x200000000000000107 = none := by decide

/-- Reserved for the operand's value only: the word decodes (3.1, last paragraph). -/
theorem test_decode_operand_value :
    decodeTableWord 72 0x120000000000000081 = some (.adcSetGain 129#8) ∧
      decodeTableWord 72 0x140000000000000000 = some (.adcReadAverage 0#8) := by decide

/-! ## Result forms (95_test_vectors.md 3.2, 3.3) -/

theorem test_response_words :
    responseWord ⟨.ok, signedValue 0xFFFFFC18#32⟩ = 0x0FFFFFFFFFFFFFC18#66 ∧
      responseWord ⟨.refused, reasonCode .zeroCount⟩ = 0x10000000000000004#66 ∧
      responseWord ⟨.fault, reasonCode .neverReady⟩ = 0x20000000000000008#66 := by decide

theorem test_stored_codes :
    storedCode 0x800000#24 = 0#24 ∧ storedCode 0xFFFFFF#24 = 0x7FFFFF#24 ∧ storedCode 0x000001#24 = 0x800001#24 ∧
      storedCode 0x7FFFFF#24 = 0xFFFFFF#24 ∧ storedCode 0x123456#24 = 0x923456#24 ∧
      storedCode 0xA5A5A5#24 = 0x25A5A5#24 := by decide

/-! ## The ADC unit on the link (95_test_vectors.md 4.1) -/

/-- W1 -/
theorem test_construct_W1 :
    let t := after (exec (.adcConstruct 3#8 2#8 128#8) (fed [(0, 0#24)] State.reset))
    t.rsp = ok 0#64 ∧ t.hist.length = 78 ∧
      t.hist.take 7 = [.cfgOut 2#8, .cfgIn 3#8 false, .wr 2#8 .low, .rd 3#8 .low, .wr 2#8 .high, .rd 3#8 .low, .wr 2#8 .low] ∧
      t.adc = { built.adc with gainArg := 1#2 } := by decide +kernel

/-- W3, W4 -/
theorem test_construct_refusals :
    after (exec (.adcConstruct 3#8 2#8 5#8) State.reset) = { State.reset with rsp := no 3#64 } ∧
      after (exec (.adcConstruct 9#8 8#8 128#8) built) = { built with rsp := no 2#64 } := by decide +kernel

/-- W5 -/
theorem test_isReady_W5 :
    let s := { built with env := { built.env with levels := [.high, .low] } }
    let t := after (exec .adcIsReady s)
    t.rsp = ok 0#64 ∧ t.hist = [.rd 3#8 .high] ∧ answer (exec .adcIsReady t) = ok 1#64 := by decide +kernel

/-- W7: the new selector, the LOW, one frame of 27 pulses, and the dummy sample kept. -/
theorem test_setGain_W7 :
    let t := after (exec (.adcSetGain 64#8) (fed [(0, 0xFFFFFF#24)] built))
    t.rsp = ok 0#64 ∧ t.adc.gainSel = 3#2 ∧ t.adc.lastRawReading = some 0x7FFFFF#32 ∧ t.hist.length = 80 ∧
      t.hist.head? = some (.wr 2#8 .low) := by decide +kernel

/-- W9, and the order of the tests (section 7). -/
theorem test_setGain_refusals :
    after (exec (.adcSetGain 7#8) built) = { built with rsp := no 3#64 } ∧
      after (exec (.adcSetGain 5#8) State.reset) = { State.reset with rsp := no 1#64 } := by decide +kernel

/-- W6 -/
theorem test_read_W6 :
    let t := after (exec .adcRead (fed [(2, 0x7FFFFF#24)] built))
    t.rsp = ok 0xFFFFFF#64 ∧ t.adc.lastRawReading = some 0xFFFFFF#32 ∧ t.hist.length = 77 ∧
      t.hist.take 6 = [.rd 3#8 .high, .rd 3#8 .high, .rd 3#8 .low, .wr 2#8 .high, .rd 3#8 .low, .wr 2#8 .low] ∧
      t.hist.drop 75 = [.wr 2#8 .high, .wr 2#8 .low] := by decide +kernel

/-- W14 with `READY_POLL_BOUND` = 3. -/
theorem test_read_bounded_W14 :
    let s := { built with cfg := { built.cfg with readyPollBound := some 3 }, env := { built.env with levels := [.high, .high, .high, .high] } }
    let t := after (exec .adcRead s)
    t.rsp = some ⟨.fault, 8#64⟩ ∧ t.hist = [.rd 3#8 .high, .rd 3#8 .high, .rd 3#8 .high] ∧
      t.adc.lastRawReading = some 0x800000#32 ∧ t.task = .idle := by decide +kernel

/-- W10 -/
theorem test_power_W10 :
    let t := after (exec .adcPowerDown built)
    t.hist = [.wr 2#8 .low, .wr 2#8 .high] ∧ t.rsp = ok 0#64 ∧ pinGet t.gpio.out 2 = some .high ∧ t.adc = built.adc ∧
      (after (exec .adcPowerUp t)).hist = [.wr 2#8 .low, .wr 2#8 .high, .wr 2#8 .low] := by decide +kernel

/-- P4, command 4: an edge between the first `Wr(2,HIGH)` and its `Rd` changes no main-line event. -/
theorem test_edge_in_frame_P4 :
    let r := spinning 0#32 100#32 100#32 0#64
    let s := fed [(0, 0x7FFFFF#24)] { built with
      rot := r.rot, gpio := { built.gpio with handler := [(9, .edge)] }, env := { built.env with edges := [⟨2, 600#32⟩] } }
    let t := after (exec .adcRead s)
    t.rsp = ok 0xFFFFFF#64 ∧ t.hist.take 5 = [.rd 3#8 .low, .wr 2#8 .high, .edge 600#32, .rd 3#8 .low, .wr 2#8 .low] ∧
      t.rot = { r.rot with pulseCount := 1#32, lastEdgeTime := 600#32, filteredSpeed := 0x403E000000000000#64 } := by
  decide +kernel

/-! ## Averaging and calibration (95_test_vectors.md 4.2) -/

/-- AV2 -/
theorem test_readAverage_AV2 :
    let t := after (exec (.adcReadAverage 2#8) (coded [8388609#24, 8388610#24] built))
    t.rsp = ok 8388609#64 ∧ t.adc.lastRawReading = some 8388609#32 ∧ t.hist.length = 150 := by decide +kernel

/-- V6: the wrap of case U5. -/
theorem test_getValue_V6 :
    answer (exec (.adcGetValue 1#8) (coded [16777215#24] (calibrated (BitVec.ofInt 32 (-2130706433)) 0#64 built))) =
      ok (BitVec.ofInt 64 (-2147483648)) := by decide +kernel

/-- V7, V8 -/
theorem test_getValue_refusals :
    answer (exec (.adcGetValue 1#8) built) = no 5#64 ∧ answer (exec (.adcGetValue 0#8) built) = no 4#64 := by decide +kernel

/-- Y3, Y6 -/
theorem test_getUnits_Y3_Y6 :
    answer (exec (.adcGetUnits 1#8) (coded [8388608#24] (calibrated 8389608#32 0x407A400000000000#64 built))) =
        ok 0xC0030C30C30C30C3#64 ∧
      answer (exec (.adcGetUnits 1#8) (coded [8388608#24] (calibrated 8388000#32 0x8000000000000000#64 built))) =
        ok 0xFFF0000000000000#64 := by decide +kernel

/-- S9, the source's own example: wire code 0x7FFFFF reads as 16777215.0. -/
theorem test_getUnits_S9 :
    answer (exec (.adcGetUnits 1#8) (fed [(0, 0x7FFFFF#24)] (calibrated 0#32 0x3FF0000000000000#64 built))) =
      ok 0x416FFFFFE0000000#64 := by decide +kernel

/-- LU1: 243.2, and nothing but the response changes. -/
theorem test_getLastUnits_LU1 :
    let s := calibrated 8388000#32 0x4004000000000000#64 built
    after (exec .adcGetLastUnits s) = { s with rsp := ok 0x406E666666666666#64 } := by decide +kernel

/-- T1 -/
theorem test_tare_T1 :
    let t := after (exec (.adcTare 4#8) (coded [8388700#24, 8388701#24, 8388702#24, 8388704#24] built))
    t.rsp = ok 8388701#64 ∧ t.adc.offset = some 8388701#32 ∧ t.adc.lastRawReading = some 8388701#32 := by decide +kernel

/-- X1 -/
theorem test_scale_X1 :
    let t := after (exec (.adcSetScale 0x7FF8000000000001#64) built)
    t.rsp = ok 0#64 ∧ answer (exec .adcGetScale t) = ok 0x7FF8000000000001#64 ∧ answer (exec .adcGetScale built) = no 5#64 := by
  decide +kernel

/-- X3 -/
theorem test_offset_X3 :
    let t := after (exec (.adcSetOffset 0xFFFFFC18#32) built)
    t.rsp = ok 0#64 ∧ answer (exec .adcGetOffset t) = ok 0xFFFFFFFFFFFFFC18#64 ∧ answer (exec .adcGetOffset built) = no 5#64 := by
  decide +kernel

/-! ## The pulse-timing unit (95_test_vectors.md 6) -/

/-- K3, K5, K8 -/
theorem test_rotConstruct_K5_K8 :
    answer (exec .rotStart State.reset) = no 7#64 ∧
      (after (exec (.rotConstruct 9#8) (after (exec (.rotConstruct 7#8) State.reset)))).rot.pin = some 9#8 ∧
      after (exec (.rotConstruct 4#8) (spinning 0#32 1000#32 1000#32 0#64)) =
        { spinning 0#32 1000#32 1000#32 0#64 with rsp := ok 0#64 } := by decide +kernel

/-- K6, K7 -/
theorem test_rotStart_K6_K7 :
    let s := { State.reset with
      rot := { Rot.reset with pin := some 9#8 }, env := { Env.reset with clocks := [1000#32] } }
    let t := after (exec .rotStart s)
    t.rsp = ok 1#64 ∧ t.hist = [.cfgIn 9#8 true, .now 1000#32, .attach 9#8] ∧
      t.rot = (spinning 0#32 1000#32 1000#32 0#64).rot ∧ after (exec .rotStart t) = { t with rsp := ok 0#64 } := by
  decide +kernel

/-- K10 -/
theorem test_rotGetSpeed_K10 :
    answer (exec .rotGetSpeed (spinning 1#32 1000#32 1500#32 0x403E000000000000#64)) = ok 0x403E000000000000#64 := by
  decide +kernel

/-- Q5: bytes 0 to 5 and 7 are read before the edge. -/
theorem test_rotGetSpeed_torn_Q5 :
    let s := spinning 1#32 1000#32 1500#32 0x403E000000000000#64
    answer (exec .rotGetSpeed { s with env := { s.env with picks := [7, 0, 0, 0, 0, 0, 0, 0], edges := [⟨7, 2000#32⟩] } }) =
      ok 0x404A000000000000#64 := by decide +kernel

/-- Q1 and, with `ATOMIC_READS` true, Q3. -/
theorem test_rotGetRotates_torn_Q1 :
    let s := spinning 0xFF#32 1000#32 1500#32 0x403E000000000000#64
    let e : Env := { s.env with picks := [0, 0, 0, 0], edges := [⟨1, 2000#32⟩] }
    answer (exec .rotGetRotates { s with env := e }) = ok 511#64 ∧
      answer (exec .rotGetRotates { s with env := e, cfg := { s.cfg with atomicReads := true } }) = ok 255#64 := by
  decide +kernel

/-- G4, G6 -/
theorem test_edge_G4_G6 :
    (after (exec (.rotEdge 1500#32) (spinning 1#32 1000#32 1500#32 0x403E000000000000#64))).rot =
        (spinning 1#32 1000#32 1500#32 0x403E000000000000#64).rot ∧
      (after (exec (.rotEdge 0xF4#32) (spinning 7#32 0xFFFFFD0C#32 0xFFFFFF00#32 0#64))).rot =
        (spinning 8#32 0xFFFFFF00#32 0xF4#32 0x403E000000000000#64).rot := by decide +kernel

/-- G7, K9 -/
theorem test_edge_G7_K9 :
    (after (exec (.rotEdge 510#32) (spinning 0xFFFFFFFF#32 0#32 10#32 0#64))).rot =
        (spinning 0#32 10#32 510#32 0x403E000000000000#64).rot ∧
      exec (.rotEdge 510#32) { State.reset with rot := { Rot.reset with pin := some 9#8 } } =
        .next { State.reset with rot := { Rot.reset with pin := some 9#8 } } := by
  refine ⟨by decide +kernel, rfl⟩

/-- Rows E8, E18, E20, E22, E24 of 95_test_vectors.md section 5. -/
theorem test_foldSpeed_rows :
    foldSpeed 1#32 0x4059000000000000#64 = 0x40603E6666666666#64 ∧
      foldSpeed 4000#32 0x4059000000000000#64 = 0xC051800000000000#64 ∧
      foldSpeed 60001#32 0x4024000000000000#64 = 0xC07040147AE147AE#64 ∧
      foldSpeed 7#32 0#64 = 0x403DFFFFFFFFFFFF#64 ∧
      foldSpeed 4294967295#32 0#64 = 0x403E000000000000#64 := by decide +kernel

/-! ## The operand rows (R62) -/

theorem test_gainRows :
    (after (exec .gainCode128 State.reset)).adc.gainArg = 1#2 ∧ (after (exec .gainCode64 State.reset)).adc.gainArg = 3#2 ∧
      (after (exec .gainCode32 State.reset)).adc.gainArg = 2#2 := by decide +kernel

/-! ## The step and the surrounding software -/

/-- P3, command 2, through a step. -/
theorem test_step_runs_word :
    after (step (State.reset.withFetchWord 72 0x210000000000000000)) = { State.reset with rsp := no 7#64 } := by decide +kernel

/-- Section 7, first row: `Reserved` comes before everything. -/
theorem test_step_reserved_word :
    after (step (State.reset.withFetchWord 72 0x120000000000000105)) = { State.reset with rsp := no 6#64 } := by decide +kernel

/-- The CRC-32 check value of "123456789", and the record of scale 2.5 and offset -1000 (section 8). -/
theorem test_record_bytes :
    crc32 [0x31#8, 0x32#8, 0x33#8, 0x34#8, 0x35#8, 0x36#8, 0x37#8, 0x38#8, 0x39#8] = 0xCBF43926#32 ∧
      recordBytes 0x4004000000000000#64 0xFFFFFC18#32 =
        [0#8, 0#8, 0#8, 0#8, 0#8, 0#8, 4#8, 0x40#8, 0x18#8, 0xFC#8, 0xFF#8, 0xFF#8, 0x0B#8, 0x3B#8, 0xE2#8, 0x2F#8] := by
  decide +kernel

/-- N = 4, seeded with 10.0, one sample of 20.0 gives 12.5 (section 8). -/
theorem test_moving_average :
    (averageStep (averageInit 4 0x4024000000000000#64) 0x4034000000000000#64).2 = 0x4029000000000000#64 := by decide +kernel

theorem test_assembler :
    assembleWord "adc.construct 3, 2" = some (.command 0x100000000000800203#72) ∧
      assembleWord "adc.setScale 0x7FF8000000000001" = some (.command 0x197FF8000000000001#72) ∧
      assembleWord "adc.setOffset 8388000 ; a comment" = some (.command 0x1B00000000007FFDA0#72) ∧
      assembleWord "adc.setScale 420.0" = some (.command 0x19407A400000000000#72) := by decide +kernel

/-! ## Witnesses: concrete states and operands that meet the hypotheses of the statements, each clause by itself -/

/-- A state in the middle of the second of three reads for `adc.tare`. -/
def midTare : State :=
  { built with
    task := .reading (.average 3#8 .tare)
    adc := { built.adc with seq := .shift 5 .rise, acc := 0xFFFFFF#32, left := 2#8 } }

/-- Both units running: the pulse-timing unit on pin 9, beside the ADC unit on pins 2 and 3, and these edges to come. -/
def both (es : List EdgeAt) : State :=
  { built with
    rot := (spinning 0#32 1000#32 1000#32 0#64).rot, gpio := { built.gpio with handler := [(9, .edge)] },
    env := { built.env with edges := es } }

/-- A read that waits, while two edges are due and one more is to come. -/
def waitingWithEdges : State :=
  let s := both [⟨0, 1500#32⟩, ⟨0, 1700#32⟩, ⟨2, 1900#32⟩]
  { s with task := .reading .single, adc := { s.adc with seq := .wait }, env := { s.env with levels := [.high] } }

/-- A state whose data pin shows these levels. -/
def showing (ls : List Level) (s : State) : State := { s with env := { s.env with levels := ls } }

/-- A block whose wait is bounded by two samples. -/
def bounded (s : State) : State := { s with cfg := { s.cfg with readyPollBound := some 2 } }

/-- One conversion, ready at its second sample. -/
def one : Script := [(1, 0x800001#24)]

theorem witness_DecodeOfEncodeIsIdentity :
    encode (.adcConstruct 255#8 0#8 77#8) = some (.command 0x1000000000004D00FF#72) := by decide

theorem witness_EncodeOfDecodeIsIdentity :
    decode (.command 0x1B00000000FFFFFC18#72) = .ok (.adcSetOffset 0xFFFFFC18#32) ∧
      decode (.gainOperand 32#8) = .ok .gainCode32 := by
  exact ⟨rfl, rfl⟩

theorem witness_ReservedEncodingsAreRefused :
    (let s := { State.reset with env := { Env.reset with cmds := [.command 0x130000000000000001#72] } };
      s.task = .idle ∧ s.env.cmds = .command 0x130000000000000001#72 :: [] ∧ reservedWord 0x130000000000000001#72 = true) ∧
    reservedWord 0x1F0000000000000000#72 = true ∧
    reservedWord 0x100000000000FFFFFF#72 = false ∧ reservedWord 0x19FFFFFFFFFFFFFFFF#72 = false ∧
    adcReady built ∧ gainCodeLegal 127#8 = false ∧ gainCodeLegal 129#8 = false ∧
    State.reset.task = .idle ∧ State.reset.adc.constructed = false := by
  refine ⟨⟨rfl, rfl, by decide⟩, by decide, by decide, by decide, ⟨rfl, rfl⟩, by decide, by decide, rfl, rfl⟩

theorem witness_GainMapIsTheSpecs :
    gainSelOf 128#8 = some 1#2 ∧ gainSelOf 64#8 = some 3#2 ∧ gainSelOf 32#8 = some 2#2 ∧ gainSelOf 33#8 = none := by decide

theorem witness_StepRunsTheDecodedInstruction :
    (let s := { State.reset with env := { Env.reset with cmds := [.command 0x210000000000000000#72] } };
      s.task = .idle ∧ s.env.cmds = .command 0x210000000000000000#72 :: [] ∧
        decode (.command 0x210000000000000000#72) = .ok .rotStart) ∧
    decodeTableWord 8 0x40 = some .gainCode64 ∧ midTare.task ≠ .idle := by
  refine ⟨⟨rfl, rfl, rfl⟩, by decide, by decide⟩

theorem witness_CommandWhileRunningIsRefused : Instr.adcRead.isCommand = true ∧ midTare.task ≠ .idle := by decide

theorem witness_EveryStepKeepsTheInvariant : midTare.Inv ∧ ∃ t, step midTare = .next t := by
  refine ⟨⟨⟨rfl, rfl, rfl⟩, ?_, ?_, ?_, ?_, ?_, ?_, ?_⟩, ⟨_, rfl⟩⟩
  · intro r h
    cases h
    decide
  · intro h
    cases h
  · exact ⟨fun _ _ => by decide, fun h => by cases h⟩
  · exact ⟨⟨(fun _ => by decide), (fun _ => ⟨_, rfl⟩)⟩, (fun j p h => by cases h)⟩
  · intro n u h
    cases h
    decide
  · refine ⟨fun n h => ?_, fun n h => ?_, fun p h => ?_⟩ <;> cases h
  · refine ⟨fun h => ?_, fun h => ?_, fun _ _ => rfl, fun p h => ?_⟩ <;> cases h

theorem witness_AdcCommandsNeedConstruct :
    Instr.adcPowerUp.isAdc = true ∧ (∀ d c g, Instr.adcPowerUp ≠ .adcConstruct d c g) ∧ State.reset.task = .idle ∧
      State.reset.adc.constructed = false := by
  exact ⟨rfl, (fun d c g h => by cases h), rfl, rfl⟩

theorem witness_RefusedCommandsChangeNothing :
    ∃ t, Instr.rotStart.isCommand = true ∧ State.reset.task = .idle ∧ exec .rotStart State.reset = .next t ∧
      t.rsp = some ⟨.refused, 7#64⟩ := ⟨_, rfl, rfl, rfl, rfl⟩

theorem witness_UnwrittenAndSecondConstructAreRefused :
    adcReady built ∧ (255#8 : Count) ≠ 0#8 ∧ built.adc.offset = none ∧ built.adc.scale = none := by
  refine ⟨⟨rfl, rfl⟩, by decide, rfl, rfl⟩

theorem witness_ConstructCompletes :
    (let s := fed [(2, 0x123456#24)] State.reset;
      s.task = .idle ∧ s.adc.constructed = false ∧ quiet s ∧ gainSelOf 64#8 = some 3#2 ∧
        s.env.levels = frameLevels 2 0x123456#24 ++ [] ∧ pollsFit s.cfg 2) := by
  exact ⟨rfl, rfl, ⟨rfl, rfl⟩, rfl, by decide +kernel, fun b h => by cases h⟩

theorem witness_ConstructBindsAndConfiguresThePins :
    State.reset.task = .idle ∧ State.reset.adc.constructed = false ∧ gainSelOf 32#8 = some 2#2 ∧ (2#8 : Pin) ≠ 3#8 := by decide

theorem witness_IsReadyCompletes :
    (let s := { built with env := { built.env with levels := [.low] } };
      adcReady s ∧ quiet s ∧ s.env.levels = .low :: []) ∧
    (let s := { built with env := { built.env with levels := [.high] } };
      adcReady s ∧ quiet s ∧ s.env.levels = .high :: []) := by
  exact ⟨⟨⟨rfl, rfl⟩, ⟨rfl, rfl⟩, rfl⟩, ⟨⟨rfl, rfl⟩, ⟨rfl, rfl⟩, rfl⟩⟩

theorem witness_SetGainCompletes :
    (let s := fed [(0, 0xFFFFFF#24)] built;
      adcReady s ∧ quiet s ∧ gainSelOf 128#8 = some 1#2 ∧ s.env.levels = frameLevels 0 0xFFFFFF#24 ++ [] ∧
        pollsFit s.cfg 0) := by
  exact ⟨⟨rfl, rfl⟩, ⟨rfl, rfl⟩, rfl, by decide +kernel, fun b h => by cases h⟩

/-- With a bound of 3 two HIGH polls fit. -/
theorem witness_ReadCompletes :
    (let s := { fed [(2, 0x7FFFFF#24)] built with cfg := { Config.normative with readyPollBound := some 3 } };
      adcReady s ∧ quiet s ∧ s.env.levels = frameLevels 2 0x7FFFFF#24 ++ [] ∧ pollsFit s.cfg 2) := by
  refine ⟨⟨rfl, rfl⟩, ⟨rfl, rfl⟩, by decide +kernel, fun b h => ?_⟩
  cases h
  decide

theorem witness_PowerCommandsComplete : adcReady built ∧ quiet built := ⟨⟨rfl, rfl⟩, rfl, rfl⟩

/-- Each clause: no sample and two HIGH samples for a read; a construct; a mean after no read and after one. -/
theorem witness_ReadWaitsWithoutBound :
    (let s := showing [.high, .high] built;
      quiet s ∧ s.cfg.readyPollBound = none ∧ adcReady s ∧ s.env.levels = List.replicate 2 .high) ∧
    (quiet built ∧ built.cfg.readyPollBound = none ∧ adcReady built ∧ built.env.levels = List.replicate 0 .high) ∧
    gainSelOf 64#8 = some 3#2 ∧
    (let s := showing [.high] State.reset;
      quiet s ∧ s.cfg.readyPollBound = none ∧ s.task = .idle ∧ s.adc.constructed = false ∧
        s.env.levels = List.replicate 1 .high) ∧
    (let s := showing (scriptLevels one ++ [.high]) (calibrated 1#32 0#64 built);
      quiet s ∧ s.cfg.readyPollBound = none ∧ adcReady s ∧ meanOperands .raw s ∧ meanOperands .value s ∧
        meanOperands .units s ∧ meanOperands .tare s ∧ one.length < (2#8 : Count).toNat ∧
        s.env.levels = scriptLevels one ++ List.replicate 1 .high) ∧
    ([] : Script).length < (1#8 : Count).toNat := by
  exact ⟨⟨⟨rfl, rfl⟩, rfl, ⟨rfl, rfl⟩, rfl⟩, ⟨⟨rfl, rfl⟩, rfl, ⟨rfl, rfl⟩, rfl⟩, rfl,
    ⟨⟨rfl, rfl⟩, rfl, rfl, rfl, rfl⟩,
    ⟨⟨rfl, rfl⟩, rfl, ⟨rfl, rfl⟩, trivial, rfl, ⟨rfl, rfl⟩, trivial, by decide, rfl⟩, by decide⟩

/-- Each clause: a read, a construct, and a mean whose first read fits the bound. -/
theorem witness_BoundedWaitEndsInFault :
    (let s := bounded (showing [.high, .high, .low] built);
      quiet s ∧ 0 < 2 ∧ s.cfg.readyPollBound = some 2 ∧ adcReady s ∧ s.env.levels = List.replicate 2 .high ++ [.low]) ∧
    gainSelOf 32#8 = some 2#2 ∧
    (let s := bounded (showing [.high, .high] State.reset);
      quiet s ∧ s.cfg.readyPollBound = some 2 ∧ s.task = .idle ∧ s.adc.constructed = false ∧
        s.env.levels = List.replicate 2 .high ++ []) ∧
    (let s := bounded (showing (scriptLevels one ++ [.high, .high, .low]) (calibrated 1#32 0#64 built));
      quiet s ∧ s.cfg.readyPollBound = some 2 ∧ adcReady s ∧ meanOperands .raw s ∧ meanOperands .value s ∧
        meanOperands .units s ∧ meanOperands .tare s ∧ one.length < (2#8 : Count).toNat ∧ (∀ x ∈ one, x.1 < 2) ∧
        s.env.levels = scriptLevels one ++ (List.replicate 2 .high ++ [.low])) ∧
    ([] : Script).length < (1#8 : Count).toNat := by
  exact ⟨⟨⟨rfl, rfl⟩, by decide, rfl, ⟨rfl, rfl⟩, rfl⟩, rfl, ⟨⟨rfl, rfl⟩, rfl, rfl, rfl, rfl⟩,
    ⟨⟨rfl, rfl⟩, rfl, ⟨rfl, rfl⟩, trivial, rfl, ⟨rfl, rfl⟩, trivial, by decide, by decide, rfl⟩, by decide⟩

/-- Two edges due and one to come; with the wait bounded, one more HIGH sample still fits the bound of two. -/
theorem witness_HandlerRunsWhileAReadWaits :
    (let s := waitingWithEdges;
      waiting s = true ∧ edgeEnabled s = true ∧ s.cfg.readyPollBound = none ∧
        s.env.edges = [⟨0, 1500#32⟩, ⟨0, 1700#32⟩] ++ [⟨2, 1900#32⟩] ∧ s.env.edges ≠ [] ∧
        (∀ e ∈ [(⟨0, 1500#32⟩ : EdgeAt), ⟨0, 1700#32⟩], e.after = 0) ∧
        (∀ e ∈ [(⟨2, 1900#32⟩ : EdgeAt)].head?, 0 < e.after) ∧ s.env.levels = [.high]) ∧
    (bounded waitingWithEdges).cfg.readyPollBound = some 2 ∧ waitingWithEdges.adc.polls + 1 < 2 := by decide

/-- A command that takes two edges of four, and an idle block with an edge to come. -/
theorem witness_EveryEdgeIsDeliveredOnceInOrder :
    (let s := (both [⟨0, 1500#32⟩, ⟨1, 1500#32⟩, ⟨3, 1600#32⟩, ⟨0, 1700#32⟩]).withFetchWord 72 0x1D0000000000000000;
      ∃ t, step s = .next t ∧ edgeTimes t.hist = [1500#32, 1500#32] ∧ t.env.edges = [⟨2, 1600#32⟩, ⟨0, 1700#32⟩]) ∧
    (let s := both [⟨5, 1500#32⟩]; s.task = .idle ∧ s.env.cmds = [] ∧ s.env.edges = ⟨5, 1500#32⟩ :: []) :=
  ⟨⟨_, rfl, by decide +kernel, by decide +kernel⟩, rfl, rfl, rfl⟩

/-- For `adc.readAverage`, `adc.getValue`, `adc.getUnits` and `adc.tare`: two conversions, the second after one HIGH poll. -/
theorem witness_means :
    (let s := fed [(0, 0#24), (1, 0xFFFFFF#24)] (calibrated 8388000#32 0#64 built);
      adcReady s ∧ quiet s ∧ (2#8 : Count) ≠ 0#8 ∧ scripted 2#8 [(0, 0#24), (1, 0xFFFFFF#24)] [] s ∧
        s.adc.offset = some 8388000#32 ∧ s.adc.scale = some 0#64) := by
  refine ⟨⟨rfl, rfl⟩, ⟨rfl, rfl⟩, by decide, ⟨by decide, by decide +kernel, fun x _ b h => ?_⟩, rfl, rfl⟩
  cases h

theorem witness_GetLastUnitsCompletes :
    (let s := calibrated 8388000#32 0x4004000000000000#64 built;
      adcReady s ∧ s.adc.offset = some 8388000#32 ∧ s.adc.scale = some 0x4004000000000000#64 ∧
        s.adc.lastRawReading = some 0x800000#32) := ⟨⟨rfl, rfl⟩, rfl, rfl, rfl⟩

theorem witness_AccessorsComplete :
    (let s := calibrated 0x80000000#32 0x7FF8000000000001#64 built;
      adcReady s ∧ s.adc.scale = some 0x7FF8000000000001#64 ∧ s.adc.offset = some 0x80000000#32) := ⟨⟨rfl, rfl⟩, rfl, rfl⟩

/-- The largest stored code and the smallest offset outside the wrap band (V5). -/
theorem witness_DifferenceIsExactOutsideTheWrapBand :
    (0xFFFFFF#32 : Raw).toNat < 2 ^ 24 ∧ -2130706432 ≤ (0x81000000#32 : Offset).toInt := by decide

theorem witness_MeanOfCodesIsACode : (List.replicate 255 ((0, 0x7FFFFF#24) : Nat × Code)).length ≤ 255 :=
  Nat.le_of_eq List.length_replicate

/-- A NaN, both zeros, both infinities, and the least subnormal. -/
theorem witness_ScaleCornersFollowIeee :
    fIsNaN 0x7FF8000000000001#64 = true ∧ fMag 0#64 = 0 ∧ fMag 0x8000000000000000#64 = 0 ∧ (1#32 : Raw) ≠ 0#32 ∧
      fIsInf 0x7FF0000000000000#64 = true ∧ fIsInf 0xFFF0000000000000#64 = true ∧ fIsFinite 1#64 = true ∧
      fMag 1#64 ≠ 0 := by decide +kernel

theorem witness_IntegersConvertExactly : (-(2 ^ 53 - 1) : Int).natAbs < 2 ^ 53 := by decide

/-- A third, a tie (2^53 + 1 halves), the largest finite number, and the least magnitude that overflows. -/
theorem witness_RoundingIsToNearestEven :
    0 < 3 ∧ roundMag 1 3 < fInfBits ∧ fInfBits - 1 < fInfBits ∧ roundMag (2 ^ 53 + 1) 1 < fInfBits ∧
      roundMag ((2 ^ 54 - 1) * 2 ^ 2044 - 1) 1 = fInfBits - 1 ∧ roundMag ((2 ^ 54 - 1) * 2 ^ 2044) 1 = fInfBits := by
  decide +kernel

/-- Both zeros, the least subnormal, the largest number of each sign. -/
theorem witness_ArithmeticIsCorrectlyRounded :
    fIsFinite 0#64 = true ∧ fIsFinite 0x8000000000000000#64 = true ∧ fIsFinite 1#64 = true ∧
      fIsFinite 0x7FEFFFFFFFFFFFFF#64 = true ∧ fIsFinite 0xFFEFFFFFFFFFFFFF#64 = true ∧ fMag 1#64 ≠ 0 := by decide +kernel

theorem witness_RotConstructCompletes :
    State.reset.task = .idle ∧ State.reset.rot.started = false ∧
      (spinning 0#32 0#32 0#32 0#64).task = .idle ∧ (spinning 0#32 0#32 0#32 0#64).rot.started = true := ⟨rfl, rfl, rfl, rfl⟩

theorem witness_RotStartCompletes :
    (let s := { State.reset with rot := { Rot.reset with pin := some 9#8 }, env := { Env.reset with clocks := [1000#32] } };
      s.task = .idle ∧ quiet s ∧ s.rot.started = false ∧ s.rot.pin = some 9#8 ∧ s.env.clocks = 1000#32 :: []) ∧
    (spinning 0#32 0#32 0#32 0#64).rot.started = true ∧ State.reset.rot.started = false ∧ State.reset.rot.pin = none := by
  exact ⟨⟨rfl, ⟨rfl, rfl⟩, rfl, rfl, rfl⟩, rfl, rfl, rfl⟩

theorem witness_GettersReturnTheirRegister : State.reset.task = .idle ∧ quiet State.reset := ⟨rfl, rfl, rfl⟩

/-- Two edges before the attach, two between it and the flip. -/
theorem witness_StartLosesEarlyEdgesAndHandlesLaterOnes :
    (let lost : List EdgeAt := [⟨0, 900#32⟩, ⟨2, 1001#32⟩];
      let held : List EdgeAt := [⟨1, 1002#32⟩, ⟨0, 1003#32⟩];
      let s := { State.reset with
        rot := { Rot.reset with pin := some 9#8 }, env := { Env.reset with clocks := [1000#32], edges := lost ++ held } };
      s.task = .idle ∧ s.rot.started = false ∧ s.rot.pin = some 9#8 ∧ edgeEnabled s = false ∧
        s.env.clocks = 1000#32 :: [] ∧ s.env.edgesGoOn = false ∧ s.env.edges = lost ++ held ∧
        (lost.map EdgeAt.after).sum ≤ 2 ∧ (∀ e ∈ held.head?, (lost.map EdgeAt.after).sum + e.after = 3) ∧
        (∀ e ∈ held.tail, e.after = 0)) := by decide

theorem witness_TornReadsMixHeldValues :
    (both [⟨1, 1500#32⟩]).task = .idle ∧ edgeEnabled (both [⟨1, 1500#32⟩]) = true ∧ edgeEnabled State.reset = false ∧
      { (both []).cfg with atomicReads := true }.atomicReads = true := by decide

theorem witness_EdgeHandlerWritesAllOrNothing :
    edgeEnabled State.reset = false ∧ edgeEnabled (spinning 0#32 0#32 1000#32 0#64) = true ∧
      (1000#32 : Time) = (spinning 0#32 0#32 1000#32 0#64).rot.lastEdgeTime ∧
      (1001#32 : Time) ≠ (spinning 0#32 0#32 1000#32 0#64).rot.lastEdgeTime := by decide

theorem witness_TwoSecondGapForgetsTheOldSpeed : fIsFinite 0x7FEFFFFFFFFFFFFF#64 = true ∧ fIsFinite 0x8000000000000000#64 = true := by
  decide +kernel

theorem witness_LowpassAtTheTimeConstantIsTheSample :
    fIsFinite 1#64 = true ∧ fMag 1#64 ≠ 0 ∧ fIsFinite 0xFFEFFFFFFFFFFFFF#64 = true ∧ fIsFinite 0x4000000000000000#64 = true ∧
      fMag 0x4000000000000000#64 ≠ 0 := by decide +kernel

theorem witness_InstantSpeedIsBounded : accepts 1#32 = true ∧ accepts 0xFFFFFFFF#32 = true ∧ accepts 0#32 = false := by decide

theorem witness_TheUnitsShareNothing :
    ∃ t u, exec .rotStart State.reset = .next t ∧ Instr.adcPowerDown.isAdc = true ∧ quiet built ∧
      exec .adcPowerDown built = .next u := ⟨_, _, rfl, rfl, ⟨rfl, rfl⟩, rfl⟩

/-- A step that delivers no edge, in a state where the registers are not zero. -/
theorem witness_OnlyTheHandlerMutatesCounterAndSpeed :
    ∃ t, step (spinning 7#32 1000#32 1500#32 0x403E000000000000#64) = .next t ∧
      edgeEvents t.hist = edgeEvents (spinning 7#32 1000#32 1500#32 0x403E000000000000#64).hist := ⟨_, rfl, rfl⟩

theorem witness_LifecyclesNeverGoBack :
    ∃ t u, step built = .next t ∧ built.adc.constructed = true ∧
      step (spinning 0#32 0#32 0#32 0#64) = .next u ∧ (spinning 0#32 0#32 0#32 0#64).rot.started = true :=
  ⟨_, _, rfl, rfl, rfl, rfl⟩

/-- A step that writes the clock pin twice. -/
theorem witness_OnlyTheClockIsWrittenAndTheDataRead :
    (let s := built.withFetchWord 72 0x1D0000000000000000;
      ∃ t, step s = .next t ∧ t.hist = s.hist ++ [.wr 2#8 .low, .wr 2#8 .high]) := ⟨_, rfl, rfl⟩

/-- The handler is attached, and the edge is delivered between the two writes. -/
theorem witness_EdgesDoNotDisturbTheAdcUnit :
    (let s := both [⟨1, 1500#32⟩];
      ∃ t u, Instr.adcPowerDown.isAdc = true ∧ exec .adcPowerDown s = .next t ∧ edgeEvents t.hist = [.edge 1500#32] ∧
        exec .adcPowerDown { s with env := { s.env with edges := [], edgesGoOn := false } } = .next u) :=
  ⟨_, _, rfl, rfl, rfl, rfl⟩

/-- A read that waits, with three edges to come and with none; the step delivers two of them. -/
theorem witness_EveryStepKeepsTheAdcSidesAlike :
    (let s := waitingWithEdges;
      let u := { s with env := { s.env with edges := [] } };
      AdcSideAlike s u ∧ readsShared s = false ∧ s.rsp = u.rsp ∧
        ∃ t v, step s = .next t ∧ edgeTimes t.hist = [1500#32, 1700#32] ∧ step u = .next v) :=
  ⟨⟨rfl, rfl, rfl, rfl, rfl, rfl, .inl rfl, rfl, rfl, rfl, rfl, rfl, rfl, rfl⟩, rfl, rfl, _, _, rfl, rfl, rfl⟩

/-- A storage that just holds the record. -/
theorem witness_LoadAfterSaveReturnsThePair :
    Config.nvBase + 16 ≤ ({ size := Config.nvBase + 16, bytes := [] } : Storage).size := Nat.le_refl _

theorem witness_ChecksumVerifiesAndCatchesFlips : (0x81#8 : BitVec 8) ≠ 0x80#8 ∧ (1#32 : Word) ≠ crc32 [] := by decide +kernel

end Sys2Proof.Tests
end

section
/-! PROOF. Correct rounding (R9, D8). Patterns below the sign bit count the magnitudes upward (`magOf_strictMono`); `roundMag` finds the
two neighbours of the exact quotient and takes the nearer one (`roundMag_spec`); everything else is order. The four operations pack a
sign with one such rounding (`fSum_finite`, `fmul_finite`, `fdiv_finite`). -/

open Sys2Proof.Machine

namespace Sys2Proof.Rounding

/-! ## The magnitudes, in the order of their patterns -/

/-- The magnitude of the lower 63 bits `b` of a pattern, in units of 2^-1074, carried on past the largest finite number as if the
exponent field had no end. -/
def magOf (b : Nat) : Nat := if b / 2 ^ 52 = 0 then b % 2 ^ 52 else (2 ^ 52 + b % 2 ^ 52) * 2 ^ (b / 2 ^ 52 - 1)

/-- `q` units of the last place 2^`sh`, the carry out of the fraction (`q = 2^53`) included. -/
theorem magOf_scaled {sh q : Nat} (hq : q ≤ 2 ^ 53) (hn : sh = 0 ∨ 2 ^ 52 ≤ q) : magOf (sh * 2 ^ 52 + q) = q * 2 ^ sh := by
  obtain hsub | hnorm | hcarry : q < 2 ^ 52 ∨ (2 ^ 52 ≤ q ∧ q < 2 ^ 53) ∨ q = 2 ^ 53 := by omega
  · obtain rfl : sh = 0 := by omega
    rw [Nat.zero_mul, Nat.zero_add, magOf, if_pos (Nat.div_eq_of_lt hsub), Nat.mod_eq_of_lt hsub, Nat.pow_zero, Nat.mul_one]
  · have hexp : (sh * 2 ^ 52 + q) / 2 ^ 52 = sh + 1 := by omega
    have hfrac : 2 ^ 52 + (sh * 2 ^ 52 + q) % 2 ^ 52 = q := by omega
    rw [magOf, hexp, hfrac, if_neg (Nat.succ_ne_zero sh), Nat.add_sub_cancel]
  · have hexp : (sh * 2 ^ 52 + q) / 2 ^ 52 = sh + 2 := by omega
    have hfrac : (sh * 2 ^ 52 + q) % 2 ^ 52 = 0 := by omega
    rw [magOf, hexp, hfrac, if_neg (Nat.succ_ne_zero _), show sh + 2 - 1 = sh + 1 from rfl, Nat.pow_succ, hcarry]
    omega

/-- Every pattern counts the units of a last place. -/
theorem exists_scaled (b : Nat) : ∃ sh q, q < 2 ^ 53 ∧ (sh = 0 ∨ 2 ^ 52 ≤ q) ∧ b = sh * 2 ^ 52 + q :=
  ⟨b / 2 ^ 52 - 1, b - (b / 2 ^ 52 - 1) * 2 ^ 52, by omega, by omega, by omega⟩

theorem magOf_lt_magOf_succ (b : Nat) : magOf b < magOf (b + 1) := by
  obtain ⟨sh, q, hq, hn, rfl⟩ := exists_scaled b
  rw [Nat.add_assoc, magOf_scaled (Nat.le_of_lt hq) hn, magOf_scaled (by omega) (by omega)]
  exact Nat.mul_lt_mul_of_pos_right (Nat.lt_succ_self q) (Nat.two_pow_pos sh)

theorem magOf_mono {i j : Nat} (hij : i ≤ j) : magOf i ≤ magOf j := by
  induction hij with
  | refl => exact Nat.le_refl _
  | step _ ih => exact Nat.le_trans ih (Nat.le_of_lt (magOf_lt_magOf_succ _))

theorem magOf_strictMono {i j : Nat} (hij : i < j) : magOf i < magOf j :=
  Nat.lt_of_lt_of_le (magOf_lt_magOf_succ i) (magOf_mono hij)

/-- Twice the midpoint above the last pattern of an exponent. -/
theorem magOf_last_add_next {sh k : Nat} (hsh : sh = k + 1) :
    magOf (sh * 2 ^ 52 + (2 ^ 53 - 1)) + magOf (sh * 2 ^ 52 + 2 ^ 53) = 2 * ((2 ^ 54 - 1) * 2 ^ k) := by
  rw [magOf_scaled (by omega) (by omega), magOf_scaled (Nat.le_refl _) (by omega), hsh, Nat.pow_succ (m := k)]
  generalize 2 ^ k = p
  omega

/-- The overflow boundary is the midpoint of the largest finite number and the first magnitude beyond it. -/
theorem magOf_overflow : magOf (fInfBits - 1) + magOf fInfBits = 2 * ((2 ^ 54 - 1) * 2 ^ 2044) := by
  have hlast : fInfBits - 1 = 2045 * 2 ^ 52 + (2 ^ 53 - 1) := rfl
  have hnext : fInfBits = 2045 * 2 ^ 52 + 2 ^ 53 := rfl
  rw [hlast, hnext, magOf_last_add_next (k := 2044) rfl]

/-! ## The rounding -/

/-- `b` is the last pattern whose magnitude is at most `n / d`. -/
structure Brackets (n d b : Nat) : Prop where
  le : magOf b * d ≤ n
  lt : n < magOf (b + 1) * d

/-- Of `b` and its successor the one nearer to `n / d`, the even one at their midpoint. -/
def nearer (n d b : Nat) : Nat :=
  if (magOf b + magOf (b + 1)) * d < 2 * n ∨ ((magOf b + magOf (b + 1)) * d = 2 * n ∧ b % 2 = 1) then b + 1 else b

theorem nearer_cases (n d b : Nat) :
    (nearer n d b = b + 1 ∧
        (magOf b * d + magOf (b + 1) * d < 2 * n ∨ (magOf b * d + magOf (b + 1) * d = 2 * n ∧ b % 2 = 1))) ∨
      (nearer n d b = b ∧
        ¬(magOf b * d + magOf (b + 1) * d < 2 * n ∨ (magOf b * d + magOf (b + 1) * d = 2 * n ∧ b % 2 = 1))) := by
  rw [← Nat.add_mul, nearer]
  split
  · next hup => exact .inl ⟨rfl, hup⟩
  · next hdown => exact .inr ⟨rfl, hdown⟩

/-- `roundMag` with its parts named. -/
theorem roundMag_of_parts {n d sh q r : Nat} (hsh : sh = Nat.log2 (n / d) - 52) (hq : q = n / (d * 2 ^ sh))
    (hr : r = n % (d * 2 ^ sh)) :
    roundMag n d = min (sh * 2 ^ 52 + if d * 2 ^ sh < 2 * r ∨ (2 * r = d * 2 ^ sh ∧ q % 2 = 1) then q + 1 else q) fInfBits := by
  subst hsh hq hr
  rfl

/-- The quotient has 53 bits, or fewer when the last place is the least one. -/
theorem quotient_bits (n d : Nat) :
    n / (d * 2 ^ (Nat.log2 (n / d) - 52)) < 2 ^ 53 ∧
      (Nat.log2 (n / d) - 52 = 0 ∨ 2 ^ 52 ≤ n / (d * 2 ^ (Nat.log2 (n / d) - 52))) := by
  rw [← Nat.div_div_eq_div_mul]
  generalize hN : n / d = N
  have hlt : N < 2 ^ (N.log2 + 1) := Nat.lt_log2_self
  constructor
  · rw [Nat.div_lt_iff_lt_mul (Nat.two_pow_pos _), ← Nat.pow_add]
    exact Nat.lt_of_lt_of_le hlt (Nat.pow_le_pow_right (by decide) (by omega))
  · obtain hsh | hsh := Nat.eq_zero_or_pos (N.log2 - 52)
    · exact .inl hsh
    · have hN0 : N ≠ 0 := by
        rintro rfl
        exact absurd hsh (by decide)
      have hexp : 52 + (N.log2 - 52) = N.log2 := by omega
      refine .inr ?_
      rw [Nat.le_div_iff_mul_le (Nat.two_pow_pos _), ← Nat.pow_add, hexp]
      exact Nat.log2_self_le hN0

/-- What `roundMag` does: it takes the nearer neighbour of the exact quotient, and an infinity past the largest finite number. -/
theorem roundMag_spec (n : Nat) {d : Nat} (hd : 0 < d) :
    ∃ b, Brackets n d b ∧ roundMag n d = min (nearer n d b) fInfBits := by
  obtain ⟨hq, hn⟩ := quotient_bits n d
  rw [roundMag_of_parts rfl rfl rfl]
  generalize Nat.log2 (n / d) - 52 = sh at hq hn ⊢
  have hu : 0 < d * 2 ^ sh := Nat.mul_pos hd (Nat.two_pow_pos sh)
  have hsplit := Nat.div_add_mod n (d * 2 ^ sh)
  have hr := Nat.mod_lt n hu
  generalize n / (d * 2 ^ sh) = q at *
  generalize n % (d * 2 ^ sh) = r at *
  have hlo : magOf (sh * 2 ^ 52 + q) * d = d * 2 ^ sh * q := by
    rw [magOf_scaled (Nat.le_of_lt hq) hn]
    ac_rfl
  have hhi : magOf (sh * 2 ^ 52 + q + 1) * d = d * 2 ^ sh * q + d * 2 ^ sh := by
    rw [Nat.add_assoc, magOf_scaled (by omega) (by omega), Nat.add_mul, Nat.one_mul, Nat.add_mul]
    ac_rfl
  refine ⟨sh * 2 ^ 52 + q, ⟨by omega, by omega⟩, congrArg (min · fInfBits) ?_⟩
  have hcases := nearer_cases n d (sh * 2 ^ 52 + q)
  rw [hlo, hhi] at hcases
  split <;> omega

/-- The distance of the pattern `b` from the rational `n / d`, in units of `1 / d`. -/
def gap (n d b : Nat) : Nat := ((magOf b : Int) * d - n).natAbs

theorem nearer_is_nearest {n d b : Nat} (hd : 0 < d) (h : Brackets n d b) (m : Nat) :
    gap n d (nearer n d b) ≤ gap n d m ∧
      (gap n d (nearer n d b) = gap n d m → m ≠ nearer n d b → nearer n d b % 2 = 0) := by
  obtain ⟨hle, hlt⟩ := h
  have mono : ∀ {i j}, i < j → magOf i * d < magOf j * d := fun hij =>
    Nat.mul_lt_mul_of_pos_right (magOf_strictMono hij) hd
  have hgap : ∀ i, gap n d i = (((magOf i * d : Nat) : Int) - n).natAbs := fun i => by rw [gap, Int.natCast_mul]
  have hother : magOf m * d < magOf b * d ∨ m = b ∨ m = b + 1 ∨ magOf (b + 1) * d < magOf m * d := by
    obtain hm | hm | hm | hm : m < b ∨ m = b ∨ m = b + 1 ∨ b + 1 < m := by omega
    · exact .inl (mono hm)
    · exact .inr (.inl hm)
    · exact .inr (.inr (.inl hm))
    · exact .inr (.inr (.inr (mono hm)))
  obtain ⟨heq, hmid⟩ | ⟨heq, hmid⟩ := nearer_cases n d b
  all_goals
    rw [heq, hgap, hgap]
    obtain hm | rfl | rfl | hm := hother <;> omega

/-- An odd pattern is passed exactly from the midpoint with its successor on. -/
theorem lt_nearer_iff {n d b c : Nat} (h : Brackets n d b) (hc : c % 2 = 1) :
    c < nearer n d b ↔ magOf c * d + magOf (c + 1) * d ≤ 2 * n := by
  obtain ⟨hle, hlt⟩ := h
  have mono : ∀ {i j}, i ≤ j → magOf i * d ≤ magOf j * d := fun hij => Nat.mul_le_mul_right d (magOf_mono hij)
  have hcases := nearer_cases n d b
  obtain hcb | rfl | hcb := Nat.lt_trichotomy c b
  · have := mono (Nat.le_of_lt hcb)
    have := mono (show c + 1 ≤ b from hcb)
    omega
  · omega
  · have := mono (show b + 1 ≤ c from hcb)
    have := mono (Nat.le_add_right c 1)
    omega

/-- Overflow, from the midpoint `t` of the largest finite number and the magnitude beyond it on. -/
theorem roundMag_eq_inf_iff_of_midpoint (n : Nat) {d t : Nat} (hd : 0 < d) (ht : magOf (fInfBits - 1) + magOf fInfBits = 2 * t) :
    roundMag n d = fInfBits ↔ t * d ≤ n := by
  obtain ⟨b, hb, hround⟩ := roundMag_spec n hd
  have hpass := lt_nearer_iff (c := fInfBits - 1) hb rfl
  rw [show fInfBits - 1 + 1 = fInfBits from rfl, ← Nat.add_mul, ht, Nat.mul_assoc] at hpass
  rw [hround]
  have hpos : 0 < fInfBits := by decide
  omega

theorem roundMag_eq_inf_iff (n : Nat) {d : Nat} (hd : 0 < d) :
    roundMag n d = fInfBits ↔ (2 ^ 54 - 1) * 2 ^ 2044 * d ≤ n := by
  rw [roundMag_eq_inf_iff_of_midpoint n hd magOf_overflow]

/-- To nearest, ties to even. -/
theorem roundMag_is_nearest {n d : Nat} (hd : 0 < d) (hfin : roundMag n d < fInfBits) (m : Nat) :
    gap n d (roundMag n d) ≤ gap n d m ∧
      (gap n d (roundMag n d) = gap n d m → m ≠ roundMag n d → roundMag n d % 2 = 0) := by
  obtain ⟨b, hb, hround⟩ := roundMag_spec n hd
  have heq : roundMag n d = nearer n d b := by omega
  rw [heq]
  exact nearer_is_nearest hd hb m

/-! ## Patterns as a sign and a magnitude -/

/-- The pattern below the sign bit. -/
def lowBits (a : F64) : Nat := a.toNat % 2 ^ 63

theorem lowBits_lt (a : F64) : lowBits a < 2 ^ 63 := Nat.mod_lt _ (by decide)

theorem fExp_eq (a : F64) : fExp a = lowBits a / 2 ^ 52 := by
  simp only [fExp, lowBits]
  omega

theorem fFrac_eq (a : F64) : fFrac a = lowBits a % 2 ^ 52 := by
  simp only [fFrac, lowBits]
  omega

theorem fMag_eq (a : F64) : fMag a = magOf (lowBits a) := by rw [fMag, fExp_eq, fFrac_eq, magOf]

theorem fIsFinite_iff (a : F64) : fIsFinite a = true ↔ lowBits a < fInfBits := by
  have := lowBits_lt a
  rw [fIsFinite, fExp_eq, bne_iff_ne, fInfBits]
  omega

theorem fIsInf_iff (a : F64) : fIsInf a = true ↔ lowBits a = fInfBits := by
  have := lowBits_lt a
  rw [fIsInf, fExp_eq, fFrac_eq, Bool.and_eq_true, beq_iff_eq, beq_iff_eq, fInfBits]
  omega

theorem fExp_of_finite {a : F64} (ha : fIsFinite a = true) : (fExp a == 2047) = false := by
  rwa [fIsFinite, bne, Bool.not_eq_true'] at ha

theorem fIsNaN_of_finite {a : F64} (ha : fIsFinite a = true) : fIsNaN a = false := by
  rw [fIsNaN, fExp_of_finite ha, Bool.false_and]

theorem fIsInf_of_finite {a : F64} (ha : fIsFinite a = true) : fIsInf a = false := by
  rw [fIsInf, fExp_of_finite ha, Bool.false_and]

theorem fSign_eq (a : F64) : fSign a = decide (2 ^ 63 ≤ a.toNat) := BitVec.msb_eq_decide a

theorem toNat_fPack (s : Bool) {b : Nat} (hb : b < 2 ^ 63) : (fPack s b).toNat = (if s then 2 ^ 63 else 0) + b := by
  rw [fPack, BitVec.toNat_ofNat, Nat.mod_eq_of_lt]
  split <;> omega

theorem lowBits_fPack (s : Bool) {b : Nat} (hb : b < 2 ^ 63) : lowBits (fPack s b) = b := by
  rw [lowBits, toNat_fPack s hb]
  split <;> omega

theorem fSign_fPack (s : Bool) {b : Nat} (hb : b < 2 ^ 63) : fSign (fPack s b) = s := by
  rw [fSign_eq, toNat_fPack s hb]
  cases s
  · exact decide_eq_false (by rw [if_neg Bool.false_ne_true, Nat.zero_add]; omega)
  · exact decide_eq_true (Nat.le_add_right _ _)

theorem roundMag_le (n d : Nat) : roundMag n d ≤ fInfBits := Nat.min_le_right _ _

theorem roundMag_lt (n d : Nat) : roundMag n d < 2 ^ 63 := Nat.lt_of_le_of_lt (roundMag_le n d) (by decide)

/-! ## Signed values -/

/-- The integer of a sign and a magnitude. -/
def signed (s : Bool) (m : Nat) : Int := if s then -(m : Int) else m

theorem fValue_eq (a : F64) : fValue a = signed (fSign a) (magOf (lowBits a)) := by rw [← fMag_eq, fValue, signed]

theorem signed_one : signed false 1 = 1 := rfl

theorem signed_two_pow (k : Nat) : signed false (2 ^ k) = 2 ^ k := Int.natCast_pow 2 k

theorem signed_mul : ∀ (s t : Bool) (m n : Nat), signed s m * signed t n = signed (s != t) (m * n)
  | false, false, m, n => (Int.natCast_mul m n).symm
  | false, true, m, n => (Int.mul_neg m n).trans (congrArg Neg.neg (Int.natCast_mul m n).symm)
  | true, false, m, n => (Int.neg_mul m n).trans (congrArg Neg.neg (Int.natCast_mul m n).symm)
  | true, true, m, n => (Int.neg_mul_neg m n).trans (Int.natCast_mul m n).symm

theorem signed_not : ∀ (s : Bool) (m : Nat), signed (!s) m = -signed s m
  | false, _ => rfl
  | true, m => (Int.neg_neg m).symm

theorem natAbs_signed : ∀ (s : Bool) (m : Nat), (signed s m).natAbs = m
  | false, m => Int.natAbs_natCast m
  | true, m => (Int.natAbs_neg m).trans (Int.natAbs_natCast m)

/-- A sign that is right for a nonzero integer gives it back. -/
theorem signed_natAbs {s : Bool} {v : Int} (h : v ≠ 0 → s = decide (v < 0)) : signed s v.natAbs = v := by
  by_cases hv : v = 0
  · subst hv
    cases s <;> rfl
  · rw [h hv, signed]
    by_cases hneg : v < 0
    · rw [decide_eq_true hneg, if_pos rfl]
      omega
    · rw [decide_eq_false hneg, if_neg Bool.false_ne_true]
      omega

/-- Of two integers of one sign the magnitudes are compared; of two signs they add up. -/
theorem natAbs_signed_sub_signed (c s : Bool) (m n : Nat) :
    (signed c m - signed s n).natAbs = if c = s then ((m : Int) - n).natAbs else m + n := by
  match c, s with
  | false, false => rfl
  | false, true =>
    show ((m : Int) - -(n : Int)).natAbs = m + n
    omega
  | true, false =>
    show (-(m : Int) - (n : Int)).natAbs = m + n
    omega
  | true, true =>
    show (-(m : Int) - -(n : Int)).natAbs = ((m : Int) - n).natAbs
    omega

/-- The distance of a signed candidate from a rational of sign `s`: with the other sign it lies beyond zero. -/
theorem natAbs_signed_sub (s t c : Bool) (n d b : Nat) :
    (signed c (magOf b) * signed t d - signed (s != t) n).natAbs = if c = s then gap n d b else magOf b * d + n := by
  have hsame : ∀ c s t : Bool, ((c != t) = (s != t)) = (c = s) := by decide
  rw [signed_mul, natAbs_signed_sub_signed, gap, Int.natCast_mul]
  simp only [hsame]

theorem gap_zero (n d : Nat) : gap n d 0 = n := by
  rw [gap, show magOf 0 = 0 from rfl]
  omega

/-- Rounding the magnitude to nearest and giving it the sign is rounding the signed rational to nearest. -/
theorem roundedTo_fPack (s t : Bool) (n : Nat) {d : Nat} (hd : 0 < d) :
    roundedTo (fPack s (roundMag n d)) (signed (s != t) n) (signed t d) s := by
  have hlow := lowBits_fPack s (roundMag_lt n d)
  obtain hinf | hfin := Nat.eq_or_lt_of_le (roundMag_le n d)
  · refine ⟨fSign_fPack s (roundMag_lt n d), ?_⟩
    rw [natAbs_signed, natAbs_signed, if_pos ((roundMag_eq_inf_iff n hd).1 hinf), fIsInf_iff, hlow, hinf]
  · refine ⟨fSign_fPack s (roundMag_lt n d), ?_⟩
    rw [natAbs_signed, natAbs_signed, if_neg (Nat.ne_of_lt hfin ∘ (roundMag_eq_inf_iff n hd).2), fIsFinite_iff, hlow]
    refine ⟨hfin, fun c _ => ?_⟩
    rw [fValue_eq, fValue_eq c, fSign_fPack s (roundMag_lt n d), hlow, natAbs_signed_sub, natAbs_signed_sub, fFrac_eq, hlow,
      if_pos rfl]
    by_cases hc : fSign c = s
    · obtain ⟨hnear, heven⟩ := roundMag_is_nearest hd hfin (lowBits c)
      rw [if_pos hc]
      refine ⟨hnear, fun htie hne => ?_⟩
      have := heven htie fun h => hne (by rw [hc, h])
      omega
    · -- beyond zero: no nearer than zero itself
      obtain ⟨hnear, heven⟩ := roundMag_is_nearest hd hfin 0
      rw [gap_zero] at hnear heven
      rw [if_neg hc]
      refine ⟨by omega, fun htie _ => ?_⟩
      have := heven (by omega)
      omega

/-! ## The operations on finite operands -/

/-- The sign of an exact sum `v` of terms of the signs `s` and `t`. -/
def sumSign (s t : Bool) (v : Int) : Bool := if v = 0 then s && t else decide (v < 0)

theorem fSum_finite (op : FpOp) (b₀ : F64) {a b : F64} (ha : fIsFinite a = true) (hb : fIsFinite b = true) :
    fSum op b₀ a b =
      fPack (sumSign (fSign a) (fSign b) (fValue a + fValue b)) (roundMag (fValue a + fValue b).natAbs 1) := by
  have hzero : roundMag 0 1 = 0 := by decide
  simp only [fSum, fIsNaN_of_finite ha, fIsNaN_of_finite hb, fIsInf_of_finite ha, fIsInf_of_finite hb, Bool.or_self,
    Bool.false_eq_true, if_false, sumSign]
  by_cases hv : fValue a + fValue b = 0
  · rw [if_pos hv, if_pos hv, hv, Int.natAbs_zero, hzero]
  · rw [if_neg hv, if_neg hv]

theorem roundedTo_fSum (op : FpOp) (b₀ : F64) {a b : F64} (ha : fIsFinite a = true) (hb : fIsFinite b = true) :
    roundedTo (fSum op b₀ a b) (fValue a + fValue b) 1 (sumSign (fSign a) (fSign b) (fValue a + fValue b)) := by
  rw [fSum_finite op b₀ ha hb]
  generalize fValue a + fValue b = v
  have hsigned : signed (sumSign (fSign a) (fSign b) v) v.natAbs = v := signed_natAbs fun hv => if_neg hv
  have hround := roundedTo_fPack (sumSign (fSign a) (fSign b) v) false v.natAbs Nat.one_pos
  rwa [Bool.bne_false, hsigned, signed_one] at hround

theorem fmul_finite {a b : F64} (ha : fIsFinite a = true) (hb : fIsFinite b = true) :
    fmul a b = fPack (fSign a != fSign b) (roundMag (fMag a * fMag b) (2 ^ 1074)) := by
  simp only [fmul, fIsNaN_of_finite ha, fIsNaN_of_finite hb, fIsInf_of_finite ha, fIsInf_of_finite hb, Bool.or_self,
    Bool.false_eq_true, if_false]

theorem fdiv_finite {a b : F64} (ha : fIsFinite a = true) (hb : fIsFinite b = true) (hb0 : fMag b ≠ 0) :
    fdiv a b = fPack (fSign a != fSign b) (roundMag (fMag a * 2 ^ 1074) (fMag b)) := by
  simp only [fdiv, fIsNaN_of_finite ha, fIsNaN_of_finite hb, fIsInf_of_finite ha, fIsInf_of_finite hb, Bool.or_self,
    Bool.false_eq_true, if_false, if_neg hb0]

/-- The operand `fsub` adds: its sign inverted, its magnitude kept. -/
theorem lowBits_negated (b : F64) : lowBits (b ^^^ 0x8000000000000000#64) = lowBits b := by
  have hmask : (0x8000000000000000#64).toNat % 2 ^ 63 = 0 := rfl
  rw [lowBits, BitVec.toNat_xor, Nat.xor_mod_two_pow, hmask, Nat.xor_zero, lowBits]

theorem fSign_negated (b : F64) : fSign (b ^^^ 0x8000000000000000#64) = !fSign b := by
  rw [fSign, BitVec.msb_xor, show (0x8000000000000000#64).msb = true from rfl, Bool.xor_true, fSign]

theorem fIsFinite_negated (b : F64) : fIsFinite (b ^^^ 0x8000000000000000#64) = fIsFinite b := by
  rw [Bool.eq_iff_iff, fIsFinite_iff, fIsFinite_iff, lowBits_negated]

theorem fValue_negated (b : F64) : fValue (b ^^^ 0x8000000000000000#64) = -fValue b := by
  rw [fValue_eq, fValue_eq, lowBits_negated, fSign_negated, signed_not]

theorem roundedTo_fsub {a b : F64} (ha : fIsFinite a = true) (hb : fIsFinite b = true) :
    roundedTo (fsub a b) (fValue a - fValue b) 1 (sumSign (fSign a) (!fSign b) (fValue a - fValue b)) := by
  have := roundedTo_fSum .sub b ha ((fIsFinite_negated b).trans hb)
  rwa [fValue_negated, fSign_negated, ← Int.sub_eq_add_neg] at this

theorem roundedTo_fmul {a b : F64} (ha : fIsFinite a = true) (hb : fIsFinite b = true) :
    roundedTo (fmul a b) (fValue a * fValue b) (2 ^ 1074) (fSign a != fSign b) := by
  have hpos : ∀ k : Nat, 0 < 2 ^ k := Nat.two_pow_pos
  have := roundedTo_fPack (fSign a != fSign b) false (fMag a * fMag b) (hpos 1074)
  rwa [← fmul_finite ha hb, Bool.bne_false, signed_two_pow 1074, ← signed_mul] at this

theorem roundedTo_fdiv {a b : F64} (ha : fIsFinite a = true) (hb : fIsFinite b = true) (hb0 : fMag b ≠ 0) :
    roundedTo (fdiv a b) (fValue a * 2 ^ 1074) (fValue b) (fSign a != fSign b) := by
  have := roundedTo_fPack (fSign a != fSign b) (fSign b) (fMag a * 2 ^ 1074) (Nat.pos_of_ne_zero hb0)
  have hsign : ((fSign a != fSign b) != fSign b) = (fSign a != false) := by cases fSign a <;> cases fSign b <;> rfl
  rwa [← fdiv_finite ha hb hb0, hsign, ← signed_mul, signed_two_pow 1074] at this

/-- Settles O38: `roundMag` takes the nearer of the two neighbours of the exact quotient, and magnitudes
grow with their patterns. -/
theorem roundingIsToNearestEven : Obligations.RoundingIsToNearestEven := by
  unfold Obligations.RoundingIsToNearestEven
  intro n d hd
  refine ⟨roundMag_eq_inf_iff n hd, fun hfin m hm => ?_⟩
  have hm63 : m < 2 ^ 63 := Nat.lt_trans hm (by decide)
  rw [fMag_eq, fMag_eq, lowBits_fPack false (roundMag_lt n d), lowBits_fPack false hm63]
  exact roundMag_is_nearest hd hfin m

/-- Settles O39: each operation on finite operands packs the rounded magnitude of the exact result with its sign. -/
theorem arithmeticIsCorrectlyRounded : Obligations.ArithmeticIsCorrectlyRounded := by
  unfold Obligations.ArithmeticIsCorrectlyRounded
  exact fun a b ha hb => ⟨roundedTo_fSum .add b ha hb, roundedTo_fsub ha hb, roundedTo_fmul ha hb, roundedTo_fdiv ha hb⟩

end Sys2Proof.Rounding
end

section
/-! PROOF. How an instruction begins, said once: `exec` either delivers an edge, or puts the first task of a command in place and runs
it (`exec_begins`). `Begins` lists what can be put in place, with the tests passed on the way (40_adc_wire.md R90 to R106,
41_adc_calibration.md R120 to R133, 42_pulse_capture.md R151 to R168); a property of a step is then one fact for each case of it. -/

open Sys2Proof.Machine Sys2Proof.Laws

namespace Sys2Proof.Issue

/-- A task is put in place; no response stands until its command ends. -/
def beginTask (k : Task) (s : State) : State := { s with task := k, rsp := none }

/-- What instruction `i`, issued in `s`, leaves before the first micro-step of its command, or at once where it makes none. -/
inductive Begins : Instr → State → State → Prop where
  | refused (i : Instr) (r : Reason) (s : State) : Begins i s (refuse r s)
  | answered (i : Instr) (v : BitVec 64) (s : State) : Begins i s (finish v s)
  | gainRow {i : Instr} {g : Byte} {sel : GainSel} {s : State}
      (hi : i = .gainCode128 ∨ i = .gainCode64 ∨ i = .gainCode32) (hg : gainSelOf g = some sel) : Begins i s (selectGain sel s)
  | setScale {c : F64} {s : State} (hc : s.adc.constructed = true) :
      Begins (.adcSetScale c) s (finish noValue { s with adc := { s.adc with scale := some c } })
  | setOffset {o : Offset} {s : State} (hc : s.adc.constructed = true) :
      Begins (.adcSetOffset o) s (finish noValue { s with adc := { s.adc with offset := some o } })
  | construct {d c : Pin} {g : Byte} {sel : GainSel} {s : State} (hc : s.adc.constructed = false) (hg : gainSelOf g = some sel) :
      Begins (.adcConstruct d c g) s (beginTask .constructOut
        { s with adc := { s.adc with gainArg := sel, dataPin := d, clockPin := c, constructed := true } })
  | setGain {g : Byte} {sel : GainSel} {s : State} (hc : s.adc.constructed = true) (hg : gainSelOf g = some sel) :
      Begins (.adcSetGain g) s (beginTask .gainLow (selectGain sel s))
  | link {i : Instr} {k : Task} {s : State} (hc : s.adc.constructed = true)
      (hik : (i = .adcIsReady ∧ k = .sampleReady) ∨ (i = .adcPowerDown ∧ k = .powerDownLow) ∨ (i = .adcPowerUp ∧ k = .powerUpLow)) :
      Begins i s (beginTask k s)
  | read {s : State} (hc : s.adc.constructed = true) : Begins .adcRead s (enterWait (beginTask (.reading .single) s))
  | mean {n : Count} {use : MeanUse} {s : State} (hc : s.adc.constructed = true) (hn : n ≠ 0#8) (ho : meanOperands use s) :
      Begins (meanCommand use n) s
        (enterWait (beginTask (.reading (.average n use)) { s with adc := { s.adc with acc := 0#32, left := n } }))
  | rotConstruct {p : Pin} {s : State} (hs : s.rot.started = false) :
      Begins (.rotConstruct p) s (finish noValue { s with rot := { s.rot with pin := some p } })
  | rotStart {s : State} (hs : s.rot.started = false) (hp : s.rot.pin.isSome = true) :
      Begins .rotStart s (beginTask (.start .configure) s)
  | getter {i : Instr} {k : Task} {s : State} (hi : i = .rotGetSpeed ∨ i = .rotGetRotates)
      (hk : ∃ reg, k = .sharedWhole reg ∨ ∃ left got, k = .sharedBytes reg left got) : Begins i s (beginTask k s)

/-! ## What every beginning leaves alone -/

theorem Begins.hist {i : Instr} {s u : State} (h : Begins i s u) : u.hist = s.hist := by cases h <;> rfl
theorem Begins.env {i : Instr} {s u : State} (h : Begins i s u) : u.env = s.env := by cases h <;> rfl

/-! ## Every instruction begins so -/

theorem runCommand_idle {s : State} (h : s.task = .idle) : runCommand s = s :=
  runSamples_of_done (by rw [need, h]) _

/-- The outcome `t` is a run of what `i` puts in place. -/
def Runs (i : Instr) (s t : State) : Prop := ∃ u, Begins i s u ∧ t = runCommand u

theorem Begins.runs {i : Instr} {s u : State} (h : Begins i s u) : Runs i s (runCommand u) := ⟨u, h, rfl⟩

theorem Begins.runs_idle {i : Instr} {s u : State} (h : Begins i s u) (hu : u.task = .idle) : Runs i s u :=
  ⟨u, h, (runCommand_idle hu).symm⟩

theorem runs_refuse (i : Instr) (r : Reason) {s : State} (hs : s.task = .idle) : Runs i s (refuse r s) :=
  (Begins.refused i r s).runs_idle hs

theorem runs_finish (i : Instr) (v : BitVec 64) (s : State) : Runs i s (finish v s) := (Begins.answered i v s).runs_idle rfl

theorem runs_of_command {i : Instr} {s t : State} {body : State → State} (h : command s body = .next t)
    (hb : s.task = .idle → Runs i s (body s)) : s.task = .idle ∧ Runs i s t := by
  obtain ⟨hs, rfl⟩ := command_next h
  exact ⟨hs, hb hs⟩

theorem runs_of_adcCommand {i : Instr} {s t : State} {body : State → State}
    (h : adcCommand s body = .next t) (hb : s.task = .idle → s.adc.constructed = true → Runs i s (body s)) :
    s.task = .idle ∧ Runs i s t := by
  refine runs_of_command h fun hs => ?_
  split
  next hc => exact hb hs hc
  next => exact runs_refuse i _ hs

theorem runs_gainRow {i : Instr} (g : Byte) {s : State} (hi : i = .gainCode128 ∨ i = .gainCode64 ∨ i = .gainCode32)
    (hs : s.task = .idle) : Runs i s (gainRow g s) := by
  unfold Machine.gainRow
  split
  next sel hg => exact (Begins.gainRow hi hg).runs_idle hs
  next => exact runs_refuse i _ hs

theorem runs_startMean (n : Count) (use : MeanUse) {s : State} (hs : s.task = .idle) (hc : s.adc.constructed = true)
    (ho : meanOperands use s) : Runs (meanCommand use n) s (if n = 0#8 then refuse .zeroCount s else startMean n use s) := by
  split
  · exact runs_refuse _ _ hs
  next hn => exact (Begins.mean hc hn ho).runs

theorem runs_startShared {i : Instr} (reg : SharedReg) (s : State)
    (hi : i = .rotGetSpeed ∨ i = .rotGetRotates) : Runs i s (startShared reg s) := by
  unfold startShared
  split
  · exact (Begins.getter hi ⟨reg, .inl rfl⟩).runs
  · exact (Begins.getter hi ⟨reg, .inr ⟨_, _, rfl⟩⟩).runs

/-- The tests of each command, in the order of its rule (R91, R223). -/
theorem exec_begins {i : Instr} {s t : State} (h : exec i s = .next t) :
    (∃ now, i = .rotEdge now ∧ t = takeEdge now s) ∨ s.task = .idle ∧ Runs i s t := by
  unfold exec at h
  cases i with
  | rotEdge now => exact .inl ⟨now, rfl, (Host.Outcome.next.inj h).symm⟩
  | adcConstruct d c g =>
    refine .inr (runs_of_command h fun hs => ?_)
    split
    · exact runs_refuse _ _ hs
    next hc =>
      split
      · exact runs_refuse _ _ hs
      next hg => exact (Begins.construct (Bool.eq_false_iff.2 hc) hg).runs
  | adcSetGain g =>
    refine .inr (runs_of_adcCommand h fun hs hc => ?_)
    split
    · exact runs_refuse _ _ hs
    next hg => exact (Begins.setGain hc hg).runs
  | adcIsReady => exact .inr (runs_of_adcCommand h fun _ hc => (Begins.link hc (.inl ⟨rfl, rfl⟩)).runs)
  | adcPowerDown => exact .inr (runs_of_adcCommand h fun _ hc => (Begins.link hc (.inr (.inl ⟨rfl, rfl⟩))).runs)
  | adcPowerUp => exact .inr (runs_of_adcCommand h fun _ hc => (Begins.link hc (.inr (.inr ⟨rfl, rfl⟩))).runs)
  | adcRead => exact .inr (runs_of_adcCommand h fun _ hc => (Begins.read hc).runs)
  | adcReadAverage n => exact .inr (runs_of_adcCommand h fun hs hc => runs_startMean n .raw hs hc trivial)
  | adcTare n => exact .inr (runs_of_adcCommand h fun hs hc => runs_startMean n .tare hs hc trivial)
  | adcGetValue n =>
    refine .inr (runs_of_adcCommand h fun hs hc => ?_)
    by_cases ho : s.adc.offset.isNone = true
    · rw [if_pos ho]
      split <;> exact runs_refuse _ _ hs
    · rw [if_neg ho]
      have hwritten : s.adc.offset.isSome = true := by simpa [Option.isSome_iff_ne_none] using ho
      exact runs_startMean n .value hs hc hwritten
  | adcGetUnits n =>
    refine .inr (runs_of_adcCommand h fun hs hc => ?_)
    by_cases ho : (s.adc.offset.isNone || s.adc.scale.isNone) = true
    · rw [if_pos ho]
      split <;> exact runs_refuse _ _ hs
    · rw [if_neg ho]
      have hwritten : s.adc.offset.isSome = true ∧ s.adc.scale.isSome = true := by
        simpa [Option.isSome_iff_ne_none] using ho
      exact runs_startMean n .units hs hc hwritten
  | adcGetLastUnits =>
    refine .inr (runs_of_adcCommand h fun hs _ => ?_)
    split
    · exact runs_finish _ _ s
    · exact runs_refuse _ _ hs
  | adcSetScale c => exact .inr (runs_of_adcCommand h fun _ hc => (Begins.setScale hc).runs_idle rfl)
  | adcSetOffset o => exact .inr (runs_of_adcCommand h fun _ hc => (Begins.setOffset hc).runs_idle rfl)
  | adcGetScale =>
    refine .inr (runs_of_adcCommand h fun hs _ => ?_)
    split
    · exact runs_finish _ _ s
    · exact runs_refuse _ _ hs
  | adcGetOffset =>
    refine .inr (runs_of_adcCommand h fun hs _ => ?_)
    split
    · exact runs_finish _ _ s
    · exact runs_refuse _ _ hs
  | rotConstruct p =>
    refine .inr (runs_of_command h fun _ => ?_)
    split
    · exact runs_finish _ _ s
    next hn => exact (Begins.rotConstruct (Bool.eq_false_iff.2 hn)).runs_idle rfl
  | rotStart =>
    refine .inr (runs_of_command h fun hs => ?_)
    split
    · exact runs_finish _ _ s
    next hn =>
      split
      · exact runs_refuse _ _ hs
      next hp => exact (Begins.rotStart (Bool.eq_false_iff.2 hn) (Option.isSome_of_eq_some hp)).runs
  | rotGetSpeed => exact .inr (runs_of_command h fun _ => runs_startShared .speed s (.inl rfl))
  | rotGetRotates => exact .inr (runs_of_command h fun _ => runs_startShared .rotates s (.inr rfl))
  | gainCode128 => exact .inr (runs_of_command h (runs_gainRow _ (.inl rfl)))
  | gainCode64 => exact .inr (runs_of_command h (runs_gainRow _ (.inr (.inl rfl))))
  | gainCode32 => exact .inr (runs_of_command h (runs_gainRow _ (.inr (.inr rfl))))

end Sys2Proof.Issue
end

section
/-! PROOF. The two units share nothing (10_state.md R10, R32): a micro-step of one unit's command touches no register of the other's,
and no edge is taken where none is to come. -/

open Sys2Proof.Machine Sys2Proof.Laws Sys2Proof.Issue

namespace Sys2Proof.Units

/-! ## Changes of the environment that leave the edges -/

/-- The edges to come are the same, those listed and those that go on past them. -/
structure SameEdges (e e' : Env) : Prop where
  edges : e'.edges = e.edges
  goOn : e'.edgesGoOn = e.edgesGoOn
  drawn : e'.drawn.edges = e.drawn.edges

theorem SameEdges.refl (e : Env) : SameEdges e e := ⟨rfl, rfl, rfl⟩

theorem SameEdges.noEdges {e e' : Env} (h : SameEdges e e') (hn : noEdges e) : noEdges e' :=
  ⟨h.edges.trans hn.1, h.goOn.trans hn.2⟩

theorem nextPick_sameEdges (e : Env) : SameEdges e (nextPick e).2 := by
  unfold nextPick
  split
  · exact ⟨rfl, rfl, rfl⟩
  · split <;> exact ⟨rfl, rfl, rfl⟩

theorem readByte_sameEdges (reg : SharedReg) (left : List Nat) (got : F64) (s : State) :
    SameEdges s.env (readByte reg left got s).env := by
  unfold readByte
  simp only
  split
  · exact nextPick_sameEdges s.env
  · split <;> exact nextPick_sameEdges s.env

/-- No micro-step touches the edges to come. -/
theorem microStep_sameEdges (l : Level) (t : Time) (s : State) : SameEdges s.env (microStep l t s).env := by
  cases hk : s.task with
  | reading use => rw [microStep, hk, readStep_env]; exact .refl _
  | start pos => rw [microStep, hk, startStep_env]; exact .refl _
  | sharedBytes reg left got => rw [microStep, hk]; exact readByte_sameEdges reg left got s
  | _ => rw [microStep, hk]; exact .refl _

/-! ## A run, where only turns touch the edges -/

section Run
variable {P : State → Prop} (hturn : ∀ l t s, P s → P (turn l t s))
  (henv : ∀ e s, SameEdges s.env e → P s → P { s with env := e })
include hturn henv

theorem settle_keeps_of_sameEdges : ∀ n s, P s → P (settle n s)
  | 0, _, h => h
  | n + 1, s, h => by
    unfold settle
    split
    · exact h
    · exact h
    · exact settle_keeps_of_sameEdges n _ (hturn _ _ _ h)
    · split
      · exact h
      · refine settle_keeps_of_sameEdges n _ ?_
        unfold clockTurn
        split
        · exact h
        · exact hturn _ _ _ (henv _ s ⟨rfl, rfl, rfl⟩ h)

theorem runSamples_keeps_of_sameEdges : ∀ n s, P s → P (runSamples n s)
  | 0, s, h => settle_keeps_of_sameEdges hturn henv settleBound s h
  | n + 1, s, h => by
    have hs := settle_keeps_of_sameEdges hturn henv settleBound s h
    unfold runSamples
    simp only
    split
    · refine runSamples_keeps_of_sameEdges n _ ?_
      unfold levelTurn
      split
      · exact hs
      · exact hturn _ _ _ (henv _ _ ⟨rfl, rfl, rfl⟩ hs)
    all_goals exact hs

theorem runCommand_keeps_of_sameEdges {s : State} (h : P s) : P (runCommand s) :=
  runSamples_keeps_of_sameEdges hturn henv _ s h

omit hturn in
theorem supply_keeps_of_sameEdges {s : State} (h : P s) : P (supply s) := by
  unfold supply
  split
  · split
    · exact henv _ s ⟨rfl, rfl, rfl⟩ h
    · exact h
  · split
    · exact henv _ s ⟨rfl, rfl, rfl⟩ h
    · exact h
  · exact h
  · exact h

end Run

/-! ## When the interrupt is enabled -/

theorem edgeEnabled_congr {s t : State} (hpin : t.rot.pin = s.rot.pin) (hhandler : t.gpio.handler = s.gpio.handler) :
    edgeEnabled t = edgeEnabled s := by rw [edgeEnabled, edgeEnabled, hpin, hhandler]

/-! ## The micro-steps of each unit -/

/-- The micro-steps of the ADC unit's commands (R90 to R128). -/
def adcTask : Task → Bool
  | .sampleReady | .constructOut | .constructIn | .gainLow | .reading _ | .powerDownLow | .powerDownHigh | .powerUpLow => true
  | .idle | .start _ | .sharedWhole _ | .sharedBytes _ _ _ => false

/-- The micro-steps of the pulse-timing unit's commands (R155, R168). -/
def pulseTask : Task → Bool
  | .start _ | .sharedWhole _ | .sharedBytes _ _ _ => true
  | .idle | .sampleReady | .constructOut | .constructIn | .gainLow | .reading _ | .powerDownLow | .powerDownHigh
  | .powerUpLow => false

/-- From `s` to `t` no command of the pulse-timing unit has run: its registers, the handler and the clock are as they were. -/
structure PulseSideKept (s t : State) : Prop where
  rot : t.rot = s.rot
  handler : t.gpio.handler = s.gpio.handler
  now : t.gpio.now = s.gpio.now
  cfg : t.cfg = s.cfg
  task : pulseTask t.task = false

/-- From `s` to `t` no command of the ADC unit has run: its registers and the pins' levels are as they were. -/
structure AdcSideKept (s t : State) : Prop where
  adc : t.adc = s.adc
  out : t.gpio.out = s.gpio.out
  cfg : t.cfg = s.cfg
  task : adcTask t.task = false

theorem PulseSideKept.trans {s t u : State} (h : PulseSideKept s t) (h' : PulseSideKept t u) : PulseSideKept s u :=
  ⟨h'.rot.trans h.rot, h'.handler.trans h.handler, h'.now.trans h.now, h'.cfg.trans h.cfg, h'.task⟩

theorem AdcSideKept.trans {s t u : State} (h : AdcSideKept s t) (h' : AdcSideKept t u) : AdcSideKept s u :=
  ⟨h'.adc.trans h.adc, h'.out.trans h.out, h'.cfg.trans h.cfg, h'.task⟩

theorem pollReady_pulseSide {s : State} (l : Level) (h : pulseTask s.task = false) : PulseSideKept s (pollReady l s) := by
  unfold pollReady
  cases l
  · exact ⟨rfl, rfl, rfl, rfl, h⟩
  · simp only
    split
    · exact ⟨rfl, rfl, rfl, rfl, h⟩
    · split
      · exact ⟨rfl, rfl, rfl, rfl, rfl⟩
      · exact ⟨rfl, rfl, rfl, rfl, h⟩

theorem finishMean_pulseSide (u : MeanUse) (m : Raw) (s : State) : PulseSideKept s (finishMean u m s) := by
  cases u with
  | raw | tare => exact ⟨rfl, rfl, rfl, rfl, rfl⟩
  | value | units =>
    simp only [finishMean]
    split <;> exact ⟨rfl, rfl, rfl, rfl, rfl⟩

theorem packRead_pulseSide (use : ReadUse) {s : State} (h : pulseTask s.task = false) : PulseSideKept s (packRead use s) := by
  unfold packRead
  cases use with
  | dummy | single => exact ⟨rfl, rfl, rfl, rfl, rfl⟩
  | average n u =>
    simp only
    split
    · refine PulseSideKept.trans ?_ (finishMean_pulseSide u _ _)
      exact ⟨rfl, rfl, rfl, rfl, h⟩
    · exact ⟨rfl, rfl, rfl, rfl, h⟩

theorem readStep_pulseSide (use : ReadUse) (l : Level) {s : State} (h : pulseTask s.task = false) :
    PulseSideKept s (readStep use l s) := by
  cases hq : s.adc.seq with
  | idle => rw [readStep, hq]; exact ⟨rfl, rfl, rfl, rfl, h⟩
  | wait => rw [readStep, hq]; exact pollReady_pulseSide l h
  | shift i phase => cases phase <;> rw [readStep, hq] <;> exact ⟨rfl, rfl, rfl, rfl, h⟩
  | gainp j phase => cases phase <;> rw [readStep, hq] <;> exact ⟨rfl, rfl, rfl, rfl, h⟩
  | pack => rw [readStep, hq]; exact packRead_pulseSide use h

theorem microStep_pulseSide (l : Level) (t : Time) {s : State} (h : pulseTask s.task = false) :
    PulseSideKept s (microStep l t s) := by
  cases hk : s.task with
  | idle => rw [microStep, hk]; exact ⟨rfl, rfl, rfl, rfl, h⟩
  | reading use => rw [microStep, hk]; exact readStep_pulseSide use l h
  | start | sharedWhole | sharedBytes => rw [hk] at h; cases h
  | _ => rw [microStep, hk]; exact ⟨rfl, rfl, rfl, rfl, rfl⟩

theorem startStep_adcSide (pos : StartPos) (t : Time) (s : State) : AdcSideKept s (startStep pos t s) := by
  unfold startStep
  split
  · exact ⟨rfl, rfl, rfl, rfl⟩
  · cases pos <;> exact ⟨rfl, rfl, rfl, rfl⟩

theorem readByte_adcSide (reg : SharedReg) (left : List Nat) (got : F64) (s : State) :
    AdcSideKept s (readByte reg left got s) := by
  unfold readByte
  simp only
  split
  · exact ⟨rfl, rfl, rfl, rfl⟩
  · split <;> exact ⟨rfl, rfl, rfl, rfl⟩

theorem microStep_adcSide (l : Level) (t : Time) {s : State} (h : adcTask s.task = false) : AdcSideKept s (microStep l t s) := by
  cases hk : s.task with
  | idle => rw [microStep, hk]; exact ⟨rfl, rfl, rfl, h⟩
  | start pos => rw [microStep, hk]; exact startStep_adcSide pos t s
  | sharedWhole reg => rw [microStep, hk]; exact ⟨rfl, rfl, rfl, rfl⟩
  | sharedBytes reg left got => rw [microStep, hk]; exact readByte_adcSide reg left got s
  | _ => rw [hk] at h; cases h

theorem takeEdge_adcSide (t : Time) {s : State} (h : adcTask s.task = false) : AdcSideKept s (takeEdge t s) := by
  obtain ⟨-, heq⟩ | ⟨-, heq⟩ := takeEdge_cases t s <;> rw [heq] <;> exact ⟨rfl, rfl, rfl, h⟩

/-! ## A command of each unit -/

/-- A run of a command of the pulse-timing unit, whatever edges arrive. -/
theorem runCommand_adcSide {s : State} (h : adcTask s.task = false) : AdcSideKept s (runCommand s) :=
  runCommand_keeps (P := AdcSideKept s) (fun t _ hv => hv.trans (takeEdge_adcSide t hv.task))
    (fun l t _ hv => hv.trans (microStep_adcSide l t hv.task)) (fun _ _ hv => ⟨hv.adc, hv.out, hv.cfg, hv.task⟩) ⟨rfl, rfl, rfl, h⟩

/-- A run of a command of the ADC unit with no edge to come. -/
theorem runCommand_pulseSide {s : State} (hq : quiet s) (h : pulseTask s.task = false) : PulseSideKept s (runCommand s) := by
  refine (runCommand_keeps_of_sameEdges (P := fun v => quiet v ∧ PulseSideKept s v) ?_ ?_ ⟨hq, rfl, rfl, rfl, rfl, h⟩).2
  · intro l t v ⟨hv, hkept⟩
    rw [turn_quiet l t hv]
    exact ⟨(microStep_sameEdges l t v).noEdges hv, hkept.trans (microStep_pulseSide l t hkept.task)⟩
  · exact fun e v he ⟨hv, hkept⟩ => ⟨he.noEdges hv, hkept.rot, hkept.handler, hkept.now, hkept.cfg, hkept.task⟩

/-- The commands and the event of the pulse-timing unit (R70). -/
def isPulse : Instr → Bool
  | .rotConstruct _ | .rotStart | .rotGetSpeed | .rotGetRotates | .rotEdge _ => true
  | _ => false

theorem Begins.adcSide {i : Instr} {s u : State} (hb : Begins i s u) (hk : s.task = .idle) (hi : isPulse i = true) :
    AdcSideKept s u := by
  have hidle : adcTask s.task = false := by rw [hk]; rfl
  cases hb with
  | refused => exact ⟨rfl, rfl, rfl, hidle⟩
  | answered | rotConstruct | rotStart => exact ⟨rfl, rfl, rfl, rfl⟩
  | getter _ hk' =>
    obtain ⟨reg, rfl | ⟨left, got, rfl⟩⟩ := hk' <;> exact ⟨rfl, rfl, rfl, rfl⟩
  | gainRow hrow => obtain rfl | rfl | rfl := hrow <;> cases hi
  | link _ hik => obtain ⟨rfl, -⟩ | ⟨rfl, -⟩ | ⟨rfl, -⟩ := hik <;> cases hi
  | @mean _ use => cases use <;> cases hi
  | _ => cases hi

theorem Begins.pulseSide {i : Instr} {s u : State} (hb : Begins i s u) (hk : s.task = .idle) (hi : i.isAdc = true) :
    PulseSideKept s u := by
  have hidle : pulseTask s.task = false := by rw [hk]; rfl
  cases hb with
  | refused | gainRow => exact ⟨rfl, rfl, rfl, rfl, hidle⟩
  | link _ hik => obtain ⟨-, rfl⟩ | ⟨-, rfl⟩ | ⟨-, rfl⟩ := hik <;> exact ⟨rfl, rfl, rfl, rfl, rfl⟩
  | getter hgetter => obtain rfl | rfl := hgetter <;> cases hi
  | rotConstruct | rotStart => cases hi
  | _ => exact ⟨rfl, rfl, rfl, rfl, rfl⟩

/-- Settles O50: each command's micro-steps are those of its own unit, and without edges to come no handler runs between them. -/
theorem theUnitsShareNothing : Obligations.TheUnitsShareNothing := by
  unfold Obligations.TheUnitsShareNothing
  intro i s t h
  obtain ⟨now, rfl, rfl⟩ | ⟨hk, u, hb, rfl⟩ := exec_begins h
  · refine ⟨fun _ => ⟨takeEdge_adc now s, ?_, takeEdge_cfg now s⟩, nofun⟩
    obtain ⟨-, heq⟩ | ⟨-, heq⟩ := takeEdge_cases now s <;> rw [heq]
  · refine ⟨fun hi => ?_, fun hi hq => ?_⟩
    · have hpulse : isPulse i = true := by
        obtain rfl | rfl | rfl | ⟨p, rfl⟩ | ⟨now, rfl⟩ := hi <;> rfl
      have hu := Begins.adcSide hb hk hpulse
      have hrun := hu.trans (runCommand_adcSide hu.task)
      exact ⟨hrun.adc, hrun.out, hrun.cfg⟩
    · have hu := Begins.pulseSide hb hk hi
      have hquiet : quiet u := by rw [quiet, hb.env]; exact hq
      have hrun := hu.trans (runCommand_pulseSide hquiet hu.task)
      exact ⟨hrun.rot, hrun.handler, hrun.now, hrun.cfg⟩

end Sys2Proof.Units
end

section
/-! PROOF. The invariant holds after power-on and every step keeps it. It is first read task by task (`sound_of_inv`, `inv_of_sound`):
for each micro-step the main-line context may be at, what it says of the ADC unit's registers and what of the pulse-timing unit's. A
micro-step then moves from the reading of one task to that of the next; an edge and an answer of the environment move nothing. -/

open Sys2Proof.Machine Sys2Proof.Laws Sys2Proof.Issue Sys2Proof.Units

namespace Sys2Proof.Invariant

/-! ## The invariant, task by task -/

/-- The reads of a mean that are done and those that are left, and the registers its end reads (R27, R120, R122, R124). -/
def readFits (use : ReadUse) (s : State) : Prop :=
  match use with
  | .dummy | .single => True
  | .average n use =>
    (0 < s.adc.left.toNat ∧ s.adc.left.toNat ≤ n.toNat ∧
      s.adc.acc.toNat ≤ (n.toNat - s.adc.left.toNat) * (2 ^ 24 - 1)) ∧ meanOperands use s

/-- A gain pulse has a number from 1 to `adc.gainSel` (R25). -/
def pulsesFit (s : State) : Prop := ∀ j p, s.adc.seq = .gainp j p → 0 < j.toNat ∧ j.toNat ≤ s.adc.gainSel.toNat

/-- Nothing has been written, or the selector is legal (R13, R91). -/
def bareOrLegal (s : State) : Prop :=
  (s.adc.constructed = false →
      s.adc.gainSel = 0#2 ∧ s.adc.scale = none ∧ s.adc.offset = none ∧ s.adc.lastRawReading = none) ∧
    (s.adc.constructed = true → s.adc.gainSel ≠ 0#2)

/-- What the invariant says of the ADC unit at each micro-step. -/
def adcSound (s : State) : Task → Prop
  | .constructOut | .constructIn | .gainLow => s.adc.constructed = true ∧ s.adc.gainArg ≠ 0#2 ∧ s.adc.seq = .idle
  | .sampleReady | .powerDownLow | .powerDownHigh | .powerUpLow =>
    s.adc.constructed = true ∧ s.adc.gainSel ≠ 0#2 ∧ s.adc.seq = .idle
  | .reading use =>
    s.adc.constructed = true ∧ s.adc.gainSel ≠ 0#2 ∧ s.adc.seq ≠ .idle ∧ pulsesFit s ∧ readFits use s
  | .idle | .start _ | .sharedWhole _ | .sharedBytes _ _ _ => bareOrLegal s ∧ s.adc.seq = .idle

/-- What the invariant says of the pulse-timing unit at each micro-step (R150, R155). -/
def pulseSound (s : State) : Task → Prop
  | .start .flip => s.rot.started = false ∧ s.rot.pin.isSome = true ∧ edgeEnabled s = true
  | .start .configure | .start .now | .start .attach =>
    s.rot.started = false ∧ s.rot.pin.isSome = true ∧ s.gpio.handler = []
  | .idle | .sampleReady | .constructOut | .constructIn | .gainLow | .reading _ | .powerDownLow | .powerDownHigh | .powerUpLow
  | .sharedWhole _ | .sharedBytes _ _ _ =>
    (s.rot.started = true → edgeEnabled s = true) ∧ (s.rot.started = false → s.gpio.handler = [])

/-! ### From the clauses to the reading -/

theorem constructed_of_inv {s : State} (h : s.Inv) (hk : adcTask s.task = true) : s.adc.constructed = true := by
  cases hc : s.adc.constructed with
  | true => rfl
  | false =>
    obtain ⟨-, -, -, -, htask⟩ := h.bare hc
    obtain htask | ⟨p, htask⟩ | ⟨r, htask⟩ | ⟨r, left, got, htask⟩ := htask <;> rw [htask] at hk <;> cases hk

theorem seq_idle_of_inv {s : State} (h : s.Inv) (hk : ∀ use, s.task ≠ .reading use) : s.adc.seq = .idle := by
  obtain ⟨hiff, -⟩ := h.seq
  refine Decidable.byContradiction fun hq => ?_
  obtain ⟨use, huse⟩ := hiff.2 hq
  exact hk use huse

theorem bareOrLegal_of_inv {s : State} (h : s.Inv) (hk : gainPending s.task = false) : bareOrLegal s := by
  obtain ⟨hlegal, -⟩ := h.gain
  refine ⟨fun hc => ?_, fun hc => hlegal hc hk⟩
  obtain ⟨hsel, hscale, hoffset, hlast, -⟩ := h.bare hc
  exact ⟨hsel, hscale, hoffset, hlast⟩

theorem readFits_of_inv {s : State} {use : ReadUse} (h : s.Inv) (hk : s.task = .reading use) : readFits use s := by
  obtain ⟨hvalue, hunits, -⟩ := h.operands
  cases use with
  | dummy | single => trivial
  | average n u =>
    refine ⟨h.acc n u hk, ?_⟩
    cases u with
    | raw | tare => trivial
    | value => exact hvalue n hk
    | units => exact hunits n hk

theorem adcSound_of_inv {s : State} (h : s.Inv) : adcSound s s.task := by
  obtain ⟨hlegal, hpending⟩ := h.gain
  obtain ⟨hreading, hpulses⟩ := h.seq
  have hconstructed := constructed_of_inv h
  have hidle := seq_idle_of_inv h
  have hbare := bareOrLegal_of_inv h
  cases hk : s.task with rw [hk] at hlegal hpending hconstructed hidle hbare
  | constructOut | constructIn | gainLow => exact ⟨hconstructed rfl, hpending rfl, hidle nofun⟩
  | sampleReady | powerDownLow | powerDownHigh | powerUpLow =>
    exact ⟨hconstructed rfl, hlegal (hconstructed rfl) rfl, hidle nofun⟩
  | reading use =>
    exact ⟨hconstructed rfl, hlegal (hconstructed rfl) rfl, hreading.1 ⟨use, hk⟩, hpulses, readFits_of_inv h hk⟩
  | idle | start | sharedWhole | sharedBytes => exact ⟨hbare rfl, hidle nofun⟩

theorem pulseSound_of_inv {s : State} (h : s.Inv) : pulseSound s s.task := by
  obtain ⟨-, -, hpin⟩ := h.operands
  obtain ⟨hstarted, hflip, hnone, hstart⟩ := h.pulse
  cases hk : s.task with rw [hk] at hpin hflip hnone hstart
  | start pos =>
    cases pos with
    | flip => exact ⟨hstart _ rfl, hpin _ rfl, hflip rfl⟩
    | configure | now | attach => exact ⟨hstart _ rfl, hpin _ rfl, hnone (hstart _ rfl) nofun⟩
  | _ => exact ⟨hstarted, fun hs => hnone hs nofun⟩

/-! ### From the reading back to the clauses -/

theorem unconstructedIsBare_of_sound {s : State} (h : adcSound s s.task) : unconstructedIsBare s := by
  intro hc
  cases hk : s.task with rw [hk] at h
  | idle | start | sharedWhole | sharedBytes =>
    obtain ⟨⟨hbare, -⟩, -⟩ := h
    obtain ⟨hsel, hscale, hoffset, hlast⟩ := hbare hc
    exact ⟨hsel, hscale, hoffset, hlast, by simp⟩
  | _ => exact absurd (hc.symm.trans h.1) (by decide)

theorem gainIsLegal_of_sound {s : State} (h : adcSound s s.task) : gainIsLegal s := by
  unfold gainIsLegal
  cases hk : s.task with rw [hk] at h
  | constructOut | constructIn | gainLow =>
    obtain ⟨-, harg, -⟩ := h
    exact ⟨nofun, fun _ => harg⟩
  | sampleReady | powerDownLow | powerDownHigh | powerUpLow | reading =>
    obtain ⟨-, hsel, -⟩ := h
    exact ⟨fun _ _ => hsel, nofun⟩
  | idle | start | sharedWhole | sharedBytes =>
    obtain ⟨⟨-, hlegal⟩, -⟩ := h
    exact ⟨fun hc _ => hlegal hc, nofun⟩

theorem sequencerIsSound_of_sound {s : State} (h : adcSound s s.task) : sequencerIsSound s := by
  have hidle : s.adc.seq = .idle → (∀ use, s.task ≠ .reading use) → sequencerIsSound s := fun hq hk =>
    ⟨⟨fun ⟨use, huse⟩ => absurd huse (hk use), fun hne => absurd hq hne⟩, fun j p hj => nomatch hq.symm.trans hj⟩
  cases hk : s.task with rw [hk] at h
  | reading use =>
    obtain ⟨-, -, hq, hpulses, -⟩ := h
    exact ⟨⟨fun _ => hq, fun _ => ⟨use, hk⟩⟩, hpulses⟩
  | idle | start | sharedWhole | sharedBytes => exact hidle h.2 (by rw [hk]; exact nofun)
  | _ =>
    obtain ⟨-, -, hq⟩ := h
    exact hidle hq (by rw [hk]; exact nofun)

theorem readFits_of_sound {s : State} {use : ReadUse} (h : adcSound s s.task) (hk : s.task = .reading use) :
    readFits use s := by
  rw [hk] at h
  obtain ⟨-, -, -, -, hfits⟩ := h
  exact hfits

theorem pulseSound_start {p : StartPos} {s : State} (h : pulseSound s (.start p)) :
    s.rot.started = false ∧ s.rot.pin.isSome = true := by
  cases p <;> exact ⟨h.1, h.2.1⟩

theorem operandsWritten_of_sound {s : State} (h : adcSound s s.task) (hpulse : pulseSound s s.task) : operandsWritten s :=
  ⟨fun _ hk => (readFits_of_sound h hk).2, fun _ hk => (readFits_of_sound h hk).2, fun _ hk => (pulseSound_start (hk ▸ hpulse)).2⟩

theorem pulseUnitIsSound_of_sound {s : State} (h : pulseSound s s.task) : pulseUnitIsSound s := by
  unfold pulseUnitIsSound
  cases hk : s.task with rw [hk] at h
  | start pos =>
    obtain ⟨hs, -⟩ := pulseSound_start h
    have hnever : s.rot.started = true → edgeEnabled s = true := fun hs' => absurd (hs.symm.trans hs') (by decide)
    cases pos with
    | flip =>
      obtain ⟨-, -, henabled⟩ := h
      exact ⟨hnever, fun _ => henabled, fun _ hne => absurd rfl hne, fun _ _ => hs⟩
    | configure | now | attach =>
      obtain ⟨-, -, hnone⟩ := h
      exact ⟨hnever, nofun, fun _ _ => hnone, fun _ _ => hs⟩
  | _ =>
    obtain ⟨hstarted, hnone⟩ := h
    exact ⟨hstarted, nofun, fun hs _ => hnone hs, nofun⟩

/-- The invariant, read at task `k`. -/
structure Sound (k : Task) (s : State) : Prop where
  maps : mapsCanonical s
  readings : readingsFit s
  adc : adcSound s k
  pulse : pulseSound s k

theorem sound_of_inv {k : Task} {s : State} (hk : s.task = k) (h : s.Inv) : Sound k s :=
  hk ▸ ⟨h.maps, h.readings, adcSound_of_inv h, pulseSound_of_inv h⟩

theorem inv_of_sound {k : Task} {s : State} (hk : s.task = k) (h : Sound k s) : s.Inv := by
  obtain ⟨hmaps, hread, hadc, hpulse⟩ := h
  subst hk
  exact ⟨hmaps, hread, unconstructedIsBare_of_sound hadc, gainIsLegal_of_sound hadc, sequencerIsSound_of_sound hadc,
    fun _ _ hk => (readFits_of_sound hadc hk).1, operandsWritten_of_sound hadc hpulse, pulseUnitIsSound_of_sound hpulse⟩

/-! ## The rules of the readings -/

theorem bareOrLegal_of_legal {s : State} (hc : s.adc.constructed = true) (hg : s.adc.gainSel ≠ 0#2) : bareOrLegal s :=
  ⟨fun h => absurd (hc.symm.trans h) (by decide), fun _ => hg⟩

theorem pulseSound_congr {s t : State} {k : Task} (h : pulseSound s k) (hstarted : t.rot.started = s.rot.started)
    (hpin : t.rot.pin = s.rot.pin) (hhandler : t.gpio.handler = s.gpio.handler) : pulseSound t k := by
  unfold pulseSound at h ⊢
  rw [hstarted, hpin, hhandler, edgeEnabled_congr hpin hhandler]
  exact h

theorem mapsCanonical_pinWrite (p : Pin) (l : Level) {s : State} (h : mapsCanonical s) : mapsCanonical (pinWrite p l s) :=
  ⟨h.1, pinSet_pinsRising _ _ _ h.2.1, h.2.2⟩

theorem mapsCanonical_pinConfigOutput (p : Pin) {s : State} (h : mapsCanonical s) : mapsCanonical (pinConfigOutput p s) :=
  ⟨pinSet_pinsRising _ _ _ h.1, h.2⟩

theorem mapsCanonical_pinConfigInput (p : Pin) (b : Bool) {s : State} (h : mapsCanonical s) :
    mapsCanonical (pinConfigInput p b s) :=
  ⟨pinSet_pinsRising _ _ _ h.1, h.2⟩

theorem mapsCanonical_attachFalling (p : Pin) {s : State} (h : mapsCanonical s) : mapsCanonical (attachFalling p s) :=
  ⟨h.1, h.2.1, pinSet_pinsRising _ _ _ h.2.2⟩

/-! ## Edges and answers -/

theorem takeEdge_inv (t : Time) (s : State) (h : s.Inv) : (takeEdge t s).Inv := by
  obtain ⟨hmaps, hread, hadc, hpulse⟩ := sound_of_inv rfl h
  obtain ⟨-, heq⟩ | ⟨-, heq⟩ := takeEdge_cases t s
  · rw [heq]
    exact h
  · rw [heq]
    exact inv_of_sound rfl ⟨hmaps, hread, hadc, pulseSound_congr hpulse (edgeHandler_started t s.rot) (edgeHandler_pin t s.rot) rfl⟩

theorem env_inv (e : Env) (s : State) (h : s.Inv) : { s with env := e }.Inv := by
  obtain ⟨hmaps, hread, hadc, hpulse⟩ := sound_of_inv rfl h
  exact inv_of_sound rfl ⟨hmaps, hread, hadc, hpulse⟩

/-! ## The end of a command -/

/-- A command of the ADC unit ends: the sequencer IDLE, the selector legal. -/
theorem respond_inv_of_adc (r : Response) {s : State} (hmaps : mapsCanonical s) (hread : readingsFit s)
    (hc : s.adc.constructed = true) (hg : s.adc.gainSel ≠ 0#2) (hq : s.adc.seq = .idle) (hpulse : pulseSound s .idle) :
    (respond r s).Inv :=
  inv_of_sound (k := .idle) rfl ⟨hmaps, hread, ⟨bareOrLegal_of_legal hc hg, hq⟩, hpulse⟩

/-! ## The micro-steps of a read (R25, R95) -/

theorem afterFall_ne_idle (sel : GainSel) (i : Fin Config.dataBits) : afterFall sel i ≠ .idle := by
  unfold afterFall
  split
  · split <;> exact nofun
  · exact nofun

/-- The first gain pulse is number 1. -/
theorem afterFall_gainp {sel j : GainSel} {i : Fin Config.dataBits} {p : GainPhase} (h : afterFall sel i = .gainp j p) :
    0 < j.toNat ∧ j.toNat ≤ sel.toNat := by
  unfold afterFall at h
  split at h
  · split at h
    · cases h
    next hsel =>
      cases h
      exact ⟨by decide, Nat.pos_of_ne_zero fun h0 => hsel (BitVec.eq_of_toNat_eq h0)⟩
  · cases h

theorem afterGain_ne_idle (sel j : GainSel) : afterGain sel j ≠ .idle := by
  unfold afterGain
  split <;> exact nofun

/-- The next gain pulse is no later than the last. -/
theorem afterGain_gainp {sel j j' : GainSel} {p : GainPhase} (h : afterGain sel j = .gainp j' p) :
    0 < j'.toNat ∧ j'.toNat ≤ sel.toNat := by
  unfold afterGain at h
  split at h
  next hlt =>
    cases h
    have := sel.isLt
    rw [BitVec.toNat_add_of_lt (by simp; omega)]
    simp
    omega
  next => cases h

/-! ## The accumulator and the mean (R27, R134) -/

theorem codeWord_lt (c : Code) : (codeWord c).toNat < 2 ^ 24 := by
  rw [codeWord, BitVec.toNat_setWidth_of_le (by decide)]
  exact c.isLt

theorem readingsFit_of {r : Raw} {s : State} (hr : s.adc.lastRawReading = some r) (hlt : r.toNat < 2 ^ 24) : readingsFit s := by
  intro r' hr'
  obtain rfl := Option.some.inj (hr'.symm.trans hr)
  exact hlt

theorem left_sub_one {left : Count} (h : 0 < left.toNat) : (left - 1#8).toNat = left.toNat - 1 :=
  BitVec.toNat_sub_of_le (y := 1#8) (BitVec.le_def.2 h)

/-- One more code below 2^24 added to the sum of those done. -/
theorem acc_add_fits {acc : Acc} {left n : Count} (c : Code) (hpos : 0 < left.toNat) (hle : left.toNat ≤ n.toNat)
    (hacc : acc.toNat ≤ (n.toNat - left.toNat) * (2 ^ 24 - 1)) :
    (acc + codeWord c).toNat ≤ (n.toNat - (left - 1#8).toNat) * (2 ^ 24 - 1) := by
  have hc := codeWord_lt c
  have hn := count_lt n
  have hadd : (acc + codeWord c).toNat ≤ acc.toNat + (codeWord c).toNat := by
    rw [BitVec.toNat_add]
    exact Nat.mod_le _ _
  rw [left_sub_one hpos]
  omega

/-- The mean of codes below 2^24 is below 2^24. -/
theorem meanOf_lt {acc : Acc} {n : Count} (h : acc.toNat ≤ n.toNat * (2 ^ 24 - 1)) : (meanOf acc n).toNat < 2 ^ 24 := by
  rw [meanOf, BitVec.toNat_udiv, BitVec.toNat_setWidth_of_le (by decide)]
  have := Nat.div_le_of_le_mul h
  omega

theorem finishMean_inv {u : MeanUse} {m : Raw} {s : State} (hm : m.toNat < 2 ^ 24) (hmaps : mapsCanonical s)
    (hc : s.adc.constructed = true) (hg : s.adc.gainSel ≠ 0#2) (hq : s.adc.seq = .idle) (hpulse : pulseSound s .idle) :
    (finishMean u m s).Inv := by
  cases u with
  | raw | tare => exact respond_inv_of_adc _ hmaps (readingsFit_of rfl hm) hc hg hq hpulse
  | value | units =>
    simp only [finishMean]
    split <;> exact respond_inv_of_adc _ hmaps (readingsFit_of rfl hm) hc hg hq hpulse

section Read
variable {s : State} {use : ReadUse} (hk : s.task = .reading use) (h : s.Inv)
include hk h

theorem pollReady_inv (l : Level) : (pollReady l s).Inv := by
  obtain ⟨hmaps, hread, ⟨hc, hg, hq, hfit, hreads⟩, hpulse⟩ := sound_of_inv hk h
  cases l
  · exact inv_of_sound hk ⟨hmaps, hread, ⟨hc, hg, nofun, nofun, hreads⟩, hpulse⟩
  · simp only [pollReady]
    have hpolled : { pinRead s.adc.dataPin .high s with adc := { s.adc with polls := s.adc.polls + 1 } }.Inv :=
      inv_of_sound hk ⟨hmaps, hread, ⟨hc, hg, hq, hfit, hreads⟩, hpulse⟩
    split
    · exact hpolled
    · split
      · exact respond_inv_of_adc _ hmaps hread hc hg rfl hpulse
      · exact hpolled

theorem packRead_inv : (packRead use s).Inv := by
  obtain ⟨hmaps, hread, ⟨hc, hg, hq, hfit, hreads⟩, hpulse⟩ := sound_of_inv hk h
  unfold packRead
  cases use with
  | dummy => exact respond_inv_of_adc _ hmaps (readingsFit_of rfl (codeWord_lt _)) hc hg rfl hpulse
  | single => exact respond_inv_of_adc _ hmaps (readingsFit_of rfl (codeWord_lt _)) hc hg rfl hpulse
  | average n u =>
    obtain ⟨⟨hpos, hle, hacc⟩, hready⟩ := hreads
    have hsum := acc_add_fits (storedCode s.adc.shreg) hpos hle hacc
    simp only
    split
    next hleft =>
      rw [hleft, BitVec.toNat_zero, Nat.sub_zero] at hsum
      exact finishMean_inv (meanOf_lt hsum) hmaps hc hg rfl hpulse
    next hleft =>
      have hpos' : 0 < (s.adc.left - 1#8).toNat := Nat.pos_of_ne_zero fun h0 => hleft (BitVec.eq_of_toNat_eq h0)
      have hle' : (s.adc.left - 1#8).toNat ≤ n.toNat := by
        rw [left_sub_one hpos]
        omega
      exact inv_of_sound hk ⟨hmaps, readingsFit_of rfl (codeWord_lt _),
        ⟨hc, hg, nofun, nofun, ⟨hpos', hle', hsum⟩, hready⟩, hpulse⟩

theorem readStep_inv (l : Level) : (readStep use l s).Inv := by
  obtain ⟨hmaps, hread, ⟨hc, hg, hq, hfit, hreads⟩, hpulse⟩ := sound_of_inv hk h
  unfold readStep
  split
  · exact h
  · exact pollReady_inv hk h l
  · exact inv_of_sound hk ⟨mapsCanonical_pinWrite _ _ hmaps, hread, ⟨hc, hg, nofun, nofun, hreads⟩, hpulse⟩
  · exact inv_of_sound hk ⟨hmaps, hread, ⟨hc, hg, nofun, nofun, hreads⟩, hpulse⟩
  · exact inv_of_sound hk ⟨mapsCanonical_pinWrite _ _ hmaps, hread,
      ⟨hc, hg, afterFall_ne_idle _ _, fun _ _ => afterFall_gainp, hreads⟩, hpulse⟩
  next j hj =>
    exact inv_of_sound hk ⟨mapsCanonical_pinWrite _ _ hmaps, hread,
      ⟨hc, hg, nofun, fun _ _ hj' => by cases hj'; exact hfit _ _ hj, hreads⟩, hpulse⟩
  · exact inv_of_sound hk ⟨mapsCanonical_pinWrite _ _ hmaps, hread,
      ⟨hc, hg, afterGain_ne_idle _ _, fun _ _ => afterGain_gainp, hreads⟩, hpulse⟩
  · exact packRead_inv hk h

end Read

/-! ## The micro-steps of the pulse-timing unit -/

theorem edgeEnabled_attachFalling {p : Pin} {s : State} (h : s.rot.pin = some p) : edgeEnabled (attachFalling p s) = true := by
  simp [edgeEnabled, h]

/-- From the configuration to the flag the handler is attached exactly once, to the pin (R155). -/
theorem startStep_inv {pos : StartPos} {s : State} (hk : s.task = .start pos) (h : s.Inv) (t : Time) : (startStep pos t s).Inv := by
  obtain ⟨hmaps, hread, ⟨hbare, hq⟩, hpulse⟩ := sound_of_inv hk h
  obtain ⟨p, hp⟩ := Option.isSome_iff_exists.1 (pulseSound_start hpulse).2
  unfold startStep
  rw [hp]
  cases pos with
  | configure => exact inv_of_sound (k := .start .now) rfl ⟨mapsCanonical_pinConfigInput _ _ hmaps, hread, ⟨hbare, hq⟩, hpulse⟩
  | now => exact inv_of_sound (k := .start .attach) rfl ⟨hmaps, hread, ⟨hbare, hq⟩, hpulse⟩
  | attach =>
    obtain ⟨hs, hpin, -⟩ := hpulse
    exact inv_of_sound (k := .start .flip) rfl ⟨mapsCanonical_attachFalling _ hmaps, hread, ⟨hbare, hq⟩,
      hs, hpin, edgeEnabled_attachFalling hp⟩
  | flip =>
    obtain ⟨-, -, henabled⟩ := hpulse
    exact inv_of_sound (k := .idle) rfl ⟨hmaps, hread, ⟨hbare, hq⟩, fun _ => henabled, nofun⟩

theorem readByte_inv {reg : SharedReg} {left : List Nat} {got : F64} {s : State} (hk : s.task = .sharedBytes reg left got)
    (h : s.Inv) : (readByte reg left got s).Inv := by
  obtain ⟨hmaps, hread, hadc, hpulse⟩ := sound_of_inv hk h
  unfold readByte
  simp only
  split
  · exact inv_of_sound (k := .idle) rfl ⟨hmaps, hread, hadc, hpulse⟩
  · split
    · exact inv_of_sound (k := .idle) rfl ⟨hmaps, hread, hadc, hpulse⟩
    · exact inv_of_sound (k := .sharedBytes reg _ _) rfl ⟨hmaps, hread, hadc, hpulse⟩

/-! ## Every micro-step, every beginning, every step -/

theorem microStep_inv (l : Level) (t : Time) (s : State) (h : s.Inv) : (microStep l t s).Inv := by
  unfold microStep
  split
  next => exact h
  next hk =>
    obtain ⟨hmaps, hread, ⟨hc, hg, hq⟩, hpulse⟩ := sound_of_inv hk h
    exact respond_inv_of_adc _ hmaps hread hc hg hq hpulse
  next hk =>
    obtain ⟨hmaps, hread, hadc, hpulse⟩ := sound_of_inv hk h
    exact inv_of_sound (k := .constructIn) rfl ⟨mapsCanonical_pinConfigOutput _ hmaps, hread, hadc, hpulse⟩
  next hk =>
    obtain ⟨hmaps, hread, hadc, hpulse⟩ := sound_of_inv hk h
    exact inv_of_sound (k := .gainLow) rfl ⟨mapsCanonical_pinConfigInput _ _ hmaps, hread, hadc, hpulse⟩
  next hk =>
    obtain ⟨hmaps, hread, ⟨hc, hg, hq⟩, hpulse⟩ := sound_of_inv hk h
    exact inv_of_sound (k := .reading .dummy) rfl
      ⟨mapsCanonical_pinWrite _ _ hmaps, hread, ⟨hc, hg, nofun, nofun, trivial⟩, hpulse⟩
  next hk => exact readStep_inv hk h l
  next hk =>
    obtain ⟨hmaps, hread, hadc, hpulse⟩ := sound_of_inv hk h
    exact inv_of_sound (k := .powerDownHigh) rfl ⟨mapsCanonical_pinWrite _ _ hmaps, hread, hadc, hpulse⟩
  next hk =>
    obtain ⟨hmaps, hread, ⟨hc, hg, hq⟩, hpulse⟩ := sound_of_inv hk h
    exact respond_inv_of_adc _ (mapsCanonical_pinWrite _ _ hmaps) hread hc hg hq hpulse
  next hk =>
    obtain ⟨hmaps, hread, ⟨hc, hg, hq⟩, hpulse⟩ := sound_of_inv hk h
    exact respond_inv_of_adc _ (mapsCanonical_pinWrite _ _ hmaps) hread hc hg hq hpulse
  next hk => exact startStep_inv hk h t
  next hk =>
    obtain ⟨hmaps, hread, hadc, hpulse⟩ := sound_of_inv hk h
    exact inv_of_sound (k := .idle) rfl ⟨hmaps, hread, hadc, hpulse⟩
  next hk => exact readByte_inv hk h

theorem gainSelOf_ne_zero {g : Byte} {sel : GainSel} (h : gainSelOf g = some sel) : sel ≠ 0#2 := by
  unfold gainSelOf at h
  split at h <;> cases h <;> decide

/-- A refusal is no state of the block (R212). -/
theorem refuse_inv (r : Reason) {s : State} (h : s.Inv) : (refuse r s).Inv := by
  obtain ⟨hmaps, hread, hadc, hpulse⟩ := sound_of_inv rfl h
  exact inv_of_sound rfl ⟨hmaps, hread, hadc, hpulse⟩

theorem Begins.inv {i : Instr} {s u : State} (hb : Begins i s u) (hk : s.task = .idle) (h : s.Inv) : u.Inv := by
  obtain ⟨hmaps, hread, ⟨hbare, hq⟩, hpulse⟩ := sound_of_inv hk h
  have hlegal := hbare.2
  cases hb with
  | refused => exact refuse_inv _ h
  | answered => exact inv_of_sound (k := .idle) rfl ⟨hmaps, hread, ⟨hbare, hq⟩, hpulse⟩
  | gainRow _ hg => exact inv_of_sound hk ⟨hmaps, hread, ⟨hbare, hq⟩, hpulse⟩
  | setScale hc => exact respond_inv_of_adc _ hmaps hread hc (hlegal hc) hq hpulse
  | setOffset hc => exact respond_inv_of_adc _ hmaps hread hc (hlegal hc) hq hpulse
  | construct _ hg => exact inv_of_sound (k := .constructOut) rfl ⟨hmaps, hread, ⟨rfl, gainSelOf_ne_zero hg, hq⟩, hpulse⟩
  | setGain hc hg => exact inv_of_sound (k := .gainLow) rfl ⟨hmaps, hread, ⟨hc, gainSelOf_ne_zero hg, hq⟩, hpulse⟩
  | link hc hik =>
    obtain ⟨-, rfl⟩ | ⟨-, rfl⟩ | ⟨-, rfl⟩ := hik
    · exact inv_of_sound (k := .sampleReady) rfl ⟨hmaps, hread, ⟨hc, hlegal hc, hq⟩, hpulse⟩
    · exact inv_of_sound (k := .powerDownLow) rfl ⟨hmaps, hread, ⟨hc, hlegal hc, hq⟩, hpulse⟩
    · exact inv_of_sound (k := .powerUpLow) rfl ⟨hmaps, hread, ⟨hc, hlegal hc, hq⟩, hpulse⟩
  | read hc =>
    exact inv_of_sound (k := .reading .single) rfl ⟨hmaps, hread, ⟨hc, hlegal hc, nofun, nofun, trivial⟩, hpulse⟩
  | @mean n use _ hc hn ho =>
    have hpos : 0 < n.toNat := Nat.pos_of_ne_zero fun h0 => hn (BitVec.eq_of_toNat_eq h0)
    exact inv_of_sound (k := .reading (.average n use)) rfl ⟨hmaps, hread,
      ⟨hc, hlegal hc, nofun, nofun, ⟨hpos, Nat.le_refl _, Nat.zero_le _⟩, ho⟩, hpulse⟩
  | rotConstruct hs =>
    exact inv_of_sound (k := .idle) rfl ⟨hmaps, hread, ⟨hbare, hq⟩, fun h' => absurd (hs.symm.trans h') (by decide), hpulse.2⟩
  | rotStart hs hp => exact inv_of_sound (k := .start .configure) rfl ⟨hmaps, hread, ⟨hbare, hq⟩, hs, hp, hpulse.2 hs⟩
  | getter _ hk' =>
    obtain ⟨reg, rfl | ⟨left, got, rfl⟩⟩ := hk'
    · exact inv_of_sound (k := .sharedWhole reg) rfl ⟨hmaps, hread, ⟨hbare, hq⟩, hpulse⟩
    · exact inv_of_sound (k := .sharedBytes reg left got) rfl ⟨hmaps, hread, ⟨hbare, hq⟩, hpulse⟩

theorem runCommand_inv {s : State} (h : s.Inv) : (runCommand s).Inv := runCommand_keeps takeEdge_inv microStep_inv env_inv h

theorem exec_inv {i : Instr} {s t : State} (hi : exec i s = .next t) (h : s.Inv) : t.Inv := by
  obtain ⟨now, -, rfl⟩ | ⟨hk, u, hb, rfl⟩ := exec_begins hi
  · exact takeEdge_inv now s h
  · exact runCommand_inv (Begins.inv hb hk h)

/-- Settles O13: with no command running and nothing written the readings of both units are those of the idle block. -/
theorem powerOnMeetsTheInvariant : Obligations.PowerOnMeetsTheInvariant := by
  unfold Obligations.PowerOnMeetsTheInvariant
  exact inv_of_sound (k := .idle) rfl
    ⟨⟨rfl, rfl, rfl⟩, nofun, ⟨⟨fun _ => ⟨rfl, rfl, rfl, rfl⟩, nofun⟩, rfl⟩, nofun, fun _ => rfl⟩

/-- Settles O14: what a step can be, and each of it keeps the invariant. -/
theorem everyStepKeepsTheInvariant : Obligations.EveryStepKeepsTheInvariant := by
  unfold Obligations.EveryStepKeepsTheInvariant
  intro s t h hstep
  obtain ⟨-, rfl⟩ | ⟨p, s', i, -, hf, -, hi⟩ | ⟨p, s', e, -, hf, -, rfl⟩ | ⟨-, -, rfl⟩ := step_cases hstep
  · exact resume_keeps takeEdge_inv microStep_inv env_inv h
  · obtain ⟨rest, -, rfl⟩ := fetchNext_some hf
    exact exec_inv hi (env_inv _ s h)
  · obtain ⟨rest, -, rfl⟩ := fetchNext_some hf
    exact refuse_inv _ (env_inv _ s h)
  · exact idleStep_keeps takeEdge_inv env_inv h

end Sys2Proof.Invariant
end

section
/-! PROOF. The edges of a step (10_state.md R28, 20_memory.md R55, 60_exceptions.md R221, R222). `Taken s v coming` says what has become
of the edges to come in `s` when the machine stands at `v` with `coming` before it; listing free edges, taking the next edge and every
micro-step keep it. -/

open Sys2Proof.Machine Sys2Proof.Laws Sys2Proof.Issue Sys2Proof.Units

namespace Sys2Proof.Delivery

/-! ## When the handler stays attached -/

theorem edgeEnabled_pinSet {s t : State} {p : Nat} (hpin : t.rot.pin = s.rot.pin)
    (hhandler : t.gpio.handler = pinSet s.gpio.handler p .edge) (h : edgeEnabled s = true) : edgeEnabled t = true := by
  unfold edgeEnabled at h ⊢
  rw [hpin, hhandler]
  split at h
  next q _ =>
    by_cases hqp : q.toNat = p
    · rw [hqp, pinGet_pinSet_same]
      rfl
    · rw [pinGet_pinSet_other _ _ hqp]
      exact h
  next => cases h

/-- `rot.start` attaches the handler, and nothing else touches it (R155). -/
theorem startStep_handler (pos : StartPos) (t : Time) (s : State) :
    (startStep pos t s).gpio.handler = s.gpio.handler ∨
      ∃ p, (startStep pos t s).gpio.handler = pinSet s.gpio.handler p .edge := by
  unfold startStep
  split
  · exact .inl rfl
  next p _ =>
    cases pos with
    | attach => exact .inr ⟨p.toNat, rfl⟩
    | configure | now | flip => exact .inl rfl

theorem readByte_handler (reg : SharedReg) (left : List Nat) (got : F64) (s : State) :
    (readByte reg left got s).gpio.handler = s.gpio.handler := by
  unfold readByte
  simp only
  split
  · rfl
  · split <;> rfl

theorem microStep_handler (l : Level) (t : Time) (s : State) :
    (microStep l t s).gpio.handler = s.gpio.handler ∨
      ∃ p, (microStep l t s).gpio.handler = pinSet s.gpio.handler p .edge := by
  cases hk : s.task with
  | start pos => rw [microStep, hk]; exact startStep_handler pos t s
  | sharedWhole reg => rw [microStep, hk]; exact .inl rfl
  | sharedBytes reg left got => rw [microStep, hk]; exact .inl (readByte_handler reg left got s)
  | _ => exact .inl (microStep_pulseSide l t (by rw [hk]; rfl)).handler

theorem edgeEnabled_microStep (l : Level) (t : Time) {s : State} (h : edgeEnabled s = true) :
    edgeEnabled (microStep l t s) = true := by
  have hpin := (microStep_kept l t s).pin
  obtain heq | ⟨p, heq⟩ := microStep_handler l t s
  · rw [edgeEnabled_congr hpin heq, h]
  · exact edgeEnabled_pinSet hpin heq h

/-! ## The edges of a part of a step -/

theorem edgeTimes_of_main {es : List Event} (h : ∀ e ∈ es, isEdgeEvent e = false) : edgeTimes es = [] := by
  refine List.filterMap_eq_nil_iff.2 fun e he => ?_
  have hmain := h e he
  cases e with
  | edge t => cases hmain
  | _ => rfl

/-- From `s` to `v`, with `coming` the edges still to come: those lost before the attach, those handled, and the rest, of which the
next one may have come nearer. -/
structure Split (s v : State) (coming lost held rest : List EdgeAt) (k : Nat) (es : List Event) : Prop where
  goOn : v.env.edgesGoOn = s.env.edgesGoOn
  drawn : v.env.drawn.edges = s.env.drawn.edges + k
  noneDrawn : s.env.edgesGoOn = false → k = 0
  parts : s.env.edges ++ drawnEdges s.env.drawn.edges k = lost ++ held ++ rest
  times : coming.map EdgeAt.now = rest.map EdgeAt.now
  tail : coming.tail = rest.tail
  hist : v.hist = s.hist ++ es
  events : edgeTimes es = held.map EdgeAt.now
  noneLost : edgeEnabled s = true → lost = []
  noneHeld : edgeEnabled v = false → held = []

/-- The edges to come in `s` split so. -/
def Splits (s v : State) (coming : List EdgeAt) : Prop := ∃ lost held rest k es, Split s v coming lost held rest k es

/-- The edges split so, and an attached handler stays attached. -/
def Taken (s v : State) (coming : List EdgeAt) : Prop := (edgeEnabled s = true → edgeEnabled v = true) ∧ Splits s v coming

theorem Taken.refl (s : State) : Taken s s s.env.edges :=
  ⟨id, [], [], s.env.edges, 0, [], rfl, rfl, fun _ => rfl, by simp, rfl, rfl, by simp, rfl, fun _ => rfl, fun _ => rfl⟩

/-- What appends no edge event and draws no edge takes none. -/
theorem Taken.frame {s v w : State} {coming : List EdgeAt} (h : Taken s v coming) {es' : List Event}
    (hgoOn : w.env.edgesGoOn = v.env.edgesGoOn) (hdrawn : w.env.drawn.edges = v.env.drawn.edges)
    (hhist : w.hist = v.hist ++ es') (hmain : edgeTimes es' = []) (henabled : edgeEnabled v = true → edgeEnabled w = true) :
    Taken s w coming := by
  obtain ⟨hstays, lost, held, rest, k, es, h⟩ := h
  refine ⟨henabled ∘ hstays, lost, held, rest, k, es ++ es', ?_⟩
  exact {
    goOn := hgoOn.trans h.goOn
    drawn := hdrawn.trans h.drawn
    noneDrawn := h.noneDrawn
    parts := h.parts
    times := h.times
    tail := h.tail
    hist := by rw [hhist, h.hist, List.append_assoc]
    events := by rw [edgeTimes_append, hmain, List.append_nil, h.events]
    noneLost := h.noneLost
    noneHeld := fun hw => h.noneHeld (Bool.eq_false_iff.2 fun hv => Bool.eq_false_iff.1 hw (henabled hv)) }

theorem Taken.env {s v : State} {coming : List EdgeAt} (h : Taken s v coming) {e : Env}
    (hgoOn : e.edgesGoOn = v.env.edgesGoOn) (hdrawn : e.drawn.edges = v.env.drawn.edges) :
    Taken s { v with env := e } coming :=
  h.frame (es' := []) hgoOn hdrawn (List.append_nil _).symm rfl id

theorem Taken.microStep {s v : State} {coming : List EdgeAt} (h : Taken s v coming) (l : Level) (t : Time) :
    Taken s (microStep l t v) coming := by
  obtain ⟨es, hhist, hmain⟩ := microStep_appends l t v
  have hsame := microStep_sameEdges l t v
  exact h.frame hsame.goOn hsame.drawn hhist (edgeTimes_of_main fun e he => (hmain e he).1) (edgeEnabled_microStep l t)

/-- The next edge is handled by the attached handler, or lost. -/
theorem Taken.takeEdge {s v : State} {e : EdgeAt} {later : List EdgeAt} (h : Taken s v (e :: later)) :
    Taken s (takeEdge e.now v) later := by
  obtain ⟨hstays, lost, held, rest, k, es, h⟩ := h
  obtain ⟨e', rfl, hnow⟩ : ∃ e', rest = e' :: later ∧ e.now = e'.now := by
    cases rest with
    | nil => cases h.times
    | cons e' rest => exact ⟨e', by rw [show later = rest from h.tail], (List.cons.inj h.times).1⟩
  refine ⟨fun hs => (edgeEnabled_takeEdge e.now v).trans (hstays hs), ?_⟩
  cases hv : edgeEnabled v with
  | true =>
    have hstill := (edgeEnabled_takeEdge e.now v).trans hv
    rw [takeEdge_of_enabled e.now hv] at hstill ⊢
    exact ⟨lost, held ++ [e'], later, k, es ++ [.edge e.now], {
      h with
      parts := by rw [h.parts]; simp
      times := rfl
      tail := rfl
      hist := by simp [h.hist]
      events := by rw [edgeTimes_append, h.events, hnow, List.map_append]; rfl
      noneHeld := fun hw => absurd (hstill.symm.trans hw) (by decide) }⟩
  | false =>
    obtain rfl := h.noneHeld hv
    rw [takeEdge_of_not e.now hv]
    exact ⟨lost ++ [e'], [], later, k, es, {
      h with
      parts := by rw [h.parts]; simp
      times := rfl
      tail := rfl
      noneLost := fun hs => absurd ((hstays hs).symm.trans hv) (by decide) }⟩

/-- A batch of free edges follows those listed, once these are used up. -/
theorem Taken.moreEdges {s v : State} (h : Taken s v v.env.edges) : Taken s (moreEdges v) (moreEdges v).env.edges := by
  unfold Machine.moreEdges
  split
  next hmore =>
    obtain ⟨hnone, hgoOn⟩ := hmore
    obtain ⟨hstays, lost, held, rest, k, es, h⟩ := h
    obtain rfl : rest = [] := List.map_eq_nil_iff.1 (h.times.symm.trans (by rw [hnone]; rfl))
    refine ⟨hstays, lost, held, freeEdgeBatch v.env.drawn.edges, k + 1, es, {
      h with
      drawn := ?_
      noneDrawn := fun hs => absurd (hs.symm.trans (h.goOn.symm.trans hgoOn)) (by decide)
      parts := ?_
      times := rfl
      tail := rfl }⟩
    · show v.env.drawn.edges + 1 = _
      rw [h.drawn, Nat.add_assoc]
    · rw [drawnEdges_succ, ← List.append_assoc, h.parts, List.append_nil, h.drawn]
  next => exact h

theorem Taken.deliver {s : State} : ∀ {coming : List EdgeAt} {v : State}, Taken s v coming →
    Taken s (deliver coming v) (deliver coming v).env.edges
  | [], _, h => h.env rfl rfl
  | ⟨0, t⟩ :: later, v, h => Taken.deliver (coming := later) (v := Machine.takeEdge t v) h.takeEdge
  | ⟨_ + 1, _⟩ :: _, _, h => h.env rfl rfl

/-- The count of the next edge is no part of what has become of it. -/
theorem Taken.countDown {s v : State} (h : Taken s v v.env.edges) : Taken s (countDown v) (countDown v).env.edges := by
  unfold Machine.countDown
  split
  next => exact h
  next e later hedges =>
    obtain ⟨hstays, lost, held, rest, k, es, h⟩ := h
    rw [hedges] at h
    exact ⟨hstays, lost, held, rest, k, es, { h with times := h.times, tail := h.tail }⟩

theorem Taken.turn {s v : State} (l : Level) (t : Time) (h : Taken s v v.env.edges) :
    Taken s (turn l t v) (turn l t v).env.edges := by
  have hdelivered := h.moreEdges.deliver
  have hmicro := hdelivered.microStep l t
  rw [← microStep_edges l t (Machine.deliver _ _)] at hmicro
  exact hmicro.countDown

theorem Taken.env_of_sameEdges {s v : State} {e : Env} (he : SameEdges v.env e) (h : Taken s v v.env.edges) :
    Taken s { v with env := e } e.edges := by
  rw [he.edges]
  exact h.env he.goOn he.drawn

theorem runCommand_taken (s : State) : Taken s (runCommand s) (runCommand s).env.edges :=
  runCommand_keeps_of_sameEdges (P := fun v => Taken s v v.env.edges) (fun l t _ h => h.turn l t)
    (fun _ _ he h => h.env_of_sameEdges he) (.refl s)

/-! ## The edges of a step -/

theorem resume_taken (s : State) : Taken s (resume s) (resume s).env.edges :=
  runCommand_keeps_of_sameEdges (P := fun v => Taken s v v.env.edges) (fun l t _ h => h.turn l t)
    (fun _ _ he h => h.env_of_sameEdges he)
    (supply_keeps_of_sameEdges (P := fun v => Taken s v v.env.edges) (fun _ _ he h => h.env_of_sameEdges he) (.refl s))

theorem idleStep_taken (s : State) : Taken s (idleStep s) (idleStep s).env.edges := by
  have hmore := (Taken.refl s).moreEdges
  unfold idleStep
  simp only
  split
  next => exact hmore
  next e later hedges =>
    rw [hedges] at hmore
    rw [takeEdge_env]
    exact Taken.takeEdge (hmore.env rfl rfl)

section Formats
variable {f : BitVec 64} {j : Instr}

theorem formatZ_ne {i : Instr} (h : i ≠ j) : formatZ f i ≠ .ok j := by
  unfold formatZ
  split <;> simp [h]

theorem formatByte_ne {mk : BitVec 8 → Instr} (h : ∀ b, mk b ≠ j) : formatByte f mk ≠ .ok j := by
  unfold formatByte
  split <;> simp [h]

theorem formatC_ne {mk : Pin → Pin → Byte → Instr} (h : ∀ d c g, mk d c g ≠ j) : formatC f mk ≠ .ok j := by
  unfold formatC
  split <;> simp [h]

theorem formatO_ne {mk : Offset → Instr} (h : ∀ o, mk o ≠ j) : formatO f mk ≠ .ok j := by
  unfold formatO
  split <;> simp [h]

end Formats

theorem decodeCommand_ne_rotEdge (w : BitVec 72) (now : Time) : decodeCommand w ≠ .ok (.rotEdge now) := by
  unfold decodeCommand
  split <;> simp [formatZ_ne, formatByte_ne, formatC_ne, formatO_ne]

theorem decodeGainOperand_ne_rotEdge (g : Byte) (now : Time) : decodeGainOperand g ≠ .ok (.rotEdge now) := by
  unfold decodeGainOperand
  split <;> simp

/-- No row of the decoder makes the event (R70). -/
theorem decode_ne_rotEdge : ∀ (p : Presented) (now : Time), decode p ≠ .ok (.rotEdge now)
  | .command w, now => decodeCommand_ne_rotEdge w now
  | .gainOperand g, now => decodeGainOperand_ne_rotEdge g now

/-- Only `rot.construct` moves the pin the handler is looked up at, and it runs nothing. -/
theorem Begins.edgeEnabled {i : Instr} {s u : State} (hb : Begins i s u) :
    u.task = .idle ∨ edgeEnabled u = edgeEnabled s := by
  cases hb with
  | rotConstruct => exact .inl rfl
  | _ => exact .inr rfl

/-- The edges of a part of a step that begins where the step did, but for the attached handler. -/
theorem Taken.split_of_begin {s u v : State} {coming : List EdgeAt} (henv : SameEdges s.env u.env) (hhist : u.hist = s.hist)
    (henabled : edgeEnabled u = edgeEnabled s) (h : Taken u v coming) :
    Splits s v coming := by
  obtain ⟨-, lost, held, rest, k, es, hgoOn, hdrawn, hnone, hparts, htimes, htail, hh, hevents, hlost, hheld⟩ := h
  rw [henv.goOn] at hgoOn hnone
  rw [henv.drawn] at hdrawn hparts
  rw [henv.edges] at hparts
  rw [hhist] at hh
  rw [henabled] at hlost
  exact ⟨lost, held, rest, k, es, hgoOn, hdrawn, hnone, hparts, htimes, htail, hh, hevents, hlost, hheld⟩

theorem split_none {s u : State} (henv : SameEdges s.env u.env) (hhist : u.hist = s.hist) :
    Splits s u u.env.edges :=
  ⟨[], [], s.env.edges, 0, [], henv.goOn, henv.drawn, fun _ => rfl, by simp, by rw [henv.edges], by rw [henv.edges],
    by rw [hhist, List.append_nil], rfl, fun _ => rfl, fun _ => rfl⟩

theorem exec_split {p : Presented} {i : Instr} {s t : State} (hp : decode p = .ok i) (h : exec i s = .next t) :
    Splits s t t.env.edges := by
  obtain ⟨now, rfl, -⟩ | ⟨-, u, hb, rfl⟩ := exec_begins h
  · exact absurd hp (decode_ne_rotEdge p now)
  · have henv : SameEdges s.env u.env := by rw [hb.env]; exact .refl _
    obtain hidle | henabled := Begins.edgeEnabled hb
    · rw [runCommand_idle hidle]
      exact split_none henv hb.hist
    · exact (runCommand_taken u).split_of_begin henv hb.hist henabled

theorem step_split {s t : State} (h : step s = .next t) : Splits s t t.env.edges := by
  obtain ⟨-, rfl⟩ | ⟨p, s', i, -, hf, hp, hi⟩ | ⟨p, s', e, -, hf, -, rfl⟩ | ⟨-, -, rfl⟩ := step_cases h
  · exact (resume_taken s).2
  · obtain ⟨rest, -, rfl⟩ := fetchNext_some hf
    obtain ⟨lost, held, rest, k, es, hs⟩ := exec_split hp hi
    exact ⟨lost, held, rest, k, es, { hs with }⟩
  · obtain ⟨rest, -, rfl⟩ := fetchNext_some hf
    exact split_none ⟨rfl, rfl, rfl⟩ rfl
  · exact (idleStep_taken s).2

theorem step_idle_edge {s : State} {e : EdgeAt} {later : List EdgeAt} (hk : s.task = .idle) (hcmds : s.env.cmds = [])
    (hedges : s.env.edges = e :: later) : step s = .next (takeEdge e.now { s with env := { s.env with edges := later } }) := by
  have hmore : moreEdges s = s := moreEdges_of_listed (by rw [hedges]; exact nofun)
  have hfetch : fetchNext s = none := by rw [fetchNext, hcmds]
  rw [step, if_pos (isIdle_iff.2 hk), hfetch]
  simp only [idleStep, hmore, hedges]

/-- Settles O27: a step lists free edges, takes edges and makes micro-steps, and none of these loses or merges one. -/
theorem everyEdgeIsDeliveredOnceInOrder : Obligations.EveryEdgeIsDeliveredOnceInOrder := by
  unfold Obligations.EveryEdgeIsDeliveredOnceInOrder
  refine ⟨fun s t h => ?_, fun s e later => step_idle_edge⟩
  obtain ⟨lost, held, rest, k, es, hs⟩ := step_split h
  exact ⟨k, lost, held, rest, es, hs.goOn, hs.drawn, hs.noneDrawn, hs.parts, hs.times, hs.tail, hs.hist, hs.events, hs.noneLost,
    hs.noneHeld⟩

end Sys2Proof.Delivery
end

section
/-! PROOF. The two lifecycles never go back (10_state.md R11, R12, R17, R18, R150): what begins a command passes the test of the flag
before it binds a pin, and no micro-step binds one. -/

open Sys2Proof.Machine Sys2Proof.Laws Sys2Proof.Issue

namespace Sys2Proof.Lifecycle

/-- From `s` to `t` neither lifecycle has gone back, and the parameters are the same. -/
structure Forward (s t : State) : Prop where
  constructed : s.adc.constructed = true →
    t.adc.constructed = true ∧ t.adc.clockPin = s.adc.clockPin ∧ t.adc.dataPin = s.adc.dataPin
  started : s.rot.started = true → t.rot.started = true ∧ t.rot.pin = s.rot.pin
  cfg : t.cfg = s.cfg

theorem Forward.trans {s t u : State} (h : Forward s t) (h' : Forward t u) : Forward s u where
  constructed hc := by
    obtain ⟨hct, hclock, hdata⟩ := h.constructed hc
    obtain ⟨hcu, hclock', hdata'⟩ := h'.constructed hct
    exact ⟨hcu, hclock'.trans hclock, hdata'.trans hdata⟩
  started hs := by
    obtain ⟨hst, hpin⟩ := h.started hs
    obtain ⟨hsu, hpin'⟩ := h'.started hst
    exact ⟨hsu, hpin'.trans hpin⟩
  cfg := h'.cfg.trans h.cfg

theorem Forward.of_same {s t : State} (hadc : t.adc = s.adc) (hrot : t.rot = s.rot) (hcfg : t.cfg = s.cfg) : Forward s t :=
  ⟨fun hc => by rw [hadc]; exact ⟨hc, rfl, rfl⟩, fun hs => by rw [hrot]; exact ⟨hs, rfl⟩, hcfg⟩

theorem Forward.refl (s : State) : Forward s s := .of_same rfl rfl rfl

theorem Forward.env {s t : State} (e : Env) (h : Forward s t) : Forward s { t with env := e } :=
  h.trans (.of_same rfl rfl rfl)

theorem microStep_forward (l : Level) (t : Time) (s : State) : Forward s (microStep l t s) := by
  have h := microStep_kept l t s
  exact ⟨fun hc => ⟨h.constructed.trans hc, h.clockPin, h.dataPin⟩, fun hs => ⟨h.started hs, h.pin⟩, h.cfg⟩

theorem takeEdge_forward (t : Time) (s : State) : Forward s (takeEdge t s) := by
  obtain ⟨-, heq⟩ | ⟨-, heq⟩ := takeEdge_cases t s
  · rw [heq]
    exact .refl s
  · rw [heq]
    exact ⟨fun hc => ⟨hc, rfl, rfl⟩, fun hs => ⟨(edgeHandler_started t s.rot).trans hs, edgeHandler_pin t s.rot⟩, rfl⟩

theorem runCommand_forward (s : State) : Forward s (runCommand s) :=
  runCommand_keeps (P := Forward s) (fun t v h => h.trans (takeEdge_forward t v)) (fun l t v h => h.trans (microStep_forward l t v))
    (fun e _ h => h.env e) (.refl s)

theorem resume_forward (s : State) : Forward s (resume s) :=
  resume_keeps (P := Forward s) (fun t v h => h.trans (takeEdge_forward t v)) (fun l t v h => h.trans (microStep_forward l t v))
    (fun e _ h => h.env e) (.refl s)

theorem idleStep_forward (s : State) : Forward s (idleStep s) :=
  idleStep_keeps (P := Forward s) (fun t v h => h.trans (takeEdge_forward t v)) (fun e _ h => h.env e) (.refl s)

/-- The two commands that bind pins do so only before their unit's flag is set (R90, R151). -/
theorem Begins.forward {i : Instr} {s u : State} (hb : Begins i s u) : Forward s u := by
  cases hb with
  | construct hc => exact ⟨fun hc' => absurd (hc.symm.trans hc') (by decide), fun hs => ⟨hs, rfl⟩, rfl⟩
  | rotConstruct hs => exact ⟨fun hc => ⟨hc, rfl, rfl⟩, fun hs' => absurd (hs.symm.trans hs') (by decide), rfl⟩
  | _ => exact ⟨fun hc => ⟨hc, rfl, rfl⟩, fun hs => ⟨hs, rfl⟩, rfl⟩

theorem exec_forward {i : Instr} {s t : State} (h : exec i s = .next t) : Forward s t := by
  obtain ⟨now, -, rfl⟩ | ⟨-, u, hb, rfl⟩ := exec_begins h
  · exact takeEdge_forward now s
  · exact (Begins.forward hb).trans (runCommand_forward u)

theorem step_forward {s t : State} (h : step s = .next t) : Forward s t := by
  obtain ⟨-, rfl⟩ | ⟨p, s', i, -, hf, -, hi⟩ | ⟨p, s', e, -, hf, -, rfl⟩ | ⟨-, -, rfl⟩ := step_cases h
  · exact resume_forward s
  · obtain ⟨rest, -, rfl⟩ := fetchNext_some hf
    exact ((Forward.refl s).env _).trans (exec_forward hi)
  · obtain ⟨rest, -, rfl⟩ := fetchNext_some hf
    exact .of_same rfl rfl rfl
  · exact idleStep_forward s

/-- Settles O53: every part of a step goes forward. -/
theorem lifecyclesNeverGoBack : Obligations.LifecyclesNeverGoBack := by
  unfold Obligations.LifecyclesNeverGoBack
  intro s t h
  obtain ⟨hconstructed, hstarted, hcfg⟩ := step_forward h
  exact ⟨hconstructed, hstarted, hcfg⟩

end Sys2Proof.Lifecycle
end

section
/-! PROOF. Sums and means of stored codes (10_state.md R27, 41_adc_calibration.md R134). -/

open Sys2Proof.Machine Sys2Proof.Laws

namespace Sys2Proof.CodeMeans

theorem codeSum_cons (x : Nat × Code) (cs : Script) : codeSum (x :: cs) = (storedCode x.2).toNat + codeSum cs := by
  rw [codeSum, List.map_cons, List.sum_cons, codeSum]

/-- Each of the codes is below 2^24. -/
theorem codeSum_le (cs : Script) : codeSum cs ≤ cs.length * (2 ^ 24 - 1) := by
  induction cs with
  | nil => exact Nat.le_refl 0
  | cons x cs ih =>
    have hx := code_lt (storedCode x.2)
    rw [codeSum_cons, List.length_cons, Nat.succ_mul]
    omega

theorem codeMean_le (cs : Script) : (codeMean cs).toNat ≤ codeSum cs / cs.length := by
  rw [codeMean, BitVec.toNat_ofNat]
  exact Nat.mod_le _ _

/-- Settles O35: at most 255 codes below 2^24 sum to less than 2^32, and their mean is no more than the greatest. -/
theorem meanOfCodesIsACode : Obligations.MeanOfCodesIsACode := by
  unfold Obligations.MeanOfCodesIsACode
  intro cs hlen
  have hsum := codeSum_le cs
  have hmean := codeMean_le cs
  have hquot := Nat.div_le_of_le_mul hsum
  exact ⟨by omega, by omega⟩

end Sys2Proof.CodeMeans
end

section
/-! PROOF. What a step adds to the event history (20_memory.md R40, R41, R48): nothing is taken from it, the one pin written is the clock
pin and the one pin read the data pin. The pins are those bound after the part of the step that adds the event, since
`adc.construct` binds them before its first port call (R90). -/

open Sys2Proof.Machine Sys2Proof.Laws Sys2Proof.Issue

namespace Sys2Proof.History

/-- If the event writes a pin, it is the clock pin of these registers; if it reads one, the data pin. -/
def OnLink (a : Adc) (e : Event) : Prop := (∀ p l, e = .wr p l → p = a.clockPin) ∧ ∀ p l, e = .rd p l → p = a.dataPin

theorem onLink_congr {a b : Adc} {e : Event} (hclock : b.clockPin = a.clockPin) (hdata : b.dataPin = a.dataPin) :
    OnLink b e ↔ OnLink a e := by
  rw [OnLink, hclock, hdata, OnLink]

theorem onLink_edge (a : Adc) (now : Time) : OnLink a (.edge now) := ⟨nofun, nofun⟩

/-- From `s` to `v` the history has only grown, by events on the link as `v` has it. -/
def Grown (s v : State) : Prop := ∃ es, v.hist = s.hist ++ es ∧ ∀ e ∈ es, OnLink v.adc e

theorem Grown.of_hist {s v : State} (h : v.hist = s.hist) : Grown s v := ⟨[], by rw [h, List.append_nil], nofun⟩

theorem Grown.refl (s : State) : Grown s s := .of_hist rfl

theorem Grown.env {s v : State} (e : Env) (h : Grown s v) : Grown s { v with env := e } := h

/-- What binds no pin and adds events on the link lets the history grow further. -/
theorem Grown.append {s v w : State} (h : Grown s v) (hclock : w.adc.clockPin = v.adc.clockPin)
    (hdata : w.adc.dataPin = v.adc.dataPin) {new : List Event} (hhist : w.hist = v.hist ++ new)
    (hnew : ∀ e ∈ new, OnLink v.adc e) : Grown s w := by
  obtain ⟨es, hes, hlink⟩ := h
  refine ⟨es ++ new, by rw [hhist, hes, List.append_assoc], fun e he => (onLink_congr hclock hdata).2 ?_⟩
  obtain hold | hadded := List.mem_append.1 he
  · exact hlink e hold
  · exact hnew e hadded

theorem Grown.microStep {s v : State} (l : Level) (t : Time) (h : Grown s v) : Grown s (microStep l t v) := by
  have hkept := microStep_kept l t v
  obtain ⟨new, hhist, hmain⟩ := microStep_appends l t v
  exact h.append hkept.clockPin hkept.dataPin hhist fun e he => (hmain e he).2

theorem Grown.takeEdge {s v : State} (t : Time) (h : Grown s v) : Grown s (takeEdge t v) := by
  obtain ⟨-, heq⟩ | ⟨-, heq⟩ := takeEdge_cases t v
  · rwa [heq]
  · rw [heq]
    exact h.append (new := [.edge t]) rfl rfl rfl (List.forall_mem_singleton.2 (onLink_edge _ t))

theorem runCommand_grown (s : State) : Grown s (runCommand s) :=
  runCommand_keeps (P := Grown s) (fun t _ h => h.takeEdge t) (fun l t _ h => h.microStep l t) (fun e _ h => h.env e) (.refl s)

theorem resume_grown (s : State) : Grown s (resume s) :=
  resume_keeps (P := Grown s) (fun t _ h => h.takeEdge t) (fun l t _ h => h.microStep l t) (fun e _ h => h.env e) (.refl s)

theorem idleStep_grown (s : State) : Grown s (idleStep s) :=
  idleStep_keeps (P := Grown s) (fun t _ h => h.takeEdge t) (fun e _ h => h.env e) (.refl s)

/-- Growth counts from the old history, which what begins a command leaves as it was. -/
theorem Grown.congr_left {s u v : State} (hhist : u.hist = s.hist) (h : Grown u v) : Grown s v := by
  rwa [Grown, hhist] at h

theorem exec_grown {i : Instr} {s t : State} (h : exec i s = .next t) : Grown s t := by
  obtain ⟨now, -, rfl⟩ | ⟨-, u, hb, rfl⟩ := exec_begins h
  · exact (Grown.refl s).takeEdge now
  · exact (runCommand_grown u).congr_left hb.hist

theorem step_grown {s t : State} (h : step s = .next t) : Grown s t := by
  obtain ⟨-, rfl⟩ | ⟨p, s', i, -, hf, -, hi⟩ | ⟨p, s', e, -, hf, -, rfl⟩ | ⟨-, -, rfl⟩ := step_cases h
  · exact resume_grown s
  · obtain ⟨rest, -, rfl⟩ := fetchNext_some hf
    exact (exec_grown hi).congr_left rfl
  · obtain ⟨rest, -, rfl⟩ := fetchNext_some hf
    exact .of_hist rfl
  · exact idleStep_grown s

/-- Settles O52: every part of a step lets the history grow. -/
theorem historyOnlyGrows : Obligations.HistoryOnlyGrows := by
  unfold Obligations.HistoryOnlyGrows
  intro s t h
  obtain ⟨es, hhist, -⟩ := step_grown h
  exact ⟨es, hhist⟩

/-- Settles O54: the events a step adds are determined by the two histories, and all of them are on the link. -/
theorem onlyTheClockIsWrittenAndTheDataRead : Obligations.OnlyTheClockIsWrittenAndTheDataRead := by
  unfold Obligations.OnlyTheClockIsWrittenAndTheDataRead
  intro s t es h hes
  obtain ⟨es', hhist, hlink⟩ := step_grown h
  obtain rfl : es = es' := List.append_cancel_left (hes.symm.trans hhist)
  exact hlink

end Sys2Proof.History
end

section
/-! PROOF. The encodings (30_encoding.md R62, R67, R68, R70, R76). `decodeCommand_decoded` says once what the decoder of command words
can do: a reserved word is an error of R76, any other word is the encoding of what it decodes to. The way back, `decode_of_encode`, reads
the operands of each format out of the word that was encoded. -/

open Sys2Proof.Machine Sys2Proof.Laws

namespace Sys2Proof.Encoding

/-! ## Words in parts -/

theorem exists_append (a b : Nat) (v : BitVec (a + b)) : ∃ (x : BitVec a) (y : BitVec b), v = x ++ y :=
  ⟨v.extractLsb' b a, v.extractLsb' 0 b, by
    rw [BitVec.extractLsb'_append_extractLsb'_eq_extractLsb' (Nat.zero_add b).symm, BitVec.extractLsb'_eq_self]⟩

theorem exists_commandWord (w : BitVec 72) : ∃ op f, w = commandWord op f := exists_append 8 64 w

theorem byte_eq {b : BitVec 8} {n : Nat} (h : b.toNat = n) : b = BitVec.ofNat 8 n := by
  rw [← h, BitVec.ofNat_toNat, BitVec.setWidth_eq]

/-- A mask of the high part tests the high part (R67: the unused bits are the upper ones). -/
theorem append_and_highMask {a b : Nat} (x : BitVec a) (y : BitVec b) :
    (x ++ y) &&& (BitVec.allOnes a ++ 0#b) = 0#(a + b) ↔ x = 0#a := by
  rw [BitVec.and_append, BitVec.and_allOnes, BitVec.and_zero, ← BitVec.zero_append_zero, BitVec.append_left_inj]

theorem commandWord_toNat_div (op : BitVec 8) (f : BitVec 64) : (commandWord op f).toNat / 2 ^ 64 = op.toNat := by
  rw [commandWord, BitVec.toNat_append, ← Nat.shiftRight_eq_div_pow, Nat.shiftRight_or_distrib, Nat.shiftLeft_shiftRight,
    Nat.shiftRight_eq_div_pow, Nat.div_eq_of_lt f.isLt, Nat.or_zero]

theorem reservedWord_commandWord_of_listed {op : BitVec 8} {m : BitVec 64} (h : unusedBits op.toNat = some m) (f : BitVec 64) :
    reservedWord (commandWord op f) = (f &&& m != 0#64) := by
  have hf : BitVec.ofNat 64 (commandWord op f).toNat = f := commandWord_field op f
  simp only [reservedWord, commandWord_toNat_div, h, hf]

theorem reservedWord_commandWord_of_unlisted {op : BitVec 8} (h : unusedBits op.toNat = none) (f : BitVec 64) :
    reservedWord (commandWord op f) = true := by
  simp only [reservedWord, commandWord_toNat_div, h]

/-! ## The operands of a format, read from a field in parts (R68) -/

theorem formatByte_append (x : BitVec 56) (b : BitVec 8) (mk : BitVec 8 → Instr) :
    formatByte (x ++ b) mk = if x = 0#56 then .ok (mk b) else .error .unusedBits := by
  rw [formatByte, extract_high 56 8, extract_low 56 8]

theorem formatO_append (x : BitVec 32) (o : Offset) (mk : Offset → Instr) :
    formatO (x ++ o) mk = if x = 0#32 then .ok (mk o) else .error .unusedBits := by
  rw [formatO, extract_high 32 32, extract_low 32 32]

theorem formatC_append (x : BitVec 40) (d c : Pin) (g : Byte) (mk : Pin → Pin → Byte → Instr) :
    formatC (x ++ (g ++ (c ++ d))) mk = if x = 0#40 then .ok (mk d c g) else .error .unusedBits := by
  rw [formatC, extract_high 40 24]
  split
  next hx => rw [hx, threeBytes_data, threeBytes_clock, threeBytes_gain]
  next => rfl

/-! ## What the decoder of command words can do -/

/-- What may be read from a command word: a reserved word ends in an error, and any other is the encoding of what is read. -/
inductive Decoded (w : BitVec 72) : Except DecodeError Instr → Prop
  | error {e : DecodeError} (hw : reservedWord w = true) (he : decodeReason e = .reserved) : Decoded w (.error e)
  | ok {i : Instr} (hw : reservedWord w = false) (hi : encode i = some (.command w)) : Decoded w (.ok i)

section Arms
variable {op : BitVec 8} {n : Nat} (hop : op.toNat = n)
include hop

/-- One arm of the decoder: `ok` is its test of the unused bits, which `unusedBits` lists as `m`. -/
theorem decoded_arm {f m : BitVec 64} {i : Instr} {ok : Prop} [Decidable ok] (hm : unusedBits n = some m)
    (hok : f &&& m = 0#64 ↔ ok) (hi : ok → encode i = some (.command (commandWord (BitVec.ofNat 8 n) f))) :
    Decoded (commandWord op f) (if ok then .ok i else .error .unusedBits) := by
  rw [← byte_eq hop] at hi
  rw [← hop] at hm
  have hw := reservedWord_commandWord_of_listed hm f
  split
  next h => exact .ok (by rw [hw, hok.2 h]; rfl) (hi h)
  next h => exact .error (by rw [hw, bne_iff_ne]; exact mt hok.1 h) rfl

theorem decoded_formatZ {i : Instr} (hm : unusedBits n = some (BitVec.allOnes 64))
    (hi : encode i = some (.command (commandWord (BitVec.ofNat 8 n) 0#64))) (f : BitVec 64) :
    Decoded (commandWord op f) (formatZ f i) :=
  decoded_arm hop hm (by rw [BitVec.and_allOnes]) fun hf => by rw [hf, hi]

theorem decoded_formatByte {mk : BitVec 8 → Instr} (hm : unusedBits n = some (BitVec.allOnes 56 ++ 0#8))
    (hi : ∀ b, encode (mk b) = some (.command (commandWord (BitVec.ofNat 8 n) (0#56 ++ b)))) (f : BitVec 64) :
    Decoded (commandWord op f) (formatByte f mk) := by
  obtain ⟨x, b, rfl⟩ := exists_append 56 8 f
  rw [formatByte_append]
  exact decoded_arm hop hm (append_and_highMask x b) fun hx => by rw [hx, hi]

theorem decoded_formatO {mk : Offset → Instr} (hm : unusedBits n = some (BitVec.allOnes 32 ++ 0#32))
    (hi : ∀ o, encode (mk o) = some (.command (commandWord (BitVec.ofNat 8 n) (0#32 ++ o)))) (f : BitVec 64) :
    Decoded (commandWord op f) (formatO f mk) := by
  obtain ⟨x, o, rfl⟩ := exists_append 32 32 f
  rw [formatO_append]
  exact decoded_arm hop hm (append_and_highMask x o) fun hx => by rw [hx, hi]

theorem decoded_formatC {mk : Pin → Pin → Byte → Instr} (hm : unusedBits n = some (BitVec.allOnes 40 ++ 0#24))
    (hi : ∀ d c g, encode (mk d c g) = some (.command (commandWord (BitVec.ofNat 8 n) (0#40 ++ (g ++ (c ++ d))))))
    (f : BitVec 64) : Decoded (commandWord op f) (formatC f mk) := by
  obtain ⟨x, y, rfl⟩ := exists_append 40 24 f
  obtain ⟨g, z, rfl⟩ := exists_append 8 16 y
  obtain ⟨c, d, rfl⟩ := exists_append 8 8 z
  rw [formatC_append]
  exact decoded_arm hop hm (append_and_highMask x (g ++ (c ++ d))) fun hx => by rw [hx, hi]

end Arms

/-- The rows of the opcode table, each with its format (R70), the scale's filling the whole field (R68); every other opcode is
reserved. -/
theorem decodeCommand_decoded (w : BitVec 72) : Decoded w (decodeCommand w) := by
  obtain ⟨op, f, rfl⟩ := exists_commandWord w
  simp only [decodeCommand, commandWord_opcode, commandWord_field]
  split
  next hop => exact decoded_formatC hop rfl (fun _ _ _ => rfl) f
  next hop => exact decoded_formatZ hop rfl rfl f
  next hop => exact decoded_formatByte hop rfl (fun _ => rfl) f
  next hop => exact decoded_formatZ hop rfl rfl f
  next hop => exact decoded_formatByte hop rfl (fun _ => rfl) f
  next hop => exact decoded_formatByte hop rfl (fun _ => rfl) f
  next hop => exact decoded_formatByte hop rfl (fun _ => rfl) f
  next hop => exact decoded_formatZ hop rfl rfl f
  next hop => exact decoded_formatByte hop rfl (fun _ => rfl) f
  next hop => exact decoded_arm (ok := True) hop rfl (by simp) fun _ => rfl
  next hop => exact decoded_formatZ hop rfl rfl f
  next hop => exact decoded_formatO hop rfl (fun _ => rfl) f
  next hop => exact decoded_formatZ hop rfl rfl f
  next hop => exact decoded_formatZ hop rfl rfl f
  next hop => exact decoded_formatZ hop rfl rfl f
  next hop => exact decoded_formatByte hop rfl (fun _ => rfl) f
  next hop => exact decoded_formatZ hop rfl rfl f
  next hop => exact decoded_formatZ hop rfl rfl f
  next hop => exact decoded_formatZ hop rfl rfl f
  next =>
    have hnone : unusedBits op.toNat = none := by simp_all [unusedBits]
    exact .error (reservedWord_commandWord_of_unlisted hnone f) rfl

theorem decodeCommand_of_reserved {w : BitVec 72} (h : reservedWord w = true) :
    ∃ e, decodeCommand w = .error e ∧ decodeReason e = .reserved := by
  have hd := decodeCommand_decoded w
  generalize decodeCommand w = r at hd ⊢
  cases hd with
  | error _ he => exact ⟨_, rfl, he⟩
  | ok hw _ => rw [h] at hw; cases hw

theorem decodeCommand_of_not_reserved {w : BitVec 72} (h : reservedWord w = false) : ∃ i, decodeCommand w = .ok i := by
  have hd := decodeCommand_decoded w
  generalize decodeCommand w = r at hd ⊢
  cases hd with
  | error hw _ => rw [h] at hw; cases hw
  | ok _ _ => exact ⟨_, rfl⟩

theorem encode_of_decodeCommand {w : BitVec 72} {i : Instr} (h : decodeCommand w = .ok i) : encode i = some (.command w) := by
  have hd := decodeCommand_decoded w
  rw [h] at hd
  cases hd with
  | ok _ hi => exact hi

/-- A decoded gain operand is the encoding of its row (R62). -/
theorem encode_of_decodeGainOperand {g : Byte} {i : Instr} (h : decodeGainOperand g = .ok i) :
    encode i = some (.gainOperand g) := by
  unfold decodeGainOperand at h
  split at h
  next hg => cases h; rw [byte_eq hg]; rfl
  next hg => cases h; rw [byte_eq hg]; rfl
  next hg => cases h; rw [byte_eq hg]; rfl
  next => cases h

/-- Settles O2: the word in each arm of the decoder is the one the encoder builds from its row. -/
theorem encodeOfDecodeIsIdentity : Obligations.EncodeOfDecodeIsIdentity := by
  unfold Obligations.EncodeOfDecodeIsIdentity
  intro p i h
  cases p with
  | command w => exact encode_of_decodeCommand h
  | gainOperand g => exact encode_of_decodeGainOperand h

/-! ## Decoding what was encoded -/

/-- Format by format, the operands come back from the field they were put in; `rot.edge` has no word (R70). -/
theorem decode_of_encode {i : Instr} {p : Presented} (h : encode i = some p) : decode p = .ok i := by
  cases i with
  | rotEdge => cases h
  | gainCode128 | gainCode64 | gainCode32 => cases h; rfl
  | adcIsReady | adcRead | adcGetLastUnits | adcGetScale | adcGetOffset | adcPowerDown | adcPowerUp | rotStart | rotGetSpeed
  | rotGetRotates => cases h; simp [decode, decodeCommand, commandWord_opcode, commandWord_field, formatZ]
  | adcSetGain | adcReadAverage | adcGetValue | adcGetUnits | adcTare | rotConstruct =>
    cases h
    simp [decode, decodeCommand, commandWord_opcode, commandWord_field, formatByte_append]
  | adcSetOffset => cases h; simp [decode, decodeCommand, commandWord_opcode, commandWord_field, formatO_append]
  | adcConstruct => cases h; simp [decode, decodeCommand, commandWord_opcode, commandWord_field, formatC_append]
  | adcSetScale => cases h; simp [decode, decodeCommand, commandWord_opcode, commandWord_field]

/-- Settles O1: what is presented for an instruction is its opcode and its operands, and each is read back. -/
theorem decodeOfEncodeIsIdentity : Obligations.DecodeOfEncodeIsIdentity := by
  unfold Obligations.DecodeOfEncodeIsIdentity
  exact fun _ _ => decode_of_encode

/-- Settles O3: each word of the listing is evaluated. -/
theorem specWordsDecodeAsWritten : Obligations.SpecWordsDecodeAsWritten := by
  unfold Obligations.SpecWordsDecodeAsWritten
  decide

end Sys2Proof.Encoding
end

section
/-! PROOF. Operand and result forms: the gain map (30_encoding.md R62), the stored code (R63), the response word (R69) and the assembler's
text (R77). -/

open Sys2Proof.Machine Sys2Proof.Laws

namespace Sys2Proof.Forms

/-! ## The gain code -/

theorem gainSelOf_eq_some_iff {g : Byte} {sel : GainSel} :
    gainSelOf g = some sel ↔ (g = 128#8 ∧ sel = 1#2) ∨ (g = 64#8 ∧ sel = 3#2) ∨ (g = 32#8 ∧ sel = 2#2) := by
  constructor
  · intro h
    unfold gainSelOf at h
    split at h
    next hg => cases h; exact .inl ⟨BitVec.eq_of_toNat_eq hg, rfl⟩
    next hg => cases h; exact .inr (.inl ⟨BitVec.eq_of_toNat_eq hg, rfl⟩)
    next hg => cases h; exact .inr (.inr ⟨BitVec.eq_of_toNat_eq hg, rfl⟩)
    next => cases h
  · rintro (⟨rfl, rfl⟩ | ⟨rfl, rfl⟩ | ⟨rfl, rfl⟩) <;> rfl

theorem gainCodeOf_of_gainSelOf {g : Byte} {sel : GainSel} (h : gainSelOf g = some sel) : gainCodeOf sel = some g := by
  obtain ⟨rfl, rfl⟩ | ⟨rfl, rfl⟩ | ⟨rfl, rfl⟩ := gainSelOf_eq_some_iff.1 h <;> rfl

theorem gainSelOf_eq_none_of_not_legal {g : Byte} (h : gainCodeLegal g = false) : gainSelOf g = none := by
  refine Option.eq_none_iff_forall_ne_some.2 fun sel hsel => ?_
  obtain ⟨rfl, -⟩ | ⟨rfl, -⟩ | ⟨rfl, -⟩ := gainSelOf_eq_some_iff.1 hsel <;> cases h

/-- Settles O5: the three rows of the gain map, read both ways. -/
theorem gainMapIsTheSpecs : Obligations.GainMapIsTheSpecs := by
  unfold Obligations.GainMapIsTheSpecs
  exact ⟨fun _ _ => gainSelOf_eq_some_iff, fun _ _ => gainCodeOf_of_gainSelOf, rfl, rfl, rfl⟩

/-! ## The stored code -/

theorem storedCode_cons (b : Bool) (x : BitVec 23) : storedCode (BitVec.cons b x) = BitVec.cons (!b) x := by
  have hmask : 0x800000#24 = BitVec.cons true 0#23 := rfl
  rw [storedCode, hmask, BitVec.cons_xor_cons, Bool.xor_true, BitVec.xor_zero]

/-- Bit 23 is the sign of the two's-complement reading, and the 23 bits below it are kept. -/
theorem storedCode_eq_cons (w : Code) : storedCode w = BitVec.cons (!w.msb) (w.setWidth 23) :=
  calc storedCode w = storedCode (BitVec.cons w.msb (w.setWidth 23)) := congrArg storedCode (BitVec.cons_msb_setWidth w).symm
    _ = BitVec.cons (!w.msb) (w.setWidth 23) := storedCode_cons _ _

theorem storedCode_toNat (w : Code) : ((storedCode w).toNat : Int) = w.toInt + 8388608 := by
  have hstored : (storedCode w).toNat = (!w.msb).toNat <<< 23 + (w.setWidth 23).toNat := by
    rw [storedCode_eq_cons, BitVec.toNat_cons']
  have hw : w.toNat = w.msb.toNat <<< 23 + (w.setWidth 23).toNat := by
    rw [← BitVec.toNat_cons', BitVec.cons_msb_setWidth]
  rw [BitVec.toInt_eq_msb_cond, hstored, hw]
  generalize (w.setWidth 23).toNat = low
  cases w.msb with
  | false =>
    change ((8388608 + low : Nat) : Int) = ((0 + low : Nat) : Int) + 8388608
    omega
  | true =>
    change ((0 + low : Nat) : Int) = ((8388608 + low : Nat) : Int) - 16777216 + 8388608
    omega

theorem storedCode_storedCode (w : Code) : storedCode (storedCode w) = w := by
  rw [storedCode, storedCode, BitVec.xor_assoc, BitVec.xor_self, BitVec.xor_zero]

theorem storedCode_append (b : BitVec 8) (x : BitVec 16) : storedCode (b ++ x) = (b ^^^ 0x80#8) ++ x := by
  have hmask : 0x800000#24 = 0x80#8 ++ 0#16 := rfl
  rw [storedCode, hmask, BitVec.xor_append, BitVec.xor_zero]

theorem code_eq_bytes (w : Code) : w = w.extractLsb' 16 8 ++ (w.extractLsb' 8 8 ++ w.extractLsb' 0 8) := by
  rw [BitVec.extractLsb'_append_extractLsb'_eq_extractLsb' (Nat.zero_add 8).symm,
    BitVec.extractLsb'_append_extractLsb'_eq_extractLsb' (Nat.zero_add 16).symm, BitVec.extractLsb'_eq_self]

theorem storedCode_bytes (w : Code) :
    storedCode w = (w.extractLsb' 16 8 ^^^ 0x80#8) ++ (w.extractLsb' 8 8 ++ w.extractLsb' 0 8) :=
  (congrArg storedCode (code_eq_bytes w)).trans (storedCode_append _ _)

theorem codeWord_toNat (c : Code) : (codeWord c).toNat = c.toNat := BitVec.toNat_setWidth_of_le (by decide)

/-- Settles O6: the inverted bit is the sign bit, so the unsigned reading is the signed one moved up by half the range. -/
theorem storedCodeAddsHalfRange : Obligations.StoredCodeAddsHalfRange := by
  unfold Obligations.StoredCodeAddsHalfRange
  exact ⟨fun w => ⟨storedCode_toNat w, storedCode_storedCode w, storedCode_bytes w, codeWord_toNat _⟩, rfl⟩

/-! ## The response word -/

theorem statusCode_ne_three (x : Status) : statusCode x ≠ 3#2 := by cases x <;> decide

/-- Settles O7: the word is its status code above its value. -/
theorem responseWordHoldsStatusAndValue : Obligations.ResponseWordHoldsStatusAndValue := by
  unfold Obligations.ResponseWordHoldsStatusAndValue
  exact fun r => ⟨extract_high 2 64 _ _, extract_low 2 64 _ _, statusCode_ne_three r.status⟩

/-! ## The assembler -/

/-- Settles O8: each line of the listing is assembled. -/
theorem assemblerExamplesOfTheSpec : Obligations.AssemblerExamplesOfTheSpec := by
  unfold Obligations.AssemblerExamplesOfTheSpec
  decide +kernel

end Sys2Proof.Forms
end

section
/-! PROOF. What becomes of a thing presented (30_encoding.md R72, R76, 60_exceptions.md R226; logs 11, 13, 18): with no command running a
step runs what it decodes to or refuses it, and while one runs no command is begun. -/

open Sys2Proof.Machine Sys2Proof.Laws Sys2Proof.Encoding Sys2Proof.Forms

namespace Sys2Proof.Presenting

/-! ## The step on a thing presented -/

section Presented
variable {s : State} {p : Presented} {rest : List Presented} (hs : s.task = .idle) (hp : s.env.cmds = p :: rest)
include hs hp

theorem step_of_decoded {i : Instr} (h : decode p = .ok i) : step s = exec i { s with env := { s.env with cmds := rest } } := by
  simp only [step, isIdle_iff.2 hs, fetchNext, hp, h, if_true]

theorem step_of_undecoded {e : DecodeError} (h : decode p = .error e) :
    step s = .next (rejectWord e { s with env := { s.env with cmds := rest } }) := by
  simp only [step, isIdle_iff.2 hs, fetchNext, hp, h, if_true]

end Presented

theorem step_of_running {s : State} (h : s.task ≠ .idle) : step s = .next (resume s) := if_neg (mt isIdle_iff.1 h)

theorem decode_of_decodeTableWord {nbits w : Nat} {i : Instr} (h : decodeTableWord nbits w = some i) :
    decode (presentedOf nbits w) = .ok i := by
  unfold decodeTableWord at h
  split at h
  next hd => cases h; exact hd
  next => cases h

/-- Settles O9: the step takes the head of the host's list, or goes on with the running command. -/
theorem stepRunsTheDecodedInstruction : Obligations.StepRunsTheDecodedInstruction := by
  unfold Obligations.StepRunsTheDecodedInstruction
  refine ⟨fun s p rest i hs hp => step_of_decoded hs hp, fun s nbits w i h => ?_, fun s => step_of_running⟩
  exact step_of_decoded (s := s.withFetchWord nbits w) rfl rfl (decode_of_decodeTableWord h)

/-! ## A command while another runs -/

theorem command_of_running {s : State} (body : State → State) (h : s.task ≠ .idle) : command s body = .refused .commandRunning :=
  if_neg (mt isIdle_iff.1 h)

theorem adcCommand_of_running {s : State} (body : State → State) (h : s.task ≠ .idle) :
    adcCommand s body = .refused .commandRunning :=
  command_of_running _ h

/-- Every instruction but the event is issued through the test that no command runs (R72). -/
theorem exec_of_running {i : Instr} (hi : ∀ now, i ≠ .rotEdge now) {s : State} (hs : s.task ≠ .idle) :
    exec i s = .refused .commandRunning := by
  unfold exec
  cases i with
  | rotEdge now => exact absurd rfl (hi now)
  | adcConstruct | rotConstruct | rotStart | rotGetSpeed | rotGetRotates | gainCode128 | gainCode64 | gainCode32 =>
    exact command_of_running _ hs
  | _ => exact adcCommand_of_running _ hs

/-- Settles O11: the event is no command, and every command is issued through one test. -/
theorem commandWhileRunningIsRefused : Obligations.CommandWhileRunningIsRefused := by
  unfold Obligations.CommandWhileRunningIsRefused
  intro i s hi hs
  exact exec_of_running (by rintro now rfl; cases hi) hs

/-! ## Reserved encodings and operands -/

theorem execAdcSetGain_of_bad_gain {s : State} {g : Byte} (hs : adcReady s) (hg : gainCodeLegal g = false) :
    execAdcSetGain g s = .next (refuse .badGainCode s) := by
  obtain ⟨hidle, hc⟩ := hs
  rw [execAdcSetGain, adcCommand_of_ready _ hidle hc, gainSelOf_eq_none_of_not_legal hg]

theorem execAdcConstruct_of_bad_gain {s : State} {g : Byte} (d c : Pin) (hs : s.task = .idle) (hc : s.adc.constructed = false)
    (hg : gainCodeLegal g = false) : execAdcConstruct d c g s = .next (refuse .badGainCode s) := by
  simp [execAdcConstruct, command_of_idle _ hs, isConstructed, hc, gainSelOf_eq_none_of_not_legal hg]

/-- The averaging commands test the count before their operands (R120, R122, R124, R128). -/
theorem exec_meanCommand_zero (use : MeanUse) {s : State} (hs : adcReady s) :
    exec (meanCommand use 0#8) s = .next (refuse .zeroCount s) := by
  obtain ⟨hidle, hc⟩ := hs
  unfold exec
  cases use <;> exact adcCommand_of_ready _ hidle hc

/-- Settles O4: the decoder's errors and the operand tests of the commands, each with its reason. -/
theorem reservedEncodingsAreRefused : Obligations.ReservedEncodingsAreRefused := by
  unfold Obligations.ReservedEncodingsAreRefused
  refine ⟨fun s w rest hs hw hr => ?_, fun w => decodeCommand_of_not_reserved, fun s g => execAdcSetGain_of_bad_gain,
    fun s d c g => execAdcConstruct_of_bad_gain d c, fun s hs => ?_⟩
  · obtain ⟨e, hd, he⟩ := decodeCommand_of_reserved hr
    rw [step_of_undecoded hs hw hd, rejectWord, he]
    rfl
  · exact ⟨exec_meanCommand_zero .raw hs, exec_meanCommand_zero .value hs, exec_meanCommand_zero .units hs,
      exec_meanCommand_zero .tare hs⟩

/-! ## The gain-code rows -/

theorem command_gainRow {s : State} (hs : s.task = .idle) {g : Byte} {sel : GainSel} (hg : gainSelOf g = some sel) :
    command s (gainRow g) = .next (selectGain sel s) := by
  rw [command_of_idle _ hs, gainRow, hg]

/-- Settles O49: a row selects what the gain map gives its code. -/
theorem gainRowsSelectTheirPulses : Obligations.GainRowsSelectTheirPulses := by
  unfold Obligations.GainRowsSelectTheirPulses
  exact fun s hs => ⟨command_gainRow hs rfl, command_gainRow hs rfl, command_gainRow hs rfl⟩

end Sys2Proof.Presenting
end

section
/-! PROOF. Edges do not disturb the ADC side (40_adc_wire.md R98, R99, 60_exceptions.md R225, R227). Two states alike make their
turns in step: an edge leaves either of them alike to the other, and one micro-step, given the same answer, leaves both alike. -/

open Sys2Proof.Machine Sys2Proof.Laws Sys2Proof.Issue Sys2Proof.Presenting

namespace Sys2Proof.SideBySide

/-! ## The same micro-step -/

/-- Is the main-line context running a getter of the pulse-timing unit (R166, R167)? -/
def getterTask : Task → Bool
  | .sharedWhole _ | .sharedBytes _ _ _ => true
  | .idle | .sampleReady | .constructOut | .constructIn | .gainLow | .reading _ | .powerDownLow | .powerDownHigh | .powerUpLow
  | .start _ => false

/-- Two tasks alike are the same task, or two byte-wise reads of one register with as many bytes left. -/
theorem tasksAlike_cases {a b : Task} (h : tasksAlike a b) :
    (a = b ∧ ∀ r l g, a ≠ .sharedBytes r l g) ∨
      ∃ r l g l' g', a = .sharedBytes r l g ∧ b = .sharedBytes r l' g' ∧ l.length = l'.length := by
  obtain rfl | h := h
  · cases a with
    | sharedBytes r l g => exact .inr ⟨r, l, g, l, g, rfl, rfl, rfl⟩
    | _ => exact .inl ⟨rfl, nofun⟩
  · exact .inr h

theorem tasksAlike_symm {a b : Task} (h : tasksAlike a b) : tasksAlike b a := by
  obtain rfl | ⟨r, l, g, l', g', ha, hb, hlen⟩ := h
  · exact .inl rfl
  · exact .inr ⟨r, l', g', l, g, hb, ha, hlen.symm⟩

theorem tasksAlike_getterTask {a b : Task} (h : tasksAlike a b) : getterTask a = getterTask b := by
  obtain rfl | ⟨r, l, g, l', g', rfl, rfl, -⟩ := h <;> rfl

theorem tasksAlike_eq {a b : Task} (h : tasksAlike a b) (ha : getterTask a = false) : a = b := by
  obtain rfl | ⟨r, l, g, l', g', rfl, rfl, -⟩ := h
  · rfl
  · cases ha

/-! ## Two states in step -/

/-- Alike on the ADC side; and where `same` is asked, no getter runs and the responses are equal, not their statuses only. -/
structure Alike (same : Prop) (s u : State) : Prop where
  side : AdcSideAlike s u
  answer : same → getterTask s.task = false ∧ s.rsp = u.rsp

/-- The environments are alike in what the host and the device will do; free are the edges and the order of bytes. -/
structure EnvAlike (e f : Env) : Prop where
  cmds : e.cmds = f.cmds
  levels : e.levels = f.levels
  clocks : e.clocks = f.clocks
  levelsDrawn : e.drawn.levels = f.drawn.levels
  clocksDrawn : e.drawn.clocks = f.drawn.clocks

theorem Alike.ite {same : Prop} {s u s' u' : State} (c : Prop) [Decidable c] (h : Alike same s u) (h' : Alike same s' u') :
    Alike same (if c then s else s') (if c then u else u') := by
  split
  · exact h
  · exact h'

theorem EnvAlike.symm {e f : Env} (h : EnvAlike e f) : EnvAlike f e :=
  ⟨h.cmds.symm, h.levels.symm, h.clocks.symm, h.levelsDrawn.symm, h.clocksDrawn.symm⟩

theorem EnvAlike.trans {e f g : Env} (h : EnvAlike e f) (h' : EnvAlike f g) : EnvAlike e g :=
  ⟨h.cmds.trans h'.cmds, h.levels.trans h'.levels, h.clocks.trans h'.clocks, h.levelsDrawn.trans h'.levelsDrawn,
    h.clocksDrawn.trans h'.clocksDrawn⟩

theorem nextPick_envAlike (e : Env) : EnvAlike (nextPick e).2 e := by
  unfold nextPick
  split
  · exact ⟨rfl, rfl, rfl, rfl, rfl⟩
  · split <;> exact ⟨rfl, rfl, rfl, rfl, rfl⟩

/-- All that reading a byte can do: it is the last one and the getter answers, or fewer bytes are left. -/
theorem readByte_cases (reg : SharedReg) (left : List Nat) (got : F64) (s : State) :
    ∃ e, EnvAlike e s.env ∧
      ((left.length ≤ 1 ∧ ∃ v, readByte reg left got s = finish v { s with env := e }) ∨
        (1 < left.length ∧ ∃ rest got', rest.length = left.length - 1 ∧
          readByte reg left got s = { s with env := e, task := .sharedBytes reg rest got' })) := by
  refine ⟨(nextPick s.env).2, nextPick_envAlike s.env, ?_⟩
  unfold readByte
  simp only
  split
  next hnone =>
    have hle := List.getElem?_eq_none_iff.1 hnone
    have hlt := Nat.mod_lt (nextPick s.env).1 (y := left.length)
    exact .inl ⟨by omega, _, rfl⟩
  next k hsome =>
    obtain ⟨hlt, -⟩ := List.getElem?_eq_some_iff.1 hsome
    have hrest := List.length_eraseIdx_of_lt hlt
    split
    next hnil =>
      rw [hnil, List.length_nil] at hrest
      exact .inl ⟨by omega, _, rfl⟩
    next hmore =>
      have hpos := List.length_pos_iff.2 hmore
      exact .inr ⟨by omega, _, _, hrest, rfl⟩

theorem Alike.ite_left {same : Prop} {s s' u : State} (c : Prop) [Decidable c] (h : Alike same s u) (h' : Alike same s' u) :
    Alike same (if c then s else s') u := by
  split
  · exact h
  · exact h'

section Updates
variable {same : Prop} {s u : State} (h : Alike same s u)
include h

theorem Alike.shares : ∃ rot gpio hist k r e, u = ⟨s.adc, rot, gpio, hist, k, r, e, s.cfg⟩ := by
  obtain ⟨adc, rot, gpio, hist, k, r, e, cfg⟩ := u
  obtain rfl : s.adc = adc := h.side.adc
  obtain rfl : s.cfg = cfg := h.side.cfg
  exact ⟨rot, gpio, hist, k, r, e, rfl⟩

theorem Alike.symm : Alike same u s where
  side := ⟨h.side.adc.symm, h.side.cfg.symm, h.side.out.symm, h.side.dir.symm, h.side.pin.symm, h.side.started.symm,
    tasksAlike_symm h.side.task, h.side.status.symm, h.side.main.symm, h.side.cmds.symm, h.side.levels.symm, h.side.clocks.symm,
    h.side.levelsDrawn.symm, h.side.clocksDrawn.symm⟩
  answer hp := ⟨(tasksAlike_getterTask h.side.task).symm.trans (h.answer hp).1, (h.answer hp).2.symm⟩

theorem Alike.envAlike : EnvAlike s.env u.env :=
  ⟨h.side.cmds, h.side.levels, h.side.clocks, h.side.levelsDrawn, h.side.clocksDrawn⟩

theorem Alike.env {e f : Env} (he : EnvAlike e f) : Alike same { s with env := e } { u with env := f } :=
  ⟨{ h.side with
      cmds := he.cmds, levels := he.levels, clocks := he.clocks, levelsDrawn := he.levelsDrawn, clocksDrawn := he.clocksDrawn },
    h.answer⟩

theorem Alike.adc (a : Adc) : Alike same { s with adc := a } { u with adc := a } := ⟨{ h.side with adc := rfl }, h.answer⟩

theorem Alike.rot {r r' : Rot} (hpin : r.pin = r'.pin) (hstarted : r.started = r'.started) :
    Alike same { s with rot := r } { u with rot := r' } :=
  ⟨{ h.side with pin := hpin, started := hstarted }, h.answer⟩

theorem Alike.task (k : Task) (hk : getterTask k = false) : Alike same { s with task := k } { u with task := k } :=
  ⟨{ h.side with task := .inl rfl }, fun hp => ⟨hk, (h.answer hp).2⟩⟩

theorem Alike.rsp {r r' : Option Response} (hstatus : r.map Response.status = r'.map Response.status) (hr : same → r = r') :
    Alike same { s with rsp := r } { u with rsp := r' } :=
  ⟨{ h.side with status := hstatus }, fun hp => ⟨(h.answer hp).1, hr hp⟩⟩

theorem Alike.pinConfigOutput (q : Pin) : Alike same (pinConfigOutput q s) (pinConfigOutput q u) :=
  ⟨{ h.side with dir := by simp [h.side.dir], main := by simp [h.side.main] }, h.answer⟩

theorem Alike.pinConfigInput (q : Pin) (b : Bool) : Alike same (pinConfigInput q b s) (pinConfigInput q b u) :=
  ⟨{ h.side with dir := by simp [h.side.dir], main := by simp [h.side.main] }, h.answer⟩

theorem Alike.pinWrite (q : Pin) (l : Level) : Alike same (pinWrite q l s) (pinWrite q l u) :=
  ⟨{ h.side with out := by simp [h.side.out], main := by simp [h.side.main] }, h.answer⟩

theorem Alike.pinRead (q : Pin) (l : Level) : Alike same (pinRead q l s) (pinRead q l u) :=
  ⟨{ h.side with main := by simp [h.side.main] }, h.answer⟩

theorem Alike.attachFalling (q : Pin) : Alike same (attachFalling q s) (attachFalling q u) :=
  ⟨{ h.side with main := by simp [h.side.main] }, h.answer⟩

theorem Alike.nowMillis (t : Time) : Alike same (nowMillis t s) (nowMillis t u) :=
  ⟨{ h.side with main := by simp [h.side.main] }, h.answer⟩

theorem Alike.beginTask (k : Task) (hk : same → getterTask k = false) : Alike same (beginTask k s) (beginTask k u) :=
  ⟨{ h.side with task := .inl rfl, status := rfl }, fun hp => ⟨hk hp, rfl⟩⟩

theorem Alike.refuse (r : Reason) : Alike same (refuse r s) (refuse r u) := h.rsp rfl fun _ => rfl

theorem Alike.respond (r : Response) : Alike same (respond r s) (respond r u) :=
  ⟨{ h.side with task := .inl rfl, status := rfl }, fun _ => ⟨rfl, rfl⟩⟩

theorem Alike.finish (v : BitVec 64) : Alike same (finish v s) (finish v u) := h.respond _

theorem Alike.enterWait : Alike same (enterWait s) (enterWait u) := by
  unfold Machine.enterWait
  rw [h.side.adc]
  exact h.adc _

theorem Alike.setSeq (q : Seq) : Alike same (setSeq q s) (setSeq q u) := by
  unfold Machine.setSeq
  rw [h.side.adc]
  exact h.adc _

/-! ## The micro-steps -/

theorem Alike.neverReady : Alike same (neverReady s) (neverReady u) := (h.setSeq .idle).respond _

theorem Alike.pollReady (l : Level) : Alike same (pollReady l s) (pollReady l u) := by
  obtain ⟨rot, gpio, hist, k, r, e, rfl⟩ := h.shares
  have hread := h.pinRead s.adc.dataPin l
  simp only [Machine.pollReady, pinRead_adc, pinRead_cfg]
  cases l with
  | low => exact hread.adc _
  | high =>
    dsimp only
    split
    · exact hread.adc _
    · exact .ite _ (hread.adc _).neverReady (hread.adc _)

theorem Alike.finishMean (use : MeanUse) (m : Raw) : Alike same (finishMean use m s) (finishMean use m u) := by
  obtain ⟨rot, gpio, hist, k, r, e, rfl⟩ := h.shares
  have hkept := h.adc { s.adc with lastRawReading := some m }
  simp only [Machine.finishMean]
  cases use with
  | raw => exact hkept.finish _
  | value | units => dsimp only; split <;> exact hkept.respond _
  | tare => exact (hkept.adc _).finish _

theorem Alike.packRead (use : ReadUse) : Alike same (packRead use s) (packRead use u) := by
  obtain ⟨rot, gpio, hist, k, r, e, rfl⟩ := h.shares
  simp only [Machine.packRead]
  cases use with
  | dummy | single => exact (h.adc _).finish _
  | average n use =>
    dsimp only
    split
    · exact (h.adc _).finishMean use _
    · exact (h.adc _).enterWait

theorem Alike.readStep (use : ReadUse) (l : Level) : Alike same (readStep use l s) (readStep use l u) := by
  have hpoll := h.pollReady l
  have hpack := h.packRead use
  obtain ⟨rot, gpio, hist, k, r, e, rfl⟩ := h.shares
  simp only [Machine.readStep]
  split
  · exact h
  · exact hpoll
  · exact (h.pinWrite _ _).setSeq _
  · exact (h.pinRead _ _).adc _
  · exact (h.pinWrite _ _).setSeq _
  · exact (h.pinWrite _ _).setSeq _
  · exact (h.pinWrite _ _).setSeq _
  · exact hpack

theorem Alike.startStep (pos : StartPos) (t : Time) : Alike same (startStep pos t s) (startStep pos t u) := by
  simp only [Machine.startStep, ← h.side.pin]
  split
  · exact h.respond _
  next q hq =>
    cases pos with
    | configure => exact (h.pinConfigInput q true).task (.start .now) rfl
    | now =>
      have hclock := (h.nowMillis t).rot (r := { s.rot with lastEdgeTime := t, previousEdgeTime := t })
        (r' := { u.rot with lastEdgeTime := t, previousEdgeTime := t }) h.side.pin h.side.started
      exact hclock.task (.start .attach) rfl
    | attach => exact (h.attachFalling q).task (.start .flip) rfl
    | flip => exact (h.rot (by rfl) (by rfl)).finish _

theorem Alike.getterEnds (r r' : Response) (hstatus : r.status = r'.status) (hk : getterTask s.task = true) :
    Alike same (Machine.respond r s) (Machine.respond r' u) :=
  ⟨{ h.side with task := .inl rfl, status := congrArg some hstatus },
    fun hp => absurd ((h.answer hp).1.symm.trans hk) (by decide)⟩

/-- Two byte-wise reads with as many bytes left read one byte each, in any order, and both end or both go on. -/
theorem Alike.readByte {reg : SharedReg} {left left' : List Nat} {got got' : F64} (hlen : left.length = left'.length)
    (hk : getterTask s.task = true) : Alike same (readByte reg left got s) (readByte reg left' got' u) := by
  obtain ⟨e, he, hs⟩ := readByte_cases reg left got s
  obtain ⟨f, hf, hu⟩ := readByte_cases reg left' got' u
  have henv := h.env ((he.trans h.envAlike).trans hf.symm)
  obtain ⟨hend, v, hs⟩ | ⟨hmore, rest, got, hrest, hs⟩ := hs
  · obtain ⟨-, w, hu⟩ | ⟨hmore, -⟩ := hu
    · rw [hs, hu]
      exact henv.getterEnds _ _ rfl hk
    · omega
  · obtain ⟨hend, -⟩ | ⟨-, rest', got', hrest', hu⟩ := hu
    · omega
    · rw [hs, hu]
      exact ⟨{ henv.side with task := .inr ⟨reg, rest, got, rest', got', rfl, rfl, by rw [hrest, hrest', hlen]⟩ },
        fun hp => absurd ((h.answer hp).1.symm.trans hk) (by decide)⟩

/-- One micro-step, given the same answer (R225, R227). -/
theorem Alike.microStep (l : Level) (t : Time) : Alike same (microStep l t s) (microStep l t u) := by
  obtain ⟨hk, hnot⟩ | ⟨reg, left, got, left', got', hs, hu, hlen⟩ := tasksAlike_cases h.side.task
  · have hread := fun use => h.readStep use l
    have hstart := fun pos => h.startStep pos t
    have hgetter := fun r r' => h.getterEnds r r'
    obtain ⟨rot, gpio, hist, k, r, e, rfl⟩ := h.shares
    obtain rfl : s.task = k := hk
    simp only [Machine.microStep]
    split
    next => exact h
    next => exact (h.pinRead _ _).finish _
    next => exact (h.pinConfigOutput _).task _ rfl
    next => exact (h.pinConfigInput _ _).task _ rfl
    next => exact (((h.adc _).pinWrite _ _).task _ rfl).enterWait
    next use _ => exact hread use
    next => exact (h.pinWrite _ _).task _ rfl
    next => exact (h.pinWrite _ _).finish _
    next => exact (h.pinWrite _ _).finish _
    next pos _ => exact hstart pos
    next htask => exact hgetter _ _ rfl (by rw [htask]; rfl)
    next htask => exact absurd htask (hnot _ _ _)
  · rw [Machine.microStep, Machine.microStep, hs, hu]
    exact h.readByte hlen (by rw [hs]; rfl)

/-! ## Edges, on either side alone -/

theorem Alike.env_left {e : Env} (he : EnvAlike e s.env) : Alike same { s with env := e } u := h.env (he.trans h.envAlike)

theorem Alike.takeEdge_left (t : Time) : Alike same (takeEdge t s) u :=
  ⟨Laws.AdcSideAlike.takeEdge h.side t, by simpa using h.answer⟩

theorem Alike.moreEdges_left : Alike same (moreEdges s) u := by
  unfold Machine.moreEdges
  exact .ite_left _ (h.env_left ⟨rfl, rfl, rfl, rfl, rfl⟩) h

omit h in
theorem Alike.deliver_left : ∀ (es : List EdgeAt) {s : State}, Alike same s u → Alike same (deliver es s) u
  | [], _, h => h.env_left ⟨rfl, rfl, rfl, rfl, rfl⟩
  | ⟨0, t⟩ :: rest, _, h => Alike.deliver_left rest (h.takeEdge_left t)
  | ⟨_ + 1, _⟩ :: _, _, h => h.env_left ⟨rfl, rfl, rfl, rfl, rfl⟩

theorem Alike.countDown_left : Alike same (countDown s) u := by
  unfold Machine.countDown
  split
  · exact h
  · exact h.env_left ⟨rfl, rfl, rfl, rfl, rfl⟩

theorem Alike.idleStep_left : Alike same (idleStep s) u := by
  unfold Machine.idleStep
  simp only
  split
  · exact h.moreEdges_left
  · refine (h.moreEdges_left.env_left ?_).takeEdge_left _
    exact ⟨rfl, rfl, rfl, rfl, rfl⟩

/-! ## Runs -/

theorem Alike.turn (l : Level) (t : Time) : Alike same (turn l t s) (turn l t u) := by
  have hdue : Alike same (deliver (moreEdges s).env.edges (moreEdges s)) (deliver (moreEdges u).env.edges (moreEdges u)) :=
    (h.moreEdges_left.deliver_left _).symm.moreEdges_left.deliver_left _ |>.symm
  exact (hdue.microStep l t).countDown_left.symm.countDown_left.symm

theorem Alike.need : need s = need u := by
  obtain ⟨hk, -⟩ | ⟨reg, left, got, left', got', hs, hu, -⟩ := tasksAlike_cases h.side.task
  · rw [Machine.need, Machine.need, hk, h.side.adc]
  · rw [Machine.need, Machine.need, hs, hu]

theorem Alike.levelTurn : Alike same (levelTurn s) (levelTurn u) := by
  unfold Machine.levelTurn
  rw [← h.side.levels]
  split
  · exact h
  · refine (h.env ?_).turn _ _
    exact ⟨h.side.cmds, rfl, h.side.clocks, h.side.levelsDrawn, h.side.clocksDrawn⟩

theorem Alike.clockTurn : Alike same (clockTurn s) (clockTurn u) := by
  unfold Machine.clockTurn
  rw [← h.side.clocks]
  split
  · exact h
  · refine (h.env ?_).turn _ _
    exact ⟨h.side.cmds, h.side.levels, rfl, h.side.levelsDrawn, h.side.clocksDrawn⟩

omit h in
theorem Alike.settle : ∀ (n : Nat) {s u : State}, Alike same s u → Alike same (settle n s) (settle n u)
  | 0, _, _, h => h
  | n + 1, s, u, h => by
    unfold Machine.settle
    rw [← h.need, ← h.side.clocks]
    split
    · exact h
    · exact h
    · exact Alike.settle n (h.turn _ _)
    · exact .ite _ h (Alike.settle n h.clockTurn)

omit h in
theorem Alike.runSamples : ∀ (n : Nat) {s u : State}, Alike same s u → Alike same (runSamples n s) (runSamples n u)
  | 0, _, _, h => h.settle _
  | n + 1, s, u, h => by
    have hsettled := h.settle settleBound
    unfold Machine.runSamples
    simp only
    rw [← hsettled.need]
    split
    · exact Alike.runSamples n hsettled.levelTurn
    · exact hsettled
    · exact hsettled
    · exact hsettled

theorem Alike.runCommand : Alike same (runCommand s) (runCommand u) := by
  rw [Machine.runCommand, Machine.runCommand, ← h.side.levels]
  exact h.runSamples _

theorem Alike.supply : Alike same (supply s) (supply u) := by
  unfold Machine.supply
  rw [← h.need, ← h.side.levels, ← h.side.clocks, ← h.side.levelsDrawn, ← h.side.clocksDrawn]
  split
  · exact .ite _ (h.env ⟨h.side.cmds, rfl, h.side.clocks, rfl, h.side.clocksDrawn⟩) h
  · exact .ite _ (h.env ⟨h.side.cmds, h.side.levels, rfl, h.side.levelsDrawn, rfl⟩) h
  · exact h
  · exact h

theorem Alike.resume : Alike same (resume s) (resume u) := h.supply.runCommand

/-! ## A command issued, and a step -/

theorem Alike.startTask (k : Task) (hk : same → getterTask k = false) : Alike same (startTask k s) (startTask k u) :=
  (h.beginTask k hk).runCommand

theorem Alike.startRead (use : ReadUse) : Alike same (startRead use s) (startRead use u) :=
  (h.beginTask (.reading use) fun _ => rfl).enterWait.runCommand

theorem Alike.startMean (n : Count) (use : MeanUse) : Alike same (startMean n use s) (startMean n use u) := by
  rw [Machine.startMean, Machine.startMean, ← h.side.adc]
  exact (h.adc _).startRead _

theorem Alike.startShared (reg : SharedReg) (hnot : ¬ same) : Alike same (startShared reg s) (startShared reg u) := by
  rw [Machine.startShared, Machine.startShared, ← h.side.cfg]
  exact .ite _ (h.startTask _ fun hp => absurd hp hnot) (h.startTask _ fun hp => absurd hp hnot)

theorem Alike.gainRow (g : Byte) : Alike same (gainRow g s) (gainRow g u) := by
  simp only [Machine.gainRow, selectGain, ← h.side.adc]
  split
  · exact h.adc _
  · exact h.refuse _

omit h in
theorem Alike.command {t v : State} {body body' : State → State} (hbody : Alike same (body s) (body' u))
    (hs : command s body = .next t) (hu : command u body' = .next v) : Alike same t v := by
  obtain ⟨-, rfl⟩ := command_next hs
  obtain ⟨-, rfl⟩ := command_next hu
  exact hbody

theorem Alike.adcCommand {t v : State} {body : State → State} (hbody : Alike same (body s) (body u))
    (hs : adcCommand s body = .next t) (hu : adcCommand u body = .next v) : Alike same t v := by
  refine Alike.command ?_ hs hu
  simp only [isConstructed, ← h.side.adc]
  exact .ite _ hbody (h.refuse _)

/-- An instruction issued in both: its tests read the registers that are alike. -/
theorem Alike.exec {i : Instr} {t v : State} (hi : same → isGetter i = false) (hs : exec i s = .next t)
    (hu : exec i u = .next v) : Alike same t v := by
  unfold Machine.exec at hs hu
  have hadc := h.side.adc
  cases i with
  | rotEdge now =>
    cases hs
    cases hu
    exact ((h.takeEdge_left now).symm.takeEdge_left now).symm
  | adcConstruct d c g =>
    refine Alike.command ?_ hs hu
    simp only [isConstructed, selectGain, ← hadc]
    refine .ite _ (h.refuse _) ?_
    split
    · exact h.refuse _
    · exact (h.adc _).startTask .constructOut fun _ => rfl
  | adcSetGain g =>
    refine h.adcCommand ?_ hs hu
    simp only [selectGain, ← hadc]
    split
    · exact h.refuse _
    · exact (h.adc _).startTask .gainLow fun _ => rfl
  | adcIsReady => exact h.adcCommand (h.startTask _ fun _ => rfl) hs hu
  | adcPowerDown => exact h.adcCommand (h.startTask _ fun _ => rfl) hs hu
  | adcPowerUp => exact h.adcCommand (h.startTask _ fun _ => rfl) hs hu
  | adcRead => exact h.adcCommand (h.startRead .single) hs hu
  | adcReadAverage | adcTare =>
    refine h.adcCommand ?_ hs hu
    exact .ite _ (h.refuse _) (h.startMean _ _)
  | adcGetValue | adcGetUnits =>
    refine h.adcCommand ?_ hs hu
    rw [← hadc]
    exact .ite _ (h.refuse _) (.ite _ (h.refuse _) (h.startMean _ _))
  | adcGetLastUnits =>
    refine h.adcCommand ?_ hs hu
    rw [← hadc]
    split
    · exact h.finish _
    · exact h.refuse _
  | adcSetScale | adcSetOffset =>
    refine h.adcCommand ?_ hs hu
    rw [← hadc]
    exact (h.adc _).finish _
  | adcGetScale | adcGetOffset =>
    refine h.adcCommand ?_ hs hu
    rw [← hadc]
    split
    · exact h.finish _
    · exact h.refuse _
  | rotConstruct p =>
    refine Alike.command ?_ hs hu
    simp only [isStarted, ← h.side.started]
    exact .ite _ (h.finish _) ((h.rot (by rfl) (by rfl)).finish _)
  | rotStart =>
    refine Alike.command ?_ hs hu
    simp only [isStarted, ← h.side.started, ← h.side.pin]
    refine .ite _ (h.finish _) ?_
    split
    · exact h.refuse _
    · exact h.startTask _ fun _ => rfl
  | rotGetSpeed | rotGetRotates =>
    exact Alike.command (h.startShared _ fun hp => absurd (hi hp) (by decide)) hs hu
  | gainCode128 | gainCode64 | gainCode32 => exact Alike.command (h.gainRow _) hs hu

end Updates

theorem getterTask_of_not_readsShared {s : State} (h : readsShared s = false) : getterTask s.task = false := by
  unfold readsShared at h
  cases hk : s.task with
  | sharedWhole | sharedBytes => rw [hk] at h; cases h
  | _ => rfl

theorem readsShared_of_decoded {s : State} {p : Presented} {rest : List Presented} {i : Instr} (hs : s.task = .idle)
    (hp : s.env.cmds = p :: rest) (hd : decode p = .ok i) : readsShared s = isGetter i := by
  simp only [readsShared, hs, fetchNext, hp, hd]

theorem step_of_waiting {s : State} (hs : s.task = .idle) (hp : s.env.cmds = []) : step s = .next (idleStep s) := by
  simp only [step, isIdle_iff.2 hs, fetchNext, hp, if_true]

/-- Both states make the same kind of step, and each kind keeps them alike. -/
theorem step_alike {s u t v : State} (h : AdcSideAlike s u) (hs : step s = .next t) (hu : step u = .next v) :
    Alike (readsShared s = false ∧ s.rsp = u.rsp) t v := by
  have hboth : Alike (readsShared s = false ∧ s.rsp = u.rsp) s u :=
    ⟨h, fun ⟨hplain, hrsp⟩ => ⟨getterTask_of_not_readsShared hplain, hrsp⟩⟩
  by_cases hk : s.task = .idle
  · have hk' : u.task = .idle := (tasksAlike_eq h.task (by rw [hk]; rfl)).symm.trans hk
    cases hcmds : s.env.cmds with
    | nil =>
      rw [step_of_waiting hk hcmds] at hs
      rw [step_of_waiting hk' (h.cmds.symm.trans hcmds)] at hu
      cases hs
      cases hu
      exact hboth.idleStep_left.symm.idleStep_left.symm
    | cons p rest =>
      have hcmds' := h.cmds.symm.trans hcmds
      have htaken := hboth.env (e := { s.env with cmds := rest }) (f := { u.env with cmds := rest })
        ⟨rfl, h.levels, h.clocks, h.levelsDrawn, h.clocksDrawn⟩
      cases hd : decode p with
      | ok i =>
        rw [step_of_decoded hk hcmds hd] at hs
        rw [step_of_decoded hk' hcmds' hd] at hu
        exact htaken.exec (fun ⟨hplain, _⟩ => (readsShared_of_decoded hk hcmds hd).symm.trans hplain) hs hu
      | error e =>
        rw [step_of_undecoded hk hcmds hd] at hs
        rw [step_of_undecoded hk' hcmds' hd] at hu
        cases hs
        cases hu
        exact htaken.refuse _
  · have hk' : u.task ≠ .idle := fun hidle =>
      hk (tasksAlike_eq (tasksAlike_symm h.task) (by rw [hidle]; rfl) ▸ hidle)
    rw [step_of_running hk] at hs
    rw [step_of_running hk'] at hu
    cases hs
    cases hu
    exact hboth.resume

/-- Settles O56: a step is turns, an instruction issued or an edge, and each keeps the two states alike. -/
theorem everyStepKeepsTheAdcSidesAlike : Obligations.EveryStepKeepsTheAdcSidesAlike := by
  unfold Obligations.EveryStepKeepsTheAdcSidesAlike
  intro s u t v h hs hu
  obtain ⟨hside, hanswer⟩ := step_alike h hs hu
  exact ⟨hside, fun hplain hrsp => (hanswer ⟨hplain, hrsp⟩).2⟩

theorem isGetter_of_isAdc {i : Instr} (h : i.isAdc = true) : isGetter i = false := by
  cases i with
  | rotGetSpeed | rotGetRotates => cases h
  | _ => rfl

theorem idle_of_exec_adc {i : Instr} {s t : State} (hi : i.isAdc = true) (h : exec i s = .next t) : s.task = .idle := by
  obtain ⟨now, rfl, -⟩ | ⟨hidle, -⟩ := exec_begins h
  · cases hi
  · exact hidle

/-- Settles O55: the state with its edges taken away is alike to the state with them. -/
theorem edgesDoNotDisturbTheAdcUnit : Obligations.EdgesDoNotDisturbTheAdcUnit := by
  unfold Obligations.EdgesDoNotDisturbTheAdcUnit
  intro i s t u hi ht hu
  have hidle := idle_of_exec_adc hi ht
  have hwithout : Alike True s { s with env := { s.env with edges := [], edgesGoOn := false } } :=
    ⟨{ AdcSideAlike.refl s with }, fun _ => ⟨by rw [hidle]; rfl, rfl⟩⟩
  obtain ⟨h, hanswer⟩ := hwithout.exec (fun _ => isGetter_of_isAdc hi) ht hu
  obtain ⟨hplain, hrsp⟩ := hanswer trivial
  exact ⟨h.adc, hrsp, tasksAlike_eq h.task hplain, h.out, h.dir, h.main, h.levels⟩
end Sys2Proof.SideBySide
end

section
/-! PROOF. The tests an `adc.` command makes before it starts (40_adc_wire.md R90, R91, 41_adc_calibration.md R122 to R133). -/

open Sys2Proof.Machine Sys2Proof.Laws

namespace Sys2Proof.AdcTests

theorem adcCommand_of_unconstructed {s : State} (body : State → State) (hs : s.task = .idle) (hc : s.adc.constructed = false) :
    adcCommand s body = .next (refuse .notConstructed s) := by
  simp [adcCommand, command_of_idle _ hs, isConstructed, hc]

/-- Settles O15: every command of the unit but one is issued through the test of the flag. -/
theorem adcCommandsNeedConstruct : Obligations.AdcCommandsNeedConstruct := by
  unfold Obligations.AdcCommandsNeedConstruct
  intro i s hi hnot hs hc
  unfold exec
  cases i with
  | adcConstruct d c g => exact absurd rfl (hnot d c g)
  | rotConstruct | rotStart | rotGetSpeed | rotGetRotates | rotEdge | gainCode128 | gainCode64 | gainCode32 => cases hi
  | _ => exact adcCommand_of_unconstructed _ hs hc

section Ready
variable {s : State} (hs : adcReady s)
include hs

theorem adcCommand_of_adcReady (body : State → State) : adcCommand s body = .next (body s) :=
  adcCommand_of_ready body hs.1 hs.2

theorem exec_construct_again (d c : Pin) (g : Byte) : exec (.adcConstruct d c g) s = .next (refusedWith 2#64 s) := by
  obtain ⟨hidle, hc⟩ := hs
  show execAdcConstruct d c g s = _
  rw [execAdcConstruct, command_of_idle _ hidle]
  simp only [isConstructed, hc, if_true]
  rfl

theorem exec_getValue_unwritten {n : Count} (hn : n ≠ 0#8) (ho : s.adc.offset = none) :
    exec (.adcGetValue n) s = .next (refusedWith 5#64 s) := by
  show execAdcGetValue n s = _
  rw [execAdcGetValue, adcCommand_of_adcReady hs, if_neg hn, ho]
  rfl

theorem exec_getUnits_unwritten {n : Count} (hn : n ≠ 0#8) (h : s.adc.offset = none ∨ s.adc.scale = none) :
    exec (.adcGetUnits n) s = .next (refusedWith 5#64 s) := by
  show execAdcGetUnits n s = _
  have htest : (s.adc.offset.isNone || s.adc.scale.isNone) = true := by simpa using h
  rw [execAdcGetUnits, adcCommand_of_adcReady hs, if_neg hn, if_pos htest]
  rfl

theorem exec_getLastUnits_unwritten (h : s.adc.offset = none ∨ s.adc.scale = none ∨ s.adc.lastRawReading = none) :
    exec .adcGetLastUnits s = .next (refusedWith 5#64 s) := by
  show execAdcGetLastUnits s = _
  rw [execAdcGetLastUnits, adcCommand_of_adcReady hs]
  split
  next ho hc hr => simp [ho, hc, hr] at h
  next => rfl

theorem exec_getScale_unwritten (hc : s.adc.scale = none) : exec .adcGetScale s = .next (refusedWith 5#64 s) := by
  show execAdcGetScale s = _
  rw [execAdcGetScale, adcCommand_of_adcReady hs, hc]
  rfl

theorem exec_getOffset_unwritten (ho : s.adc.offset = none) : exec .adcGetOffset s = .next (refusedWith 5#64 s) := by
  show execAdcGetOffset s = _
  rw [execAdcGetOffset, adcCommand_of_adcReady hs, ho]
  rfl

end Ready

/-- Settles O17: each command's own test of the registers it must read, after the count's. -/
theorem unwrittenAndSecondConstructAreRefused : Obligations.UnwrittenAndSecondConstructAreRefused := by
  unfold Obligations.UnwrittenAndSecondConstructAreRefused
  exact fun s hs => ⟨exec_construct_again hs, fun _ => exec_getValue_unwritten hs, fun _ => exec_getUnits_unwritten hs,
    exec_getLastUnits_unwritten hs, exec_getScale_unwritten hs, exec_getOffset_unwritten hs⟩

end Sys2Proof.AdcTests
end

section
/-! PROOF. Reads on the link with no edge to come (40_adc_wire.md R90 to R106). `runCommand_frame` runs one whole frame of a read
that waits, up to PACK; from it come the commands that end with one read, and by induction on the script the reads of a mean. -/

open Sys2Proof.Machine Sys2Proof.Laws Sys2Proof.Issue Sys2Proof.AdcTests

namespace Sys2Proof.Reads

/-! ## The positions a run is taken up at -/

/-- A read of command `use` begins: no response stands, the sequencer is in WAIT and nothing has been polled. -/
def atWait (use : ReadUse) (s : State) : State := enterWait (beginTask (.reading use) s)

/-- A read of command `use` is about to PACK: the frame's events are left, the shift register holds the wire code. -/
def atPack (use : ReadUse) (k : Nat) (w : Code) (rest : List Level) (s : State) : State :=
  { s with
    task := .reading use, rsp := none, adc := { s.adc with seq := .pack, shreg := w, polls := k }, gpio := clockLow s
    hist := s.hist ++ frameEvents s.adc.clockPin s.adc.dataPin k w s.adc.gainSel, env := { s.env with levels := rest } }

/-- A run may be taken up where it first waits for a sample or ends. -/
theorem runCommand_settled {s s' : State} (hs : settle settleBound s = s') (hl : s'.env.levels = s.env.levels)
    (h : need s' = .level ∨ need s' = .done) : runCommand s = runCommand s' := by
  rw [runCommand, runCommand, hl, runSamples_settle _ hs h]

/-! ## The shift register (R26) -/

theorem getLsbD_setBit (r : Code) (b : Bool) {i j : Nat} (hj : j < 24) :
    (setBit r i b).getLsbD j = if j = i then b else r.getLsbD j := by
  have hmask : (1#24 <<< i).getLsbD j = decide (j = i) := by
    rw [BitVec.getLsbD_shiftLeft, BitVec.getLsbD_one, decide_eq_true hj]
    by_cases h : j = i
    · simp [h]
    · simp [h]
      omega
  cases b with
  | true =>
    rw [setBit, if_pos rfl, BitVec.getLsbD_or, hmask]
    by_cases h : j = i <;> simp [h]
  | false =>
    rw [setBit, if_neg Bool.false_ne_true, BitVec.getLsbD_and, BitVec.getLsbD_not, hmask, decide_eq_true hj]
    by_cases h : j = i <;> simp [h]

/-- Bits `i` down to 0 are the wire code's, the others as they were. -/
theorem getLsbD_shregFrom (w : Code) : ∀ (i : Nat) (r : Code) {j : Nat}, j < 24 →
    (shregFrom w i r).getLsbD j = if j ≤ i then w.getLsbD j else r.getLsbD j
  | 0, r, j, hj => by
    rw [shregFrom, getLsbD_setBit r _ hj]
    simp only [Nat.le_zero]
    split
    next h => rw [h]
    next => rfl
  | i + 1, r, j, hj => by
    rw [shregFrom, getLsbD_shregFrom w i _ hj, getLsbD_setBit r _ hj]
    by_cases hlast : j = i + 1
    · simp [hlast]
    · have hle : j ≤ i + 1 ↔ j ≤ i := by omega
      simp [hlast, hle]

theorem shregFrom_all (w r : Code) : shregFrom w 23 r = w := by
  refine BitVec.eq_of_getLsbD_eq fun j hj => ?_
  rw [getLsbD_shregFrom w 23 r hj, if_pos (Nat.le_of_lt_succ hj)]

/-! ## The end of a frame: the last fall, the gain pulses, PACK (R61, R95) -/

theorem gainPulses_succ (c : Pin) (g : Nat) : gainPulses c (g + 1) = .wr c .high :: .wr c .low :: gainPulses c g := by
  simp [gainPulses, List.replicate_succ]

/-- A read's clock pin has been driven LOW once more, `es` left in the history, and the sequencer is at `q`. -/
def pulsed (q : Seq) (es : List Event) (s : State) : State :=
  { s with adc := { s.adc with seq := q }, gpio := clockLow s, hist := s.hist ++ es }

theorem settle_quiet_succ {s s' : State} (n : Nat) (hq : quiet s) (hneed : need s = .nothing)
    (hstep : microStep .low 0#32 s = s') : settle (n + 1) s = settle n s' := by
  rw [settle_quiet (Nat.succ_pos n) hq hneed, hstep, Nat.succ_sub_one]

theorem settle_readStep {use : ReadUse} {s : State} (n : Nat) (hk : s.task = .reading use)
    (hneed : seqNeed s.adc.seq = .nothing) (hq : quiet s) : settle (n + 1) s = settle n (readStep use .low s) :=
  settle_quiet_succ n hq (by rw [need, hk]; exact hneed) (by rw [microStep, hk])

/-- One gain pulse: HIGH, then LOW. -/
theorem settle_gainPulse {use : ReadUse} {s : State} {j : GainSel} (n : Nat) (hk : s.task = .reading use)
    (hj : s.adc.seq = .gainp j .rise) (hq : quiet s) :
    settle (n + 2) s =
      settle n (pulsed (afterGain s.adc.gainSel j) [.wr s.adc.clockPin .high, .wr s.adc.clockPin .low] s) := by
  have hrise : readStep use .low s = setSeq (.gainp j .fall) (pinWrite s.adc.clockPin .high s) := by rw [readStep, hj]
  rw [settle_readStep (n + 1) hk (by rw [hj]; rfl) hq, hrise]
  rw [settle_readStep n (s := setSeq (.gainp j .fall) (pinWrite s.adc.clockPin .high s)) hk rfl hq]
  simp [readStep, pulsed, clockLow, pinWrite, setSeq, record]

theorem pulsed_pulsed (q q' : Seq) (es es' : List Event) (s : State) :
    pulsed q' es' (pulsed q es s) = pulsed q' (es ++ es') s := by
  simp [pulsed, clockLow]

/-- The gain pulses from number `j` on, `m` more of them after it. -/
theorem settle_gainPulses {use : ReadUse} (n : Nat) : ∀ (m : Nat) (j : GainSel) (s : State), s.task = .reading use →
    s.adc.seq = .gainp j .rise → quiet s → j.toNat + m = s.adc.gainSel.toNat →
    settle (n + 2 * (m + 1)) s = settle n (pulsed .pack (gainPulses s.adc.clockPin (m + 1)) s)
  | 0, j, s, hk, hj, hq, hm => by
    have hlast : afterGain s.adc.gainSel j = .pack := if_neg (by omega)
    rw [settle_gainPulse n hk hj hq, hlast]
    rfl
  | m + 1, j, s, hk, hj, hq, hm => by
    have hnext : afterGain s.adc.gainSel j = .gainp (j + 1#2) .rise := if_pos (by omega)
    have hnum : (j + 1#2).toNat + m = s.adc.gainSel.toNat := by
      have hsel := s.adc.gainSel.isLt
      rw [BitVec.toNat_add_of_lt (by simp; omega), ← hm]
      simp only [BitVec.toNat_ofNat]
      omega
    rw [show n + 2 * (m + 1 + 1) = n + 2 * (m + 1) + 2 by omega, settle_gainPulse _ hk hj hq, hnext,
      settle_gainPulses (use := use) n m (j + 1#2) (pulsed _ _ s) hk rfl hq hnum, pulsed_pulsed, gainPulses_succ _ (m + 1)]
    rfl

/-- What follows the last sample of a frame: its fall, the gain pulses, PACK. -/
theorem settle_end {use : ReadUse} {s : State} (hk : s.task = .reading use) (hs : s.adc.seq = .shift ⟨0, by decide⟩ .fall)
    (hq : quiet s) : ∃ n, settle settleBound s =
      settle n (packRead use (pulsed .pack (.wr s.adc.clockPin .low :: gainPulses s.adc.clockPin s.adc.gainSel.toNat) s)) := by
  have hpack : ∀ n es, settle (n + 1) (pulsed .pack es s) = settle n (packRead use (pulsed .pack es s)) := fun n es =>
    settle_readStep n (s := pulsed .pack es s) hk rfl hq
  have hfall : settle settleBound s =
      settle 11 (pulsed (afterFall s.adc.gainSel ⟨0, by decide⟩) [.wr s.adc.clockPin .low] s) := by
    rw [settleBound, settle_readStep 11 hk (by rw [hs]; rfl) hq, readStep, hs]
    rfl
  rw [hfall, afterFall]
  split
  next hnone =>
    rw [hnone]
    exact ⟨10, hpack 10 _⟩
  next hsome =>
    have hpos : s.adc.gainSel.toNat ≠ 0 := fun h => hsome (BitVec.eq_of_toNat_eq h)
    have hlt := s.adc.gainSel.isLt
    obtain ⟨m, hm⟩ : ∃ m, s.adc.gainSel.toNat = m + 1 := ⟨_, (Nat.succ_pred hpos).symm⟩
    refine ⟨8 - 2 * m, ?_⟩
    rw [show 11 = 8 - 2 * m + 1 + 2 * (m + 1) by omega,
      settle_gainPulses (use := use) _ m 1#2 (pulsed _ _ s) hk rfl hq (by rw [Nat.add_comm]; exact hm.symm),
      pulsed_pulsed, hm]
    exact hpack _ _

theorem need_finishMean (use : MeanUse) (m : Raw) (s : State) : need (finishMean use m s) = .done := by
  cases use with
  | raw | tare => rfl
  | value | units => simp only [finishMean]; split <;> rfl

/-- After PACK the command has ended, or its next read waits for a sample. -/
theorem need_packRead {use : ReadUse} {s : State} (hk : s.task = .reading use) :
    need (packRead use s) = .level ∨ need (packRead use s) = .done := by
  cases use with
  | dummy | single => exact .inr rfl
  | average n use =>
    simp only [packRead]
    split
    · exact .inr (need_finishMean use _ _)
    · exact .inl (by simp [need, hk, seqNeed])

/-! ## A whole frame -/

/-- A read has polled HIGH `k` times and waits; the device has `ls` to answer yet. -/
def polled (use : ReadUse) (k : Nat) (ls : List Level) (s : State) : State :=
  { waitingFor use k s with env := { s.env with levels := ls } }

theorem runCommand_polls {use : ReadUse} {k : Nat} {ls : List Level} {s : State} (hq : quiet s)
    (hl : s.env.levels = List.replicate k .high ++ ls) (hk : pollsFit s.cfg k) :
    runCommand (atWait use s) = runCommand (polled use k ls s) := by
  have hlen : (atWait use s).env.levels.length = k + ls.length := by
    show s.env.levels.length = _
    rw [hl, List.length_append, List.length_replicate]
  rw [runCommand, hlen, poll_run use k (atWait use s) ls ls.length rfl rfl hq hl fun b hb => (Nat.zero_add k).symm ▸ hk b hb]
  simp [runCommand, polled, waitingFor, atWait, beginTask, enterWait]

theorem runCommand_sample {use : ReadUse} {l : Level} {ls : List Level} {s : State} (hk : s.task = .reading use)
    (hneed : need s = .level) (hq : quiet s) (hl : s.env.levels = l :: ls) :
    runCommand s = runCommand (readStep use l { s with env := { s.env with levels := ls } }) := by
  have hturn : levelTurn s = readStep use l { s with env := { s.env with levels := ls } } := by
    rw [levelTurn_quiet hq hl, microStep, hk]
  rw [runCommand, hl, List.length_cons, runSamples_of_level _ hneed, hturn, runCommand, readStep_env]

/-- A read is about to sample bit 23: the wait has ended and the clock is HIGH for the first data pulse. -/
def atFirstBit (use : ReadUse) (k : Nat) (ls : List Level) (s : State) : State :=
  { s with
    task := .reading use, rsp := none, adc := { s.adc with seq := .shift 23 .sample, shreg := 0#24, polls := k }
    gpio := { s.gpio with out := pinSet s.gpio.out s.adc.clockPin.toNat .high }
    hist := s.hist ++ (List.replicate k (.rd s.adc.dataPin .high) ++ [.rd s.adc.dataPin .low, .wr s.adc.clockPin .high])
    env := { s.env with levels := ls } }

theorem runCommand_ready {use : ReadUse} {k : Nat} {ls : List Level} {s : State} (hq : quiet s) :
    runCommand (polled use k (.low :: ls) s) = runCommand (atFirstBit use k ls s) := by
  rw [runCommand_sample (s := polled use k (.low :: ls) s) rfl rfl hq rfl]
  refine runCommand_settled ((settle_readStep (use := use) 11 rfl rfl (by exact hq)).trans
    ((settle_of_level rfl 11).trans ?_)) rfl (.inl rfl)
  simp [readStep, pollReady, polled, waitingFor, atFirstBit, pinRead, pinWrite, setSeq, record]

theorem wireLevels_eq (w : Code) : wireLevels w = bitsFrom w 23 := rfl

/-- Data pulses end LOW. -/
theorem dataPulses_eq (c d : Pin) (w : Code) (i : Nat) : (bitsFrom w i).flatMap (dataPulse c d) =
    ((bitsFrom w i).flatMap (dataPulse c d)).dropLast ++ [.wr c .low] := by
  have hlast : (bitsFrom w i).flatMap (dataPulse c d) =
      ((List.range i).map fun j => Level.ofBit (w.getLsbD (i - j))).flatMap (dataPulse c d) ++
        [.wr c .high, .rd d (Level.ofBit (w.getLsbD 0))] ++ [.wr c .low] := by
    simp [bitsFrom, List.range_succ, dataPulse]
  rw [hlast, List.dropLast_concat]

/-- The last data pulse of a frame has been sampled: its fall is to come. -/
def atLastFall (use : ReadUse) (k : Nat) (w : Code) (rest : List Level) (s : State) : State :=
  { atFirstBit use k rest s with
    adc := { s.adc with seq := .shift ⟨0, by decide⟩ .fall, shreg := w, polls := k }
    hist := s.hist ++ (List.replicate k (.rd s.adc.dataPin .high) ++
      .rd s.adc.dataPin .low :: ((wireLevels w).flatMap (dataPulse s.adc.clockPin s.adc.dataPin)).dropLast) }

theorem runCommand_bits {use : ReadUse} {k : Nat} {w : Code} {rest : List Level} {s : State} (hq : quiet s) :
    runCommand (atFirstBit use k (wireLevels w ++ rest) s) = runCommand (atLastFall use k w rest s) := by
  have hlen : (atFirstBit use k (wireLevels w ++ rest) s).env.levels.length = 23 + 1 + rest.length := by
    show (wireLevels w ++ rest).length = _
    simp [wireLevels, Config.dataBits]
  have hevents : (wireLevels w).flatMap (dataPulse s.adc.clockPin s.adc.dataPin) =
      .wr s.adc.clockPin .high :: .rd s.adc.dataPin (Level.ofBit (w.getLsbD 23)) :: .wr s.adc.clockPin .low ::
        (bitsFrom w 22).flatMap (dataPulse s.adc.clockPin s.adc.dataPin) := by
    rw [wireLevels_eq, bitsFrom_succ]
    rfl
  have hdrop : ((wireLevels w).flatMap (dataPulse s.adc.clockPin s.adc.dataPin)).dropLast =
      .wr s.adc.clockPin .high :: .rd s.adc.dataPin (Level.ofBit (w.getLsbD 23)) :: .wr s.adc.clockPin .low ::
        ((bitsFrom w 22).flatMap (dataPulse s.adc.clockPin s.adc.dataPin)).dropLast := by
    rw [hevents, dataPulses_eq, ← List.cons_append, ← List.cons_append, ← List.cons_append, List.dropLast_concat,
      List.dropLast_concat]
  rw [runCommand, hlen,
    shift_run use w 23 (by decide) (atFirstBit use k (wireLevels w ++ rest) s) rest rest.length s.gpio.out rfl rfl hq rfl rfl]
  simp [runCommand, atFirstBit, atLastFall, shregFrom_all, hdrop]

/-- A frame answered in full takes a read from WAIT to what PACK makes of it (R95, R98). -/
theorem runCommand_frame {use : ReadUse} {k : Nat} {w : Code} {rest : List Level} {s : State} (hq : quiet s)
    (hl : s.env.levels = frameLevels k w ++ rest) (hk : pollsFit s.cfg k) :
    runCommand (atWait use s) = runCommand (packRead use (atPack use k w rest s)) := by
  have hl' : s.env.levels = List.replicate k .high ++ .low :: (wireLevels w ++ rest) := by rw [hl, frameLevels]; simp
  obtain ⟨n, hend⟩ := settle_end (use := use) (s := atLastFall use k w rest s) rfl rfl hq
  have hpack : pulsed .pack (.wr s.adc.clockPin .low :: gainPulses s.adc.clockPin s.adc.gainSel.toNat)
      (atLastFall use k w rest s) = atPack use k w rest s := by
    rw [atPack, frameEvents, wireLevels_eq, dataPulses_eq]
    simp [pulsed, atLastFall, atFirstBit, clockLow, wireLevels_eq]
  have hneed := need_packRead (use := use) (s := atPack use k w rest s) rfl
  have hstay : settle n (packRead use (atPack use k w rest s)) = packRead use (atPack use k w rest s) :=
    hneed.elim (settle_of_level · n) (settle_of_done · n)
  rw [runCommand_polls hq hl' hk, runCommand_ready hq, runCommand_bits hq]
  exact runCommand_settled (hend.trans ((congrArg _ (congrArg _ hpack)).trans hstay))
    (congrArg Env.levels (packRead_env use _)) hneed

/-! ## The commands up to their read -/

/-- The write of the selector and of the clock, before the dummy read (R93). -/
theorem runCommand_gainLow {sel : GainSel} {s : State} (hq : quiet s) :
    runCommand (beginTask .gainLow (selectGain sel s)) = runCommand (atWait .dummy (afterGainWrite sel s)) :=
  runCommand_settled ((settle_quiet_succ 11 (by exact hq) rfl rfl).trans (settle_of_level rfl 11)) rfl (.inl rfl)

/-- `adc.construct` has bound its pins and set the flag, and its first configuration is to come (R90). -/
def beginConstruct (dataPin clockPin : Pin) (sel : GainSel) (s : State) : State :=
  beginTask .constructOut
    { s with adc := { s.adc with gainArg := sel, dataPin := dataPin, clockPin := clockPin, constructed := true } }

/-- The two configurations, before the rest of `adc.setGain` (R90). -/
theorem runCommand_construct {d c : Pin} {sel : GainSel} {s : State} (hq : quiet s) :
    runCommand (beginConstruct d c sel s) =
      runCommand (atWait .dummy (afterGainWrite sel (afterConfigure d c s))) := by
  have hturns := (settle_quiet_succ (s := beginConstruct d c sel s) 11 hq rfl rfl).trans
    ((settle_quiet_succ 10 (by exact hq) rfl rfl).trans
      ((settle_quiet_succ 9 (by exact hq) rfl rfl).trans (settle_of_level rfl 9)))
  refine runCommand_settled (hturns.trans ?_) rfl (.inl rfl)
  simp [beginConstruct, microStep, afterGainWrite, afterConfigure, atWait, beginTask, pinWrite, pinConfigInput,
    pinConfigOutput, record, clockLow, enterWait]

theorem exec_read {s : State} (hs : adcReady s) : exec .adcRead s = .next (runCommand (atWait .single s)) :=
  adcCommand_of_adcReady hs _

theorem exec_setGain {s : State} {g : Byte} {sel : GainSel} (hs : adcReady s) (hq : quiet s) (hg : gainSelOf g = some sel) :
    exec (.adcSetGain g) s = .next (runCommand (atWait .dummy (afterGainWrite sel s))) := by
  show execAdcSetGain g s = _
  rw [execAdcSetGain, adcCommand_of_adcReady hs _, hg, ← runCommand_gainLow hq]
  rfl

theorem exec_construct_begins {s : State} (d c : Pin) {g : Byte} {sel : GainSel} (hidle : s.task = .idle)
    (hc : s.adc.constructed = false) (hg : gainSelOf g = some sel) :
    exec (.adcConstruct d c g) s = .next (runCommand (beginConstruct d c sel s)) := by
  show execAdcConstruct d c g s = _
  rw [execAdcConstruct, command_of_idle _ hidle]
  simp only [isConstructed, hc, hg]
  rfl

theorem exec_construct {s : State} (d c : Pin) {g : Byte} {sel : GainSel} (hidle : s.task = .idle)
    (hc : s.adc.constructed = false) (hq : quiet s) (hg : gainSelOf g = some sel) :
    exec (.adcConstruct d c g) s = .next (runCommand (atWait .dummy (afterGainWrite sel (afterConfigure d c s)))) := by
  rw [exec_construct_begins d c hidle hc hg, runCommand_construct hq]

/-! ## Commands that end with one read -/

section OneRead
variable {s : State} {k : Nat} {w : Code} {rest : List Level} (hq : quiet s) (hl : s.env.levels = frameLevels k w ++ rest)
  (hk : pollsFit s.cfg k)
include hq hl hk

theorem runCommand_single : runCommand (atWait .single s) = answered (unsignedValue (rawWord w)) (afterRead k w rest s) :=
  (runCommand_frame hq hl hk).trans (runCommand_idle rfl)

theorem runCommand_dummy : runCommand (atWait .dummy s) = answered 0#64 (afterRead k w rest s) :=
  (runCommand_frame hq hl hk).trans (runCommand_idle rfl)

end OneRead

/-- Settles O22: one frame, and what PACK makes of it for `adc.read`. -/
theorem readCompletes : Obligations.ReadCompletes := by
  unfold Obligations.ReadCompletes
  intro s k w rest hs hq hl hk
  rw [exec_read hs, runCommand_single hq hl hk]

/-- Settles O21: the selector and the LOW, then one frame. -/
theorem setGainCompletes : Obligations.SetGainCompletes := by
  unfold Obligations.SetGainCompletes
  intro s g sel k w rest hs hq hg hl hk
  rw [exec_setGain hs hq hg, runCommand_dummy (s := afterGainWrite sel s) hq hl hk]

/-- Settles O18: the configurations, the selector and the LOW, then one frame. -/
theorem constructCompletes : Obligations.ConstructCompletes := by
  unfold Obligations.ConstructCompletes
  intro s d c g sel k w rest hidle hc hq hg hl hk
  rw [exec_construct d c hidle hc hq hg, runCommand_dummy (s := afterGainWrite sel (afterConfigure d c s)) hq hl hk]

/-! ## Commands without a read -/

/-- Settles O20: one sample, and the command ends. -/
theorem isReadyCompletes : Obligations.IsReadyCompletes := by
  unfold Obligations.IsReadyCompletes
  intro s l rest hs hq hl
  have hexec : exec .adcIsReady s = .next (runCommand (beginTask .sampleReady s)) := adcCommand_of_adcReady hs _
  have hturn := levelTurn_quiet (s := beginTask .sampleReady s) hq hl
  have hlen : (beginTask .sampleReady s).env.levels.length = rest.length + 1 := congrArg List.length hl
  rw [hexec, runCommand, hlen, runSamples_of_level _ rfl, hturn, runSamples_of_done rfl]
  cases l <;> rfl

/-- Settles O23: the writes of each command, and it ends. -/
theorem powerCommandsComplete : Obligations.PowerCommandsComplete := by
  unfold Obligations.PowerCommandsComplete
  intro s hs hq
  have hdown : exec .adcPowerDown s = .next (runCommand (beginTask .powerDownLow s)) := adcCommand_of_adcReady hs _
  have hup : exec .adcPowerUp s = .next (runCommand (beginTask .powerUpLow s)) := adcCommand_of_adcReady hs _
  constructor
  · rw [hdown, runCommand_settled ((settle_quiet_succ 11 (by exact hq) rfl rfl).trans
      ((settle_quiet_succ 10 (by exact hq) rfl rfl).trans (settle_of_done rfl 10))) rfl (.inr rfl), runCommand_idle rfl]
    simp [microStep, beginTask, finish, respond, pinWrite, record, answered, noValue]
  · rw [hup, runCommand_settled ((settle_quiet_succ 11 (by exact hq) rfl rfl).trans (settle_of_done rfl 11)) rfl (.inr rfl),
      runCommand_idle rfl]
    rfl

/-! ## A wait that does not end, and one that ends in a fault (R96, R97) -/

theorem runCommand_waits {use : ReadUse} {k : Nat} {s : State} (hq : quiet s) (hbound : s.cfg.readyPollBound = none)
    (hl : s.env.levels = List.replicate k .high) : runCommand (atWait use s) = waitingFor use k s := by
  have hfit : pollsFit s.cfg k := fun b hb => by rw [hbound] at hb; cases hb
  have hpolls := runCommand_polls (use := use) (ls := []) hq (by rw [hl, List.append_nil]) hfit
  exact hpolls.trans (settle_of_level rfl _)

theorem runCommand_neverReady {use : ReadUse} {b : Nat} {rest : List Level} {s : State} (hq : quiet s) (hb : 0 < b)
    (hbound : s.cfg.readyPollBound = some b) (hl : s.env.levels = List.replicate b .high ++ rest) :
    runCommand (atWait use s) = neverReadyAfter b rest s := by
  obtain ⟨k, rfl⟩ : ∃ k, b = k + 1 := ⟨b - 1, by omega⟩
  have hfit : pollsFit s.cfg k := fun b hb => by
    rw [hbound] at hb
    cases hb
    exact Nat.lt_succ_self k
  have hl' : s.env.levels = List.replicate k .high ++ .high :: rest := by rw [hl, List.replicate_succ', List.append_assoc]; rfl
  have hlast : readStep use .high { polled use k (.high :: rest) s with env := { s.env with levels := rest } } =
      neverReadyAfter (k + 1) rest s := by
    simp [readStep, polled, waitingFor, pollReady, pinRead, record, hbound, neverReady, neverReadyAfter, respond, reasonCode,
      List.replicate_succ']
  rw [runCommand_polls hq hl' hfit, runCommand_sample (s := polled use k (.high :: rest) s) rfl rfl hq rfl]
  exact (congrArg runCommand hlast).trans (runCommand_idle rfl)

/-! ## The reads of a mean (R120) -/

/-- Induction on a script in the order its reads are done: one more conversion at its end. -/
theorem concat_induction {P : Script → Prop} (nil : P []) (concat : ∀ cs x, P cs → P (cs ++ [x])) (cs : Script) : P cs := by
  have hreverse : ∀ ds : Script, P ds.reverse := by
    intro ds
    induction ds with
    | nil => exact nil
    | cons x ds ih =>
      rw [List.reverse_cons]
      exact concat _ x ih
  rw [← List.reverse_reverse cs]
  exact hreverse cs.reverse

theorem codeSum_concat (cs : Script) (x : Nat × Code) : codeSum (cs ++ [x]) = codeSum cs + (storedCode x.2).toNat := by
  simp [codeSum]

theorem scriptLevels_concat (cs : Script) (x : Nat × Code) :
    scriptLevels (cs ++ [x]) = scriptLevels cs ++ frameLevels x.1 x.2 := by
  simp [scriptLevels]

theorem scriptEvents_concat (c d : Pin) (g : GainSel) (cs : Script) (x : Nat × Code) :
    scriptEvents c d g (cs ++ [x]) = scriptEvents c d g cs ++ frameEvents c d x.1 x.2 g := by
  simp [scriptEvents]

/-- The exact sum in the accumulator takes one more code. -/
theorem acc_concat (cs : Script) (x : Nat × Code) : BitVec.ofNat Config.accW (codeSum cs) + codeWord (storedCode x.2) =
    BitVec.ofNat Config.accW (codeSum (cs ++ [x])) := by
  rw [codeSum_concat, BitVec.ofNat_add, BitVec.ofNat_toNat]
  rfl

theorem left_concat (n : Count) (m : Nat) : n - BitVec.ofNat Config.nW m - 1#8 = n - BitVec.ofNat Config.nW (m + 1) := by
  rw [BitVec.ofNat_add, BitVec.sub_sub]

/-- Reads are left while fewer are done than asked for. -/
theorem left_ne_zero {n : Count} {m : Nat} (h : m < n.toNat) : n - BitVec.ofNat Config.nW m ≠ 0#8 := by
  intro h0
  have hn := count_lt n
  have hsame : n = BitVec.ofNat Config.nW m := (BitVec.sub_eq_iff_eq_add.1 h0).trans (BitVec.zero_add _)
  have heq : n.toNat = m % 256 := congrArg BitVec.toNat hsame
  omega

/-- The device's answers yet to come, with all else as it is. -/
def answers (ls : List Level) (s : State) : State := { s with env := { s.env with levels := ls } }

theorem clockLow_afterSamples (n : Count) (cs : Script) (ls : List Level) (s : State) :
    clockLow (answers ls (afterSamples n cs s)) = clockLow s := by
  unfold clockLow answers afterSamples
  cases cs <;> simp [clockLow]

/-- PACK of one more sample of a mean that is not complete by it. -/
theorem packRead_sample {use : MeanUse} {n : Count} {cs : Script} {x : Nat × Code} {ls rest : List Level} {s : State}
    (hn : (cs ++ [x]).length < n.toNat) :
    packRead (.average n use) (atPack (.average n use) x.1 x.2 rest (answers ls (afterSamples n cs s))) =
      atWait (.average n use) (answers rest (afterSamples n (cs ++ [x]) s)) := by
  have hleft : n - BitVec.ofNat Config.nW cs.length - 1#8 ≠ 0#8 := by
    rw [left_concat]
    exact left_ne_zero (by simpa using hn)
  have hend : packRead (.average n use) (atPack (.average n use) x.1 x.2 rest (answers ls (afterSamples n cs s))) =
      enterWait { atPack (.average n use) x.1 x.2 rest (answers ls (afterSamples n cs s)) with
        adc := { s.adc with
          lastRawReading := some (rawWord x.2), seq := .idle, shreg := x.2, polls := x.1
          acc := BitVec.ofNat Config.accW (codeSum cs) + rawWord x.2, left := n - BitVec.ofNat Config.nW cs.length - 1#8 } } :=
    if_neg hleft
  rw [hend, left_concat, rawWord, acc_concat]
  simp only [atPack, clockLow_afterSamples]
  simp [atWait, enterWait, beginTask, answers, afterSamples, scriptEvents_concat, rawWord]

/-- A mean's reads, done one after the other (R120). -/
theorem runCommand_samples {use : MeanUse} {n : Count} {s : State} (hq : quiet s) (cs : Script) :
    ∀ rest, s.env.levels = scriptLevels cs ++ rest → cs.length < n.toNat → (∀ x ∈ cs, pollsFit s.cfg x.1) →
      runCommand (atWait (.average n use) { s with adc := { s.adc with acc := 0#32, left := n } }) =
        runCommand (atWait (.average n use) (answers rest (afterSamples n cs s))) := by
  induction cs using concat_induction with
  | nil =>
    intro rest hl _ _
    have hrest : s.env.levels = rest := hl
    simp [atWait, beginTask, enterWait, answers, afterSamples, codeSum, scriptEvents, ← hrest]
  | concat cs x ih =>
    intro rest hl hlen hfit
    rw [scriptLevels_concat, List.append_assoc] at hl
    have hlen' : cs.length < n.toNat := by rw [List.length_append] at hlen; omega
    have hx : pollsFit s.cfg x.1 := hfit x (List.mem_append_right _ (List.mem_singleton_self x))
    rw [ih _ hl hlen' fun y hy => hfit y (List.mem_append_left _ hy),
      runCommand_frame (s := answers (frameLevels x.1 x.2 ++ rest) (afterSamples n cs s)) hq rfl hx, packRead_sample hlen]

theorem exec_meanCommand {use : MeanUse} {n : Count} {s : State} (hs : adcReady s) (hn : n ≠ 0#8) (ho : meanOperands use s) :
    exec (meanCommand use n) s =
      .next (runCommand (atWait (.average n use) { s with adc := { s.adc with acc := 0#32, left := n } })) := by
  have hbody : exec (meanCommand use n) s = .next (if n = 0#8 then refuse .zeroCount s else startMean n use s) := by
    unfold exec
    cases use with
    | raw | tare => exact adcCommand_of_adcReady hs _
    | value =>
      have htest : s.adc.offset.isNone = false := by simpa [meanOperands] using ho
      exact (adcCommand_of_adcReady hs _).trans (by rw [htest]; rfl)
    | units =>
      obtain ⟨hoffset, hscale⟩ := ho
      have htest : (s.adc.offset.isNone || s.adc.scale.isNone) = false := by simp [hoffset, hscale]
      exact (adcCommand_of_adcReady hs _).trans (by rw [htest]; rfl)
  rw [hbody, if_neg hn]
  rfl

theorem count_ne_zero {n : Count} {m : Nat} (h : m < n.toNat) : n ≠ 0#8 := by
  rintro rfl
  exact absurd h (Nat.not_lt_zero m)

/-- A mean comes to the read that waits for `rest` (R120). -/
theorem exec_meanCommand_samples {use : MeanUse} {n : Count} {cs : Script} {rest : List Level} {s : State} (hs : adcReady s)
    (hq : quiet s) (ho : meanOperands use s) (hlen : cs.length < n.toNat) (hl : s.env.levels = scriptLevels cs ++ rest)
    (hfit : ∀ x ∈ cs, pollsFit s.cfg x.1) :
    exec (meanCommand use n) s = .next (runCommand (atWait (.average n use) (answers rest (afterSamples n cs s)))) := by
  rw [exec_meanCommand hs (count_ne_zero hlen) ho, runCommand_samples hq cs rest hl hlen hfit]

/-- Settles O24: each command comes to its read, and the read polls. -/
theorem readWaitsWithoutBound : Obligations.ReadWaitsWithoutBound := by
  unfold Obligations.ReadWaitsWithoutBound
  intro s k hq hbound
  refine ⟨fun hs hl => ⟨?_, fun g sel hg => ?_⟩, fun hidle hc hl d c g sel hg => ?_, fun hs use n cs ho hlen hl => ?_⟩
  · rw [exec_read hs, runCommand_waits hq hbound hl]
  · rw [exec_setGain hs hq hg, runCommand_waits (s := afterGainWrite sel s) hq hbound hl]
  · rw [exec_construct d c hidle hc hq hg, runCommand_waits (s := afterGainWrite sel (afterConfigure d c s)) hq hbound hl]
  · have hfit : ∀ x ∈ cs, pollsFit s.cfg x.1 := fun x _ b hb => by rw [hbound] at hb; cases hb
    rw [exec_meanCommand_samples hs hq ho hlen hl hfit,
      runCommand_waits (s := answers (List.replicate k .high) (afterSamples n cs s)) hq hbound rfl]
    rfl

/-- Settles O25: each command comes to its read, and the read ends in the fault. -/
theorem boundedWaitEndsInFault : Obligations.BoundedWaitEndsInFault := by
  unfold Obligations.BoundedWaitEndsInFault
  intro s b rest hq hb hbound
  refine ⟨fun hs hl => ⟨?_, fun g sel hg => ?_⟩, fun hidle hc hl d c g sel hg => ?_, fun hs use n cs ho hlen hcs hl => ?_⟩
  · rw [exec_read hs, runCommand_neverReady hq hb hbound hl]
  · rw [exec_setGain hs hq hg, runCommand_neverReady (s := afterGainWrite sel s) hq hb hbound hl]
  · rw [exec_construct d c hidle hc hq hg,
      runCommand_neverReady (s := afterGainWrite sel (afterConfigure d c s)) hq hb hbound hl]
  · have hfit : ∀ x ∈ cs, pollsFit s.cfg x.1 := fun x hx b' hb' => by
      rw [hbound] at hb'
      cases hb'
      exact hcs x hx
    rw [exec_meanCommand_samples hs hq ho hlen hl hfit,
      runCommand_neverReady (s := answers (List.replicate b Level.high ++ rest) (afterSamples n cs s)) hq hb hbound rfl]
    rfl

end Sys2Proof.Reads
end

section
/-! PROOF. Edges that arrive during a read (40_adc_wire.md R90, R96, R99, 60_exceptions.md R222, R226): those due are handled
before the next sample of a read that waits; and no edge keeps a construct from binding and configuring its pins. -/

open Sys2Proof.Machine Sys2Proof.Laws Sys2Proof.Issue Sys2Proof.Presenting Sys2Proof.SideBySide Sys2Proof.Reads

namespace Sys2Proof.EdgesInReads

/-! ## What a dummy read leaves alone -/

/-- From `s` to `v` nothing but a dummy read has run: the pins, the selector, the scale, the offset and the directions are as they
were (R93). -/
structure DummyKept (s v : State) : Prop where
  constructed : v.adc.constructed = s.adc.constructed
  dataPin : v.adc.dataPin = s.adc.dataPin
  clockPin : v.adc.clockPin = s.adc.clockPin
  gainSel : v.adc.gainSel = s.adc.gainSel
  scale : v.adc.scale = s.adc.scale
  offset : v.adc.offset = s.adc.offset
  dir : v.gpio.dir = s.gpio.dir
  task : v.task = .reading .dummy ∨ v.task = .idle

section Kept
variable {s v : State} (h : DummyKept s v)
include h

theorem DummyKept.env (e : Env) : DummyKept s { v with env := e } := { h with }

theorem DummyKept.takeEdge (t : Time) : DummyKept s (takeEdge t v) := by
  obtain ⟨-, heq⟩ | ⟨-, heq⟩ := takeEdge_cases t v
  · rwa [heq]
  · rw [heq]
    exact { h with }

theorem DummyKept.pollReady (l : Level) : DummyKept s (pollReady l v) := by
  unfold Machine.pollReady
  cases l with
  | low => exact { h with }
  | high =>
    simp only
    split
    · exact { h with }
    · split
      · exact { h with task := .inr rfl }
      · exact { h with }

theorem DummyKept.readStep (l : Level) : DummyKept s (readStep .dummy l v) := by
  unfold Machine.readStep
  split
  · exact h
  · exact h.pollReady l
  · exact { h with }
  · exact { h with }
  · exact { h with }
  · exact { h with }
  · exact { h with }
  · exact { h with task := .inr rfl }

theorem DummyKept.microStep (l : Level) (t : Time) : DummyKept s (microStep l t v) := by
  unfold Machine.microStep
  obtain hk | hk := h.task <;> rw [hk]
  · exact h.readStep l
  · exact h

theorem DummyKept.runCommand : DummyKept s (runCommand v) :=
  runCommand_keeps (P := DummyKept s) (fun t _ h => h.takeEdge t) (fun l t _ h => h.microStep l t) (fun e _ h => h.env e) h

end Kept

theorem dummyKept_atWait (s : State) : DummyKept s (atWait .dummy s) := ⟨rfl, rfl, rfl, rfl, rfl, rfl, rfl, .inl rfl⟩

/-- The same state with no edge to come. -/
def edgeless (s : State) : State := { s with env := { s.env with edges := [], edgesGoOn := false } }

/-- Settles O19: with no edge to come the construct comes to its dummy read, which leaves the pins alone; and edges do not disturb
it. -/
theorem constructBindsAndConfiguresThePins : Obligations.ConstructBindsAndConfiguresThePins := by
  unfold Obligations.ConstructBindsAndConfiguresThePins
  intro s d c g sel hidle hc hg
  have ht := exec_construct_begins d c hidle hc hg
  have hu := exec_construct (s := edgeless s) d c hidle hc ⟨rfl, rfl⟩ hg
  obtain ⟨hadc, -, -, -, hdir, -, -⟩ := edgesDoNotDisturbTheAdcUnit _ _ _ _ rfl ht hu
  obtain ⟨hconstructed, hdata, hclock, hgain, hscale, hoffset, hdirs, -⟩ :=
    (dummyKept_atWait (afterGainWrite sel (afterConfigure d c (edgeless s)))).runCommand
  refine ⟨_, ht, ?_⟩
  rw [hadc, hdir, hdirs]
  refine ⟨hconstructed, hdata, hclock, hgain, hscale, hoffset, pinGet_pinSet_same _ _ _, fun hcd => ?_⟩
  have hother : c.toNat ≠ d.toNat := fun h => hcd (BitVec.eq_of_toNat_eq h)
  exact (pinGet_pinSet_other _ _ hother).trans (pinGet_pinSet_same _ _ _)

/-! ## A read that waits while edges are due -/

theorem waiting_iff {s : State} : waiting s = true ↔ (∃ use, s.task = .reading use) ∧ s.adc.seq = .wait := by
  unfold waiting
  cases hk : s.task with
  | reading use => simp
  | _ => simp

/-- The edges due are handled in order; the collaborator's clock value, the last one read, is left open. -/
theorem deliver_due {later : List EdgeAt} : ∀ (due : List EdgeAt) (s : State),
    edgeEnabled s = true → (∀ e ∈ due, e.after = 0) → ∃ g, deliver (due ++ later) s = deliver later
      { s with hist := s.hist ++ due.map (fun e => .edge e.now), rot := afterTimes (due.map EdgeAt.now) s.rot, gpio := g }
  | [], s, _, _ => ⟨s.gpio, by simp⟩
  | ⟨after, now⟩ :: due, s, hs, hdue => by
    obtain rfl : after = 0 := hdue _ List.mem_cons_self
    obtain ⟨g, hg⟩ := deliver_due due (takeEdge now s) ((edgeEnabled_takeEdge now s).trans hs)
      fun e he => hdue e (List.mem_cons_of_mem _ he)
    refine ⟨g, hg.trans ?_⟩
    rw [takeEdge_of_enabled now hs]
    simp

/-- Edges not yet due stay listed. -/
theorem deliver_later {later : List EdgeAt} (s : State) (h : ∀ e ∈ later.head?, 0 < e.after) :
    deliver later s = { s with env := { s.env with edges := later } } := by
  match later with
  | [] => rfl
  | ⟨0, now⟩ :: rest => exact absurd (h _ rfl) (Nat.lt_irrefl 0)
  | ⟨after + 1, now⟩ :: rest => rfl

/-- The edges to come after one more micro-step. -/
def nearer (es : List EdgeAt) : List EdgeAt := (es.head?.map fun e => { e with after := e.after - 1 }).toList ++ es.tail

theorem countDown_eq (s : State) : countDown s = { s with env := { s.env with edges := nearer s.env.edges } } := by
  unfold countDown
  split
  next hnone =>
    have hsame : nearer s.env.edges = s.env.edges := by rw [hnone]; rfl
    rw [hsame]
  next e rest hsome => rw [hsome]; rfl

/-- A HIGH sample below the bound: the read goes on waiting (R96). -/
theorem pollReady_high {s : State} (hbound : ∀ b, s.cfg.readyPollBound = some b → s.adc.polls + 1 < b) :
    pollReady .high s =
      { s with adc := { s.adc with polls := s.adc.polls + 1 }, hist := s.hist ++ [.rd s.adc.dataPin .high] } := by
  simp only [pollReady, pinRead_adc, pinRead_cfg]
  split
  next => rfl
  next b hb =>
    exact if_neg (Nat.not_le.2 (hbound b hb))

theorem microStep_of_wait {s : State} {use : ReadUse} (l : Level) (t : Time) (hk : s.task = .reading use)
    (hseq : s.adc.seq = .wait) : microStep l t s = pollReady l s := by
  have hread : microStep l t s = readStep use l s := by rw [microStep, hk]
  rw [hread, readStep, hseq]

theorem supply_of_levels {s : State} (hneed : need s = .level) (hl : s.env.levels ≠ []) : supply s = s := by
  unfold supply
  rw [hneed]
  exact if_neg hl

/-- With one answer ready a waiting read makes one turn, and waits again or goes on as `need` says. -/
theorem resume_of_one_level {s : State} {l : Level} (hneed : need s = .level) (hl : s.env.levels = [l])
    (hstill : need (levelTurn s) = .level) : resume s = levelTurn s := by
  rw [resume, supply_of_levels hneed (by rw [hl]; exact List.cons_ne_nil _ _), runCommand, hl]
  exact (runSamples_of_level 0 hneed).trans (settle_of_level hstill _)

/-- Settles O26: the turn of a HIGH sample, its deliveries, its poll and its count, one after the other. -/
theorem handlerRunsWhileAReadWaits : Obligations.HandlerRunsWhileAReadWaits := by
  unfold Obligations.HandlerRunsWhileAReadWaits
  intro s due later hwait hs hbound hedges hmore hdue hlater hl
  obtain ⟨⟨use, hk⟩, hseq⟩ := waiting_iff.1 hwait
  have hneed : need s = .level := by rw [need, hk, hseq]; rfl
  have hnone : moreEdges (answers [] s) = answers [] s := hmore.elim (fun h => moreEdges_of_listed h) fun h => moreEdges_of_not h
  obtain ⟨g, hdeliver⟩ := deliver_due (later := later) due (answers [] s) hs hdue
  have hturn : levelTurn s = { s with
      rot := afterTimes (due.map EdgeAt.now) s.rot, gpio := g, adc := { s.adc with polls := s.adc.polls + 1 }
      hist := s.hist ++ due.map (fun e => .edge e.now) ++ [.rd s.adc.dataPin .high]
      env := { s.env with levels := [], edges := nearer later } } := by
    have hlevel : levelTurn s = countDown (microStep .high 0#32 (deliver s.env.edges (answers [] s))) := by
      unfold levelTurn
      rw [hl]
      show turn .high 0#32 (answers [] s) = _
      rw [turn, hnone]
      rfl
    rw [hlevel, hedges, hdeliver, deliver_later _ hlater, microStep_of_wait .high 0#32 (use := use) (by exact hk) (by exact hseq),
      pollReady_high (by exact hbound), countDown_eq]
    rfl
  have hstill : need (levelTurn s) = .level := by rw [hturn, need, hk, hseq]; rfl
  refine ⟨levelTurn s, ?_, ?_⟩
  · rw [step_of_running (by rw [hk]; exact nofun), resume_of_one_level hneed hl hstill]
  · rw [hturn]
    exact ⟨waiting_iff.2 ⟨⟨use, hk⟩, hseq⟩, rfl, rfl, rfl, rfl⟩

end Sys2Proof.EdgesInReads
end

section
/-! PROOF. Averaging and calibration on a device that answers (41_adc_calibration.md R120 to R133). All reads of a mean but the
last are those of `runCommand_samples`; the PACK of the last one is the mean's end (`packRead_last`), so every command with a
mean comes to `finishMean` of the whole script (`exec_meanCommand_completes`), and each command is one case of it. -/

open Sys2Proof.Machine Sys2Proof.AdcTests Sys2Proof.CodeMeans Sys2Proof.Reads Sys2Proof.Laws

namespace Sys2Proof.Means

/-! ## The end of a mean -/

/-- The accumulator holds the exact sum, so its quotient is the mean (R27, R134). -/
theorem meanOf_codeSum {n : Count} {cs : Script} (hlen : cs.length = n.toNat) :
    meanOf (BitVec.ofNat Config.accW (codeSum cs)) n = codeMean cs := by
  have hn := count_lt n
  obtain ⟨hsum, -⟩ := meanOfCodesIsACode cs (by omega)
  have hquot : codeSum cs / n.toNat < 2 ^ 32 := Nat.lt_of_le_of_lt (Nat.div_le_self _ _) hsum
  refine BitVec.eq_of_toNat_eq ?_
  rw [meanOf, codeMean, hlen, BitVec.toNat_udiv, BitVec.toNat_setWidth_of_le (by decide), BitVec.toNat_ofNat,
    BitVec.toNat_ofNat, Nat.mod_eq_of_lt hsum, Nat.mod_eq_of_lt hquot]

/-- After as many reads as were asked for none is left. -/
theorem left_eq_zero {n : Count} {m : Nat} (h : m = n.toNat) : n - BitVec.ofNat Config.nW m = 0#8 := by
  rw [h, BitVec.ofNat_toNat, BitVec.setWidth_eq, BitVec.sub_self]

/-- The running task, the response and the kept reading are written anew by the end of a mean: what they were is forgotten. -/
theorem finishMean_forgets (use : MeanUse) (m : Raw) (k : Task) (r : Option Response) (v : Option Raw) (s : State) :
    finishMean use m { s with task := k, rsp := r, adc := { s.adc with lastRawReading := v } } = finishMean use m s := by
  cases use with
  | raw | tare => rfl
  | value | units => simp only [finishMean]; split <;> rfl

/-- PACK of the last sample of a mean: the whole script's sum is complete. -/
theorem packRead_last {use : MeanUse} {n : Count} {cs : Script} {x : Nat × Code} {ls rest : List Level} {s : State}
    (hlen : (cs ++ [x]).length = n.toNat) :
    packRead (.average n use) (atPack (.average n use) x.1 x.2 rest (answers ls (afterSamples n cs s))) =
      finishMean use (codeMean (cs ++ [x])) (afterMean (cs ++ [x]) rest s) := by
  have hleft : n - BitVec.ofNat Config.nW cs.length - 1#8 = 0#8 := by
    rw [left_concat]
    exact left_eq_zero (by simpa using hlen)
  have hend : packRead (.average n use) (atPack (.average n use) x.1 x.2 rest (answers ls (afterSamples n cs s))) =
      finishMean use (meanOf (BitVec.ofNat Config.accW (codeSum cs) + rawWord x.2) n)
        { atPack (.average n use) x.1 x.2 rest (answers ls (afterSamples n cs s)) with
          adc := { s.adc with
            lastRawReading := some (rawWord x.2), seq := .idle, shreg := x.2, polls := x.1
            acc := BitVec.ofNat Config.accW (codeSum cs) + rawWord x.2
            left := n - BitVec.ofNat Config.nW cs.length - 1#8 } } :=
    if_pos hleft
  rw [hend, hleft, rawWord, acc_concat, meanOf_codeSum hlen,
    ← finishMean_forgets use _ (.reading (.average n use)) none (some (rawWord x.2)) (afterMean (cs ++ [x]) rest s)]
  simp only [atPack, clockLow_afterSamples]
  simp [answers, afterSamples, afterMean, scriptEvents_concat, rawWord]

/-- A command with a mean, answered in full, comes to the mean's end (R120). -/
theorem exec_meanCommand_completes {use : MeanUse} {n : Count} {cs : Script} {rest : List Level} {s : State} (hs : adcReady s)
    (hq : quiet s) (hn : n ≠ 0#8) (hscript : scripted n cs rest s) (ho : meanOperands use s) :
    exec (meanCommand use n) s = .next (finishMean use (codeMean cs) (afterMean cs rest s)) := by
  obtain ⟨hlen, hl, hfit⟩ := hscript
  have hne : cs ≠ [] := by
    rintro rfl
    exact hn (BitVec.eq_of_toNat_eq hlen.symm)
  obtain ⟨cs, x, rfl⟩ : ∃ ds x, cs = ds ++ [x] := ⟨_, _, (List.dropLast_concat_getLast hne).symm⟩
  rw [scriptLevels_concat, List.append_assoc] at hl
  have hlen' : cs.length < n.toNat := by rw [← hlen, List.length_append]; exact Nat.lt_succ_self _
  have hx : pollsFit s.cfg x.1 := hfit x (List.mem_append_right _ (List.mem_singleton_self x))
  rw [exec_meanCommand_samples hs hq ho hlen' hl fun y hy => hfit y (List.mem_append_left _ hy),
    runCommand_frame (s := answers (frameLevels x.1 x.2 ++ rest) (afterSamples n cs s)) hq rfl hx, packRead_last hlen]
  exact congrArg _ (runSamples_of_done (need_finishMean use _ _) _)

/-! ## The commands with a mean -/

theorem finishMean_value {m : Raw} {o : Offset} {s : State} (ho : s.adc.offset = some o) :
    finishMean .value m s =
      answered (signedValue (difference m o)) { s with adc := { s.adc with lastRawReading := some m } } := by
  simp only [finishMean, ho]
  rfl

theorem finishMean_units {m : Raw} {o : Offset} {c : F64} {s : State} (ho : s.adc.offset = some o)
    (hc : s.adc.scale = some c) :
    finishMean .units m s =
      answered (unitsOf (difference m o) c) { s with adc := { s.adc with lastRawReading := some m } } := by
  simp only [finishMean, ho, hc]
  rfl

/-- Settles O28: the mean is answered as it is. -/
theorem readAverageCompletes : Obligations.ReadAverageCompletes := by
  unfold Obligations.ReadAverageCompletes
  intro s n cs rest hs hq hn hscript
  exact exec_meanCommand_completes (use := .raw) hs hq hn hscript trivial

/-- Settles O29: the offset is written, and the mean less the offset is answered. -/
theorem getValueCompletes : Obligations.GetValueCompletes := by
  unfold Obligations.GetValueCompletes
  intro s n cs rest o hs hq hn hscript ho
  have hwritten : meanOperands .value s := Option.isSome_of_eq_some ho
  have hend := finishMean_value (m := codeMean cs) (s := afterMean cs rest s) ho
  exact (exec_meanCommand_completes hs hq hn hscript hwritten).trans (congrArg _ hend)

/-- Settles O30: offset and scale are written, and the converted difference over the scale is answered. -/
theorem getUnitsCompletes : Obligations.GetUnitsCompletes := by
  unfold Obligations.GetUnitsCompletes
  intro s n cs rest o c hs hq hn hscript ho hc
  have hwritten : meanOperands .units s := ⟨Option.isSome_of_eq_some ho, Option.isSome_of_eq_some hc⟩
  have hend := finishMean_units (m := codeMean cs) (s := afterMean cs rest s) ho hc
  exact (exec_meanCommand_completes hs hq hn hscript hwritten).trans (congrArg _ hend)

/-- Settles O32: the mean is written to the offset too, and answered. -/
theorem tareCompletes : Obligations.TareCompletes := by
  unfold Obligations.TareCompletes
  intro s n cs rest hs hq hn hscript
  exact exec_meanCommand_completes (use := .tare) hs hq hn hscript trivial

/-! ## The commands without a read -/

/-- Settles O31: the three registers are written, so the test passes, and nothing but the answer follows. -/
theorem getLastUnitsCompletes : Obligations.GetLastUnitsCompletes := by
  unfold Obligations.GetLastUnitsCompletes
  intro s o c r hs ho hc hr
  show execAdcGetLastUnits s = _
  rw [execAdcGetLastUnits, adcCommand_of_adcReady hs, ho, hc, hr]
  rfl

theorem exec_setScale {s : State} (v : F64) (hs : adcReady s) :
    exec (.adcSetScale v) s = .next (answered 0#64 { s with adc := { s.adc with scale := some v } }) := by
  show execAdcSetScale v s = _
  rw [execAdcSetScale, adcCommand_of_adcReady hs]
  rfl

theorem exec_setOffset {s : State} (o : Offset) (hs : adcReady s) :
    exec (.adcSetOffset o) s = .next (answered 0#64 { s with adc := { s.adc with offset := some o } }) := by
  show execAdcSetOffset o s = _
  rw [execAdcSetOffset, adcCommand_of_adcReady hs]
  rfl

theorem exec_getScale {s : State} {c : F64} (hs : adcReady s) (hc : s.adc.scale = some c) :
    exec .adcGetScale s = .next (answered c s) := by
  show execAdcGetScale s = _
  rw [execAdcGetScale, adcCommand_of_adcReady hs, hc]
  rfl

theorem exec_getOffset {s : State} {o : Offset} (hs : adcReady s) (ho : s.adc.offset = some o) :
    exec .adcGetOffset s = .next (answered (o.signExtend 64) s) := by
  show execAdcGetOffset s = _
  rw [execAdcGetOffset, adcCommand_of_adcReady hs, ho]
  rfl

/-- Settles O33: each setter writes its operand and ends; each getter finds its register written. -/
theorem accessorsComplete : Obligations.AccessorsComplete := by
  unfold Obligations.AccessorsComplete
  exact fun s hs => ⟨fun v => exec_setScale v hs, fun o => exec_setOffset o hs, fun _ => exec_getScale hs,
    fun _ => exec_getOffset hs⟩

end Sys2Proof.Means
end

section
/-! PROOF. The numbers of a unit conversion (41_adc_calibration.md R134, R135). A rational that is itself a magnitude rounds to it
(`roundMag_magOf`), and an integer below 2^53 is one (`exists_magOf_of_lt`), so a difference converts exactly; the corners of the
division then follow from the class of the scale. -/

open Sys2Proof.Machine Sys2Proof.Laws Sys2Proof.Rounding

namespace Sys2Proof.Conversions

/-! ## The difference (R134) -/

/-- Settles O34: within the band the true difference is a signed 32-bit number. -/
theorem differenceIsExactOutsideTheWrapBand : Obligations.DifferenceIsExactOutsideTheWrapBand := by
  unfold Obligations.DifferenceIsExactOutsideTheWrapBand
  intro code offset hcode hoffset
  have hpositive : code.toInt = code.toNat := BitVec.toInt_eq_toNat_of_lt (by simp only [Config.rawW]; omega)
  have hhigh : offset.toInt < 2 ^ 31 := BitVec.toInt_lt
  rw [difference, BitVec.toInt_sub, hpositive]
  refine Int.bmod_eq_of_le ?_ ?_ <;> simp only [Config.rawW] <;> omega

/-! ## Exact conversions (R9) -/

theorem magOf_zero : magOf 0 = 0 := rfl

/-- A magnitude is its own rounding. -/
theorem roundMag_magOf {d b : Nat} (hd : 0 < d) (hb : b ≤ fInfBits) : roundMag (magOf b * d) d = b := by
  obtain ⟨c, ⟨hle, hlt⟩, hround⟩ := roundMag_spec (magOf b * d) hd
  have hcb : c = b := by
    have hle' : magOf c ≤ magOf b := Nat.le_of_mul_le_mul_right hle hd
    have hlt' : magOf b < magOf (c + 1) := Nat.lt_of_mul_lt_mul_right hlt
    refine Nat.le_antisymm (Nat.not_lt.1 fun h => ?_) (Nat.not_lt.1 fun h => ?_)
    · exact absurd (magOf_strictMono h) (Nat.not_lt.2 hle')
    · exact absurd (magOf_mono h) (Nat.not_le.2 hlt')
  subst hcb
  have hnearer := nearer_cases (magOf c * d) d c
  omega

theorem roundMag_zero {n d : Nat} (hn : n = 0) (hd : 0 < d) : roundMag n d = 0 := by
  subst hn
  have hround := roundMag_magOf hd (Nat.zero_le fInfBits)
  rwa [magOf_zero, Nat.zero_mul] at hround

/-- A natural number below 2^53, in units of 2^-1074, is the magnitude of a finite pattern. -/
theorem exists_magOf_of_lt {m : Nat} (hm : m < 2 ^ 53) : ∃ b, b < fInfBits ∧ magOf b = m * 2 ^ 1074 := by
  obtain hzero | hpos := Nat.eq_zero_or_pos m
  · exact ⟨0, by decide, magOf_zero.trans (Nat.mul_eq_zero.2 (.inl hzero)).symm⟩
  have hbits : m.log2 < 53 := (Nat.log2_lt (Nat.ne_of_gt hpos)).2 hm
  have hlow : 2 ^ m.log2 ≤ m := Nat.log2_self_le (Nat.ne_of_gt hpos)
  have hhigh : m < 2 ^ (m.log2 + 1) := Nat.lt_log2_self
  generalize m.log2 = k at hbits hlow hhigh
  have hq1 : 2 ^ 52 ≤ m * 2 ^ (52 - k) := by
    calc 2 ^ 52 = 2 ^ k * 2 ^ (52 - k) := by rw [← Nat.pow_add]; congr 1; omega
      _ ≤ m * 2 ^ (52 - k) := Nat.mul_le_mul_right _ hlow
  have hq2 : m * 2 ^ (52 - k) < 2 ^ 53 := by
    calc m * 2 ^ (52 - k) < 2 ^ (k + 1) * 2 ^ (52 - k) := Nat.mul_lt_mul_of_pos_right hhigh (Nat.two_pow_pos _)
      _ = 2 ^ 53 := by rw [← Nat.pow_add]; congr 1; omega
  refine ⟨(1022 + k) * 2 ^ 52 + m * 2 ^ (52 - k), ?_, ?_⟩
  · rw [fInfBits]
    omega
  · rw [magOf_scaled (Nat.le_of_lt hq2) (.inr hq1), Nat.mul_assoc, ← Nat.pow_add]
    congr 2
    omega

/-- An integer of magnitude below 2^53 is packed with its exact magnitude. -/
theorem f64OfInt_exact {v : Int} (hv : v.natAbs < 2 ^ 53) :
    ∃ b, b < fInfBits ∧ magOf b = v.natAbs * 2 ^ 1074 ∧ f64OfInt v = fPack (decide (v < 0)) b := by
  obtain ⟨b, hb, hmag⟩ := exists_magOf_of_lt hv
  have hround := roundMag_magOf Nat.one_pos (Nat.le_of_lt hb)
  rw [Nat.mul_one, hmag] at hround
  exact ⟨b, hb, hmag, by rw [f64OfInt, hround]⟩

theorem fIsFinite_f64OfInt {v : Int} (hv : v.natAbs < 2 ^ 53) : fIsFinite (f64OfInt v) = true := by
  obtain ⟨b, hb, -, heq⟩ := f64OfInt_exact hv
  rwa [fIsFinite_iff, heq, lowBits_fPack _ (Nat.lt_trans hb (by decide))]

theorem fSign_f64OfInt (v : Int) : fSign (f64OfInt v) = decide (v < 0) := fSign_fPack _ (roundMag_lt _ _)

theorem fMag_f64OfInt {v : Int} (hv : v.natAbs < 2 ^ 53) : fMag (f64OfInt v) = v.natAbs * 2 ^ 1074 := by
  obtain ⟨b, hb, hmag, heq⟩ := f64OfInt_exact hv
  rw [fMag_eq, heq, lowBits_fPack _ (Nat.lt_trans hb (by decide)), hmag]

/-- Settles O37: the magnitude is exact and the sign is the integer's. -/
theorem integersConvertExactly : Obligations.IntegersConvertExactly := by
  unfold Obligations.IntegersConvertExactly
  intro v hv
  refine ⟨fIsFinite_f64OfInt hv, ?_⟩
  have hsigned : signed (decide (v < 0)) v.natAbs = v := signed_natAbs fun _ => rfl
  rw [fValue_eq, ← fMag_eq, fMag_f64OfInt hv, fSign_f64OfInt, ← Bool.bne_false (b := decide (v < 0)), ← signed_mul, hsigned,
    signed_two_pow 1074]

/-! ## The classes of a pattern -/

theorem fIsNaN_iff (a : F64) : fIsNaN a = true ↔ fExp a = 2047 ∧ fFrac a ≠ 0 := by
  rw [fIsNaN, Bool.and_eq_true, beq_iff_eq, bne_iff_ne]

theorem fIsNaN_of_inf {a : F64} (ha : fIsInf a = true) : fIsNaN a = false := by
  rw [fIsInf, Bool.and_eq_true, beq_iff_eq, beq_iff_eq] at ha
  exact Bool.eq_false_iff.2 fun h => ((fIsNaN_iff a).1 h).2 ha.2

theorem fIsFinite_of_zero {a : F64} (ha : fMag a = 0) : fIsFinite a = true := by
  rw [fMag_eq] at ha
  refine (fIsFinite_iff a).2 (Nat.not_le.1 fun h => ?_)
  have hpos : magOf 0 < magOf (lowBits a) := magOf_strictMono (Nat.lt_of_lt_of_le (by decide) h)
  exact Nat.not_lt_zero _ (ha ▸ hpos)

theorem fExp_or (x y : F64) : fExp (x ||| y) = fExp x ||| fExp y := by
  rw [fExp, BitVec.toNat_or, Nat.or_div_two_pow, show 2048 = 2 ^ 11 from rfl, Nat.or_mod_two_pow]
  rfl

theorem fFrac_or (x y : F64) : fFrac (x ||| y) = fFrac x ||| fFrac y := by
  rw [fFrac, BitVec.toNat_or, Nat.or_mod_two_pow]
  rfl

theorem fExp_or_of_ones {x y : F64} (h : fExp x = 2047 ∨ fExp y = 2047) : fExp (x ||| y) = 2047 := by
  have hlt : fExp (x ||| y) < 2048 := Nat.mod_lt _ (by decide)
  have hx : fExp x ≤ fExp (x ||| y) := fExp_or x y ▸ Nat.left_le_or
  have hy : fExp y ≤ fExp (x ||| y) := fExp_or x y ▸ Nat.right_le_or
  omega

/-- Whatever its free sign and payload, the NaN an operation produces is a NaN (U6). -/
theorem fIsNaN_fNaN (op : FpOp) (a b : F64) : fIsNaN (fNaN op a b) = true := by
  have hexp : fExp (Config.freeNaN op a b ||| 0x7FF0000000000000#64) = 2047 := fExp_or_of_ones (.inr rfl)
  refine (fIsNaN_iff _).2 ?_
  simp only [fNaN]
  split
  next =>
    refine ⟨fExp_or_of_ones (.inl hexp), fun h => ?_⟩
    rw [fFrac_or] at h
    exact absurd (Nat.or_eq_zero_iff.1 h).2 (by decide)
  next hfrac =>
    refine ⟨hexp, fun h => hfrac ?_⟩
    rw [fFrac_or] at h
    exact (Nat.or_eq_zero_iff.1 h).1

/-! ## The corners of a division (R135) -/

theorem fdiv_nan (a : F64) {c : F64} (hc : fIsNaN c = true) : fIsNaN (fdiv a c) = true := by
  rw [fdiv, hc, Bool.or_true, if_pos rfl]
  exact fIsNaN_fNaN _ _ _

section Corners
variable {a c : F64} (ha : fIsFinite a = true)
include ha

theorem fdiv_inf (hc : fIsInf c = true) : fdiv a c = fPack (fSign a != fSign c) 0 := by
  simp [fdiv, fIsNaN_of_finite ha, fIsInf_of_finite ha, fIsNaN_of_inf hc, hc]

theorem fdiv_zero (hc : fMag c = 0) :
    fdiv a c = if fMag a = 0 then fNaN .div a c else fPack (fSign a != fSign c) fInfBits := by
  have hfin := fIsFinite_of_zero hc
  simp [fdiv, fIsNaN_of_finite ha, fIsInf_of_finite ha, fIsNaN_of_finite hfin, fIsInf_of_finite hfin, hc]

end Corners

theorem natAbs_toInt_lt (v : Raw) : v.toInt.natAbs < 2 ^ 53 := by
  have hlo : -2 ^ 31 ≤ v.toInt := BitVec.le_toInt v
  have hhi : v.toInt < 2 ^ 31 := BitVec.toInt_lt
  omega

theorem fSign_f64OfInt_toInt (v : Raw) : fSign (f64OfInt v.toInt) = v.msb := by rw [fSign_f64OfInt, BitVec.msb_eq_toInt]

theorem fMag_f64OfInt_toInt_eq_zero_iff (v : Raw) : fMag (f64OfInt v.toInt) = 0 ↔ v = 0#32 := by
  rw [fMag_f64OfInt (natAbs_toInt_lt v), Nat.mul_eq_zero, or_iff_left (Nat.ne_of_gt (Nat.two_pow_pos 1074)), Int.natAbs_eq_zero]
  exact ⟨fun h => BitVec.eq_of_toInt_eq h, fun h => h ▸ rfl⟩

/-- Settles O36: the difference converts to a finite number of its own sign, zero only for zero; then by the class of the
scale. -/
theorem scaleCornersFollowIeee : Obligations.ScaleCornersFollowIeee := by
  unfold Obligations.ScaleCornersFollowIeee
  intro v c
  have hfin : ∀ v : Raw, fIsFinite (f64OfInt v.toInt) = true := fun v => fIsFinite_f64OfInt (natAbs_toInt_lt v)
  refine ⟨fdiv_nan _, fun hc hv => ?_, fun hc hv => ?_, fun hc => ?_, fun hc hc0 => ?_⟩
  · rw [unitsOf, fdiv_zero (hfin v) hc, if_pos ((fMag_f64OfInt_toInt_eq_zero_iff v).2 hv)]
    exact fIsNaN_fNaN _ _ _
  · rw [unitsOf, fdiv_zero (hfin v) hc, if_neg (mt (fMag_f64OfInt_toInt_eq_zero_iff v).1 hv), fSign_f64OfInt_toInt]
  · rw [unitsOf, fdiv_inf (hfin v) hc, fSign_f64OfInt_toInt]
  · have hzero : fMag (f64OfInt (0#32 : Raw).toInt) = 0 := (fMag_f64OfInt_toInt_eq_zero_iff 0#32).2 rfl
    rw [unitsOf, fdiv_finite (hfin 0#32) hc hc0, fSign_f64OfInt_toInt,
      roundMag_zero (Nat.mul_eq_zero.2 (.inl hzero)) (Nat.pos_of_ne_zero hc0)]
    exact congrArg (fPack · 0) (Bool.false_bne (fSign c))

end Sys2Proof.Conversions
end

section
/-! PROOF. The edge handler and its arithmetic (42_pulse_capture.md R160 to R164). The debounce test passes every interval but zero
(`accepts_iff`). Rounding keeps the order (`roundMag_le_of_le`, `le_roundMag`), so a speed stays between the least magnitude and
60000.0; and after two seconds the old speed is multiplied by zero and added to 30.0. -/

open Sys2Proof.Machine Sys2Proof.Laws Sys2Proof.Rounding Sys2Proof.Conversions

namespace Sys2Proof.EdgeSpeed

/-! ## The handler -/

/-- The debounce test rejects only a second edge in the millisecond of the last accepted one (R160, R162). -/
theorem accepts_iff (dt : Time) : accepts dt = true ↔ dt ≠ 0#32 := by
  have hzero : dt = 0#32 ↔ dt.toNat = 0 := BitVec.toNat_inj.symm
  rw [accepts, decide_eq_true_iff, Config.debounceMs, Ne, hzero]
  omega

theorem accepts_elapsed_iff (now last : Time) : accepts (elapsed now last) = true ↔ now ≠ last := by
  rw [accepts_iff, elapsed, Ne, Ne, BitVec.sub_eq_iff_eq_add, BitVec.zero_add]

theorem edgeHandler_of_same {now : Time} {r : Rot} (h : now = r.lastEdgeTime) : edgeHandler now r = r :=
  if_neg fun hacc => (accepts_elapsed_iff now r.lastEdgeTime).1 hacc h

theorem edgeHandler_of_other {now : Time} {r : Rot} (h : now ≠ r.lastEdgeTime) : edgeHandler now r = { r with
    pulseCount := r.pulseCount + 1#32, previousEdgeTime := r.lastEdgeTime, lastEdgeTime := now
    filteredSpeed := foldSpeed (elapsed now r.lastEdgeTime) r.filteredSpeed } :=
  if_pos ((accepts_elapsed_iff now r.lastEdgeTime).2 h)

/-- Settles O45: the edge is lost, or leaves its event and what the debounce test lets the handler write. -/
theorem edgeHandlerWritesAllOrNothing : Obligations.EdgeHandlerWritesAllOrNothing := by
  unfold Obligations.EdgeHandlerWritesAllOrNothing
  intro s now
  have hexec : exec (.rotEdge now) s = .next (takeEdge now s) := rfl
  rw [hexec]
  refine ⟨fun hs => ?_, fun hs hsame => ?_, fun hs hother => ?_⟩
  · rw [takeEdge_of_not now hs]
  · rw [takeEdge_of_enabled now hs, edgeHandler_of_same hsame]
  · rw [takeEdge_of_enabled now hs, edgeHandler_of_other hother]
    rfl

/-! ## Rounding keeps the order -/

theorem roundMag_le_of_le {n d b : Nat} (hd : 0 < d) (h : n ≤ magOf b * d) : roundMag n d ≤ b := by
  obtain ⟨c, ⟨hle, hlt⟩, hround⟩ := roundMag_spec n hd
  have hcb : c ≤ b := Nat.not_lt.1 fun hbc =>
    absurd (Nat.mul_lt_mul_of_pos_right (magOf_strictMono hbc) hd) (Nat.not_lt.2 (Nat.le_trans hle h))
  have := nearer_cases n d c
  obtain rfl | hcb := Nat.eq_or_lt_of_le hcb <;> omega

theorem le_roundMag {n d b : Nat} (hd : 0 < d) (hb : b ≤ fInfBits) (h : magOf b * d ≤ n) : b ≤ roundMag n d := by
  obtain ⟨c, ⟨hle, hlt⟩, hround⟩ := roundMag_spec n hd
  have hbc : b ≤ c := Nat.not_lt.1 fun hcb =>
    absurd (Nat.mul_le_mul_right d (magOf_mono hcb)) (Nat.not_le.2 (Nat.lt_of_le_of_lt h hlt))
  have := nearer_cases n d c
  omega

/-! ## The instantaneous speed (R163) -/

theorem speedNum_parts :
    fIsFinite Config.speedNum = true ∧ fSign Config.speedNum = false ∧ 2 ^ 32 ≤ fMag Config.speedNum := by decide +kernel

theorem natAbs_ms_lt (dt : Time) : (dt.toNat : Int).natAbs < 2 ^ 53 := by
  have := time_lt dt
  omega

theorem fIsFinite_f64OfMs (dt : Time) : fIsFinite (f64OfMs dt) = true := fIsFinite_f64OfInt (natAbs_ms_lt dt)

theorem fSign_f64OfMs (dt : Time) : fSign (f64OfMs dt) = false := fSign_f64OfInt _

theorem fMag_f64OfMs (dt : Time) : fMag (f64OfMs dt) = dt.toNat * 2 ^ 1074 := fMag_f64OfInt (natAbs_ms_lt dt)

/-- An accepted interval is from 1 to 2^32 - 1 milliseconds long. -/
theorem toNat_of_accepts {dt : Time} (h : accepts dt = true) : 0 < dt.toNat :=
  Nat.pos_of_ne_zero fun h0 => (accepts_iff dt).1 h (BitVec.eq_of_toNat_eq h0)

/-- The pattern of the speed lies between the least magnitude's and 60000.0's. -/
theorem instantSpeed_bits {dt : Time} (h : accepts dt = true) :
    ∃ b, 1 ≤ b ∧ b ≤ lowBits Config.speedNum ∧ instantSpeed dt = fPack false b := by
  have hunit : ∀ k : Nat, 0 < 2 ^ k := Nat.two_pow_pos
  have hms := toNat_of_accepts h
  have hbound := time_lt dt
  have hmag := fMag_f64OfMs dt
  obtain ⟨hfin, hsign, hlarge⟩ := speedNum_parts
  have hpos : 0 < fMag (f64OfMs dt) := hmag ▸ Nat.mul_pos hms (hunit 1074)
  refine ⟨_, le_roundMag hpos (by decide) ?_, roundMag_le_of_le hpos ?_,
    (fdiv_finite hfin (fIsFinite_f64OfMs dt) (Nat.ne_of_gt hpos)).trans (by rw [hsign, fSign_f64OfMs]; rfl)⟩
  · rw [show magOf 1 = 1 from rfl, Nat.one_mul, hmag]
    exact Nat.mul_le_mul_right _ (by omega)
  · rw [← fMag_eq, hmag]
    exact Nat.mul_le_mul_left _ (Nat.le_mul_of_pos_left _ hms)

/-- Settles O48: magnitudes grow with their patterns. -/
theorem instantSpeedIsBounded : Obligations.InstantSpeedIsBounded := by
  unfold Obligations.InstantSpeedIsBounded
  intro dt h
  obtain ⟨b, hlow, hhigh, heq⟩ := instantSpeed_bits h
  obtain ⟨hfin, -, -⟩ := speedNum_parts
  have hlt : b < 2 ^ 63 := Nat.lt_of_le_of_lt hhigh (lowBits_lt _)
  have hbits : lowBits (instantSpeed dt) = b := heq ▸ lowBits_fPack false hlt
  have hmag : fMag (instantSpeed dt) = magOf b := hbits ▸ fMag_eq _
  rw [hmag, fIsFinite_iff, hbits]
  refine ⟨Nat.lt_of_le_of_lt hhigh ((fIsFinite_iff _).1 hfin), heq ▸ fSign_fPack false hlt, magOf_strictMono hlow, ?_⟩
  exact Nat.le_trans (magOf_mono hhigh) (Nat.le_of_eq (fMag_eq _).symm)

/-! ## Two seconds between edges (R164) -/

theorem fPack_fSign_lowBits (a : F64) : fPack (fSign a) (lowBits a) = a := by
  refine BitVec.eq_of_toNat_eq ?_
  have hlt := a.isLt
  rw [toNat_fPack _ (lowBits_lt a), fSign_eq, lowBits]
  simp only [decide_eq_true_eq]
  split <;> omega

/-- A zero times a finite number is a zero (R9). -/
theorem fmul_zero {z b : F64} (hz : fMag z = 0) (hb : fIsFinite b = true) : fmul z b = fPack (fSign z != fSign b) 0 := by
  rw [fmul_finite (fIsFinite_of_zero hz) hb, hz, roundMag_zero (Nat.zero_mul _) (Nat.two_pow_pos 1074)]

theorem natAbs_fValue (a : F64) : (fValue a).natAbs = fMag a := by rw [fValue_eq, natAbs_signed, fMag_eq]

/-- A zero added to a finite number that is none leaves it (R9). -/
theorem fadd_zero {a z : F64} (ha : fIsFinite a = true) (ha0 : fMag a ≠ 0) (hz : fMag z = 0) : fadd a z = a := by
  have hvalue : fValue a + fValue z = fValue a := by
    rw [fValue_eq z, ← fMag_eq, hz]
    cases fSign z <;> exact Int.add_zero _
  have hne : fValue a ≠ 0 := fun h => ha0 (by rw [← natAbs_fValue, h]; rfl)
  have hsign : decide (fValue a < 0) = fSign a := by
    rw [fValue_eq, ← fMag_eq]
    cases fSign a
    · exact decide_eq_false (Int.not_lt.2 (Int.natCast_nonneg _))
    · exact decide_eq_true (by rw [signed, if_pos rfl]; omega)
  have hround : roundMag (fValue a).natAbs 1 = lowBits a := by
    have := roundMag_magOf Nat.one_pos (Nat.le_of_lt ((fIsFinite_iff a).1 ha))
    rwa [Nat.mul_one, ← fMag_eq, ← natAbs_fValue] at this
  rw [fadd, fSum_finite _ _ ha (fIsFinite_of_zero hz), hvalue, sumSign, if_neg hne, hsign, hround, fPack_fSign_lowBits]

/-- After two seconds the quotient is 1.0, so the new sample counts once and the old speed not at all. -/
theorem foldSpeed_two_seconds (p : F64) : foldSpeed 2000#32 p = fadd 0x403E000000000000#64 (fmul 0#64 p) := by
  have hquot : fdiv (intervalSeconds 2000#32) Config.filterT = Config.one := by decide +kernel
  have hnew : fmul Config.one (instantSpeed 2000#32) = 0x403E000000000000#64 := by decide +kernel
  have hold : fsub Config.one Config.one = 0#64 := by decide +kernel
  rw [foldSpeed, lowpass, hquot, hnew, hold]

/-- Settles O46: a finite old speed times zero is a zero, and 30.0 is left. -/
theorem twoSecondGapForgetsTheOldSpeed : Obligations.TwoSecondGapForgetsTheOldSpeed := by
  unfold Obligations.TwoSecondGapForgetsTheOldSpeed
  intro p hp
  have hzero : fMag (fmul 0#64 p) = 0 := by
    rw [fmul_zero rfl hp, fMag_eq, lowBits_fPack _ (by decide)]
    rfl
  have hthirty : fIsFinite 0x403E000000000000#64 = true ∧ fMag 0x403E000000000000#64 ≠ 0 := by decide +kernel
  obtain ⟨hfin, hne⟩ := hthirty
  rw [foldSpeed_two_seconds, fadd_zero hfin hne hzero]

end Sys2Proof.EdgeSpeed
end

section
/-! PROOF. The two commands that set the pulse-timing unit going (42_pulse_capture.md R151 to R155). Until the attach a turn of
`rot.start` loses the edges that are due and makes its micro-step (`turn_start`); an edge's schedule is then read as the number of
micro-steps still to pass (`Scheduled`), so that after three turns exactly the edges to be handled are due (`passed_scheduled`). -/

open Sys2Proof.Machine Sys2Proof.Laws Sys2Proof.Issue Sys2Proof.EdgesInReads Sys2Proof.Reads

namespace Sys2Proof.Starting

/-! ## Binding the pin -/

/-- Settles O40: the flag is tested, and the pin is recorded or not. -/
theorem rotConstructCompletes : Obligations.RotConstructCompletes := by
  unfold Obligations.RotConstructCompletes
  intro s p hs
  have hexec : exec (.rotConstruct p) s = .next
      (if s.rot.started = true then finish noValue s else finish noValue { s with rot := { s.rot with pin := some p } }) := by
    show execRotConstruct p s = _
    rw [execRotConstruct, command_of_idle _ hs]
    rfl
  rw [hexec]
  exact ⟨fun hnot => by rw [hnot]; rfl, fun hstarted => by rw [hstarted]; rfl⟩

/-! ## A turn before the attach -/

/-- The edges to come after a turn before the attach: those due are lost, the next one has come nearer. -/
def passed (es : List EdgeAt) : List EdgeAt := nearer (es.dropWhile fun e => e.after == 0)

/-- `rot.start` is about to make the micro-step `pos`, with `es` the edges to come. -/
def startAt (pos : StartPos) (es : List EdgeAt) (s : State) : State :=
  { s with task := .start pos, rsp := none, env := { s.env with edges := es } }

/-- The edges due before the attach are lost without trace (R55). -/
theorem deliver_lost : ∀ (es : List EdgeAt) {s : State}, edgeEnabled s = false →
    deliver es s = { s with env := { s.env with edges := es.dropWhile fun e => e.after == 0 } }
  | [], _, _ => rfl
  | ⟨0, t⟩ :: es, s, h => by
    rw [deliver, takeEdge_of_not t h]
    exact deliver_lost es h
  | ⟨_ + 1, _⟩ :: _, _, _ => rfl

theorem deliver_startAt (pos : StartPos) {es : List EdgeAt} {s : State} (hoff : edgeEnabled s = false ∨ es = []) :
    deliver es (startAt pos es s) = startAt pos (es.dropWhile fun e => e.after == 0) s := by
  obtain hoff | rfl := hoff
  · exact deliver_lost es (s := startAt pos es s) hoff
  · rfl

/-- A turn of `rot.start` before the attach is its micro-step, whatever edges there are. -/
theorem turn_start {pos next : StartPos} {es : List EdgeAt} {s s' : State} {l : Level} {t : Time}
    (hgoOn : s.env.edgesGoOn = false) (hoff : edgeEnabled s = false ∨ es = [])
    (hstep : ∀ es', microStep l t (startAt pos es' s) = startAt next es' s') :
    turn l t (startAt pos es s) = startAt next (passed es) s' := by
  have hmore : moreEdges (startAt pos es s) = startAt pos es s := moreEdges_of_not hgoOn
  rw [turn, hmore]
  show countDown (microStep l t (deliver es (startAt pos es s))) = _
  rw [deliver_startAt pos hoff, hstep, countDown_eq]
  rfl

/-! ## The micro-steps of a start -/

/-- The clock read of `rot.start`: both timestamps take the answer (R155). -/
def clockRead (now : Time) (rest : List Time) (s : State) : State :=
  { nowMillis now s with
    rot := { s.rot with lastEdgeTime := now, previousEdgeTime := now }, env := { s.env with clocks := rest } }

/-- What the micro-step `pos` of `rot.start` leaves, on pin `p` and with the clock's answer `t` (R153, R155). -/
def startNext (p : Pin) (t : Time) (es : List EdgeAt) (s : State) : StartPos → State
  | .configure => startAt .now es (pinConfigInput p true s)
  | .now => startAt .attach es (clockRead t s.env.clocks s)
  | .attach => startAt .flip es (attachFalling p s)
  | .flip => finish (boolValue true) (startAt .flip es { s with rot := { s.rot with started := true } })

theorem settle_plain {s s' : State} (n : Nat) (hneed : need s = .nothing) (hturn : plainTurn s = s') :
    settle (n + 1) s = settle n s' := by
  rw [settle, hneed, ← hturn]

theorem clockTurn_of_clocks {s : State} {t : Time} {ts : List Time} (h : s.env.clocks = t :: ts) :
    clockTurn s = turn .low t { s with env := { s.env with clocks := ts } } := by rw [clockTurn, h]

section Start
variable {s : State} {p : Pin} {es : List EdgeAt} (hp : s.rot.pin = some p)
include hp

theorem microStep_start (l : Level) (t : Time) (pos : StartPos) (es : List EdgeAt) :
    microStep l t (startAt pos es s) = startNext p t es s pos := by
  have hpin : (startAt pos es s).rot.pin = some p := hp
  have hstep : microStep l t (startAt pos es s) = startStep pos t (startAt pos es s) := rfl
  rw [hstep, startStep, hpin]
  cases pos <;> rfl

variable (hgoOn : s.env.edgesGoOn = false) (hoff : edgeEnabled s = false ∨ es = [])
include hgoOn hoff

theorem settle_configure (n : Nat) :
    settle (n + 1) (startAt .configure es s) = settle n (startAt .now (passed es) (pinConfigInput p true s)) :=
  settle_plain n rfl (turn_start hgoOn hoff fun es' => microStep_start hp _ _ .configure es')

theorem settle_attach (n : Nat) :
    settle (n + 1) (startAt .attach es s) = settle n (startAt .flip (passed es) (attachFalling p s)) :=
  settle_plain n rfl (turn_start hgoOn hoff fun es' => microStep_start hp _ _ .attach es')

theorem settle_now (n : Nat) {now : Time} {rest : List Time} (hclocks : s.env.clocks = now :: rest) :
    settle (n + 1) (startAt .now es s) = settle n (startAt .attach (passed es) (clockRead now rest s)) := by
  have hsome : ¬(startAt .now es s).env.clocks = [] := List.ne_nil_of_mem (hclocks ▸ List.mem_cons_self)
  have hturn : clockTurn (startAt .now es s) = startAt .attach (passed es) (clockRead now rest s) :=
    (clockTurn_of_clocks (s := startAt .now es s) hclocks).trans
      (turn_start (s := { s with env := { s.env with clocks := rest } }) hgoOn hoff fun es' =>
        microStep_start (s := { s with env := { s.env with clocks := rest } }) hp _ _ .now es')
  have hneed : need (startAt .now es s) = .clock := rfl
  rw [settle, hneed]
  exact (if_neg hsome).trans (congrArg (settle n) hturn)

end Start

/-! ## The last turn -/

/-- The edges due are all handled, in order, by the attached handler (R221). -/
theorem deliver_held : ∀ (held : List EdgeAt) {s : State}, edgeEnabled s = true → (∀ e ∈ held, e.after = 0) →
    deliver held s = { s with
      hist := s.hist ++ (held.map EdgeAt.now).map .edge, rot := afterTimes (held.map EdgeAt.now) s.rot
      gpio := { s.gpio with now := (held.map EdgeAt.now).getLast?.getD s.gpio.now }, env := { s.env with edges := [] } }
  | [], s, _, _ => by simp [deliver]
  | ⟨after, t⟩ :: held, s, hs, hdue => by
    obtain rfl : after = 0 := hdue _ List.mem_cons_self
    have ih := deliver_held held ((edgeEnabled_takeEdge t s).trans hs) fun e he => hdue e (List.mem_cons_of_mem _ he)
    rw [deliver, ih, takeEdge_of_enabled t hs]
    simp [List.getLast?_cons]

/-- What `rot.start` leaves after its attach, when it has handled edges at the clock values `ts` and flipped the flag (R155). -/
def afterFlip (ts : List Time) (s : State) : State :=
  { s with
    rot := { afterTimes ts s.rot with started := true }, gpio := { s.gpio with now := ts.getLast?.getD s.gpio.now }
    hist := s.hist ++ ts.map .edge, env := { s.env with edges := [] } }

theorem plainTurn_flip {s : State} {p : Pin} {held : List EdgeAt} (hp : s.rot.pin = some p)
    (hgoOn : s.env.edgesGoOn = false) (hs : edgeEnabled s = true) (hdue : ∀ e ∈ held, e.after = 0) :
    plainTurn (startAt .flip held s) = answered 1#64 (afterFlip (held.map EdgeAt.now) s) := by
  have hmore : moreEdges (startAt .flip held s) = startAt .flip held s := moreEdges_of_not hgoOn
  rw [plainTurn, turn, hmore]
  show countDown (microStep .low 0#32 (deliver held (startAt .flip held s))) = _
  have hdeliver := deliver_held held (s := startAt .flip held s) hs hdue
  have hpin : (afterTimes (held.map EdgeAt.now) s.rot).pin = some p := (afterTimes_pin _ _).trans hp
  have hflip := microStep_start (s := deliver held (startAt .flip held s)) (p := p) (by rw [hdeliver]; exact hpin) .low 0#32
    .flip []
  rw [hdeliver] at hflip ⊢
  rw [countDown_nil _ ((microStep_edges _ _ _).trans rfl)]
  exact hflip

/-! ## The schedule -/

/-- `k` micro-steps from now the attached handler takes the edges `held`, all in one turn; the edges `lost` are due before. -/
structure Scheduled (k : Nat) (lost held : List EdgeAt) : Prop where
  early : lost ≠ [] → (lost.map EdgeAt.after).sum < k
  head : ∀ e ∈ held.head?, (lost.map EdgeAt.after).sum + e.after = k
  tail : ∀ e ∈ held.tail, e.after = 0

/-- A turn before the attach brings the schedule one micro-step nearer. -/
theorem passed_scheduled {k : Nat} {held : List EdgeAt} : ∀ {lost : List EdgeAt}, Scheduled (k + 1) lost held →
    ∃ lost' held', passed (lost ++ held) = lost' ++ held' ∧ Scheduled k lost' held' ∧
      held'.map EdgeAt.now = held.map EdgeAt.now
  | [], h => by
    cases held with
    | nil => exact ⟨[], [], rfl, ⟨nofun, nofun, nofun⟩, rfl⟩
    | cons e held =>
      obtain ⟨after, t⟩ := e
      obtain rfl : after = k + 1 := (Nat.zero_add after).symm.trans (h.head _ rfl)
      refine ⟨[], ⟨k, t⟩ :: held, rfl, ⟨nofun, fun e he => ?_, h.tail⟩, rfl⟩
      obtain rfl : (⟨k, t⟩ : EdgeAt) = e := Option.some.inj he
      exact Nat.zero_add k
  | ⟨0, t⟩ :: lost, h => by
    have hsum : (List.map EdgeAt.after (⟨0, t⟩ :: lost)).sum = (lost.map EdgeAt.after).sum := Nat.zero_add _
    obtain ⟨hlost, hhead, htail⟩ := h
    rw [hsum] at hlost hhead
    exact passed_scheduled (lost := lost) ⟨fun _ => hlost (List.cons_ne_nil _ _), hhead, htail⟩
  | ⟨after + 1, t⟩ :: lost, h => by
    obtain ⟨hlost, hhead, htail⟩ := h
    have hsum : (List.map EdgeAt.after (⟨after + 1, t⟩ :: lost)).sum =
        (List.map EdgeAt.after (⟨after, t⟩ :: lost)).sum + 1 := by simp [Nat.add_right_comm]
    rw [hsum] at hlost hhead
    refine ⟨⟨after, t⟩ :: lost, held, rfl, ⟨fun _ => ?_, fun e he => ?_, htail⟩, rfl⟩
    · exact Nat.lt_of_succ_lt_succ (hlost (List.cons_ne_nil _ _))
    · have := hhead e he
      omega

/-- At the last micro-step nothing can be lost any more, and all that is left is due. -/
theorem due_of_scheduled {lost held : List EdgeAt} (h : Scheduled 0 lost held) :
    lost ++ held = held ∧ ∀ e ∈ held, e.after = 0 := by
  have hnone : lost = [] := Classical.byContradiction fun hne => Nat.not_lt_zero _ (h.early hne)
  subst hnone
  refine ⟨rfl, fun e he => ?_⟩
  cases held with
  | nil => cases he
  | cons e' held =>
    obtain rfl | he := List.mem_cons.1 he
    · exact (Nat.zero_add _).symm.trans (h.head _ rfl)
    · exact h.tail e he

/-! ## The start -/

/-- The pin is configured, the clock is read into both timestamps and the handler is attached; the flip is to come (R155). -/
abbrev attached (p : Pin) (now : Time) (rest : List Time) (s : State) : State :=
  attachFalling p (clockRead now rest (pinConfigInput p true s))

theorem exec_rotStart {s : State} (hs : s.task = .idle) :
    exec .rotStart s = .next
      (if s.rot.started = true then finish (boolValue false) s
       else if s.rot.pin.isSome = true then runCommand (beginTask (.start .configure) s) else refuse .noPin s) := by
  show execRotStart s = _
  rw [execRotStart, command_of_idle _ hs]
  cases s.rot.pin <;> rfl

/-- The whole of `rot.start`: three turns in which due edges are lost, and the turn of the flip, in which they are handled. -/
theorem exec_rotStart_completes {s : State} {p : Pin} {now : Time} {rest : List Time} {lost held : List EdgeAt}
    (hs : s.task = .idle) (hnot : s.rot.started = false) (hp : s.rot.pin = some p) (hgoOn : s.env.edgesGoOn = false)
    (hclocks : s.env.clocks = now :: rest) (hedges : s.env.edges = lost ++ held)
    (hoff : edgeEnabled s = false ∨ lost ++ held = []) (hsched : Scheduled 3 lost held) :
    exec .rotStart s = .next (answered 1#64 (afterFlip (held.map EdgeAt.now) (attached p now rest s))) := by
  have hexec := exec_rotStart hs
  rw [hnot, hp] at hexec
  refine hexec.trans (congrArg Host.Outcome.next ?_)
  show runCommand (beginTask (.start .configure) s) = _
  have hbegin : beginTask (.start .configure) s = startAt .configure (lost ++ held) s := by rw [← hedges]; rfl
  have hnone : ∀ {es : List EdgeAt}, es = [] → passed es = [] := by rintro es rfl; rfl
  obtain ⟨lost₁, held₁, hes₁, hsched₁, htimes₁⟩ := passed_scheduled hsched
  obtain ⟨lost₂, held₂, hes₂, hsched₂, htimes₂⟩ := passed_scheduled hsched₁
  obtain ⟨lost₃, held₃, hes₃, hsched₃, htimes₃⟩ := passed_scheduled hsched₂
  obtain ⟨hall, hdue⟩ := due_of_scheduled hsched₃
  have hoff₁ : edgeEnabled s = false ∨ lost₁ ++ held₁ = [] := hoff.imp_right fun h => hes₁ ▸ hnone h
  have hoff₂ : edgeEnabled s = false ∨ lost₂ ++ held₂ = [] := hoff₁.imp_right fun h => hes₂ ▸ hnone h
  have hattached : edgeEnabled (attached p now rest s) = true := by simp [edgeEnabled, clockRead, hp]
  have hflip := plainTurn_flip (s := attached p now rest s) hp hgoOn hattached hdue
  have hsettle : settle settleBound (startAt .configure (lost ++ held) s) =
      answered 1#64 (afterFlip (held.map EdgeAt.now) (attached p now rest s)) := by
    rw [settleBound, settle_configure hp hgoOn hoff 11, hes₁]
    rw [settle_now (s := pinConfigInput p true s) hp hgoOn hoff₁ 10 hclocks, hes₂]
    rw [settle_attach (s := clockRead now rest (pinConfigInput p true s)) hp hgoOn hoff₂ 9, hes₃, hall]
    rw [settle_plain 8 rfl hflip, htimes₃, htimes₂, htimes₁]
    exact settle_of_done rfl 8
  rw [hbegin, runCommand_settled hsettle rfl (.inr rfl), runCommand_idle rfl]

/-- Settles O41: with no edge to come nothing is lost and nothing handled; a second start and one without a pin end at once. -/
theorem rotStartCompletes : Obligations.RotStartCompletes := by
  unfold Obligations.RotStartCompletes
  intro s hs
  refine ⟨fun p now rest hq hnot hp hclocks => ?_, fun hstarted => ?_, fun hnot hp => ?_⟩
  · obtain ⟨hedges, hgoOn⟩ := hq
    rw [exec_rotStart_completes (lost := []) (held := []) hs hnot hp hgoOn hclocks hedges (.inr rfl) ⟨nofun, nofun, nofun⟩]
    simp [afterFlip, attachFalling, clockRead, nowMillis, pinConfigInput, record, hedges]
  · rw [exec_rotStart hs, hstarted]
    rfl
  · rw [exec_rotStart hs, hnot, hp]
    rfl

/-- Settles O42: the sums of the hypotheses are the schedule of the three micro-steps before the flip. -/
theorem startLosesEarlyEdgesAndHandlesLaterOnes : Obligations.StartLosesEarlyEdgesAndHandlesLaterOnes := by
  unfold Obligations.StartLosesEarlyEdgesAndHandlesLaterOnes
  intro s p now rest lost held hs hnot hp hoff hclocks hgoOn hedges hlost hhead htail
  have hsched : Scheduled 3 lost held := ⟨fun _ => Nat.lt_succ_of_le hlost, hhead, htail⟩
  rw [exec_rotStart_completes hs hnot hp hgoOn hclocks hedges (.inl hoff) hsched]
  simp [afterFlip, attachFalling, clockRead, nowMillis, pinConfigInput, record, Function.comp_def]

end Sys2Proof.Starting
end

section
/-! PROOF. Reading a register the handler writes (42_pulse_capture.md R166 to R168, 93_implementation_defined.md U10). `BytesRead` says
what the bytes read so far are: each is that byte of a value the register has held since the read began. An edge adds a value the
register has held, a micro-step reads one more byte (`Reading.microStep`), and after as many turns as the register has bytes the getter
has answered (`settle_getter`). -/

open Sys2Proof.Machine Sys2Proof.Laws Sys2Proof.Issue Sys2Proof.SideBySide Sys2Proof.Starting

namespace Sys2Proof.SharedReads

/-! ## Bytes of a register (R44) -/

theorem getLsbD_byteOf (v : F64) (k i : Nat) : (byteOf v k).getLsbD i = (decide (i < 8) && v.getLsbD (8 * k + i)) :=
  BitVec.getLsbD_extractLsb' ..

theorem byteOf_zero (k : Nat) : byteOf 0#64 k = 0#8 := by
  refine BitVec.eq_of_getLsbD_eq fun i _ => ?_
  rw [getLsbD_byteOf, BitVec.getLsbD_zero, BitVec.getLsbD_zero, Bool.and_false]

/-- A register of `w` bits has no byte from bit `w` on. -/
theorem byteOf_setWidth_high {w k : Nat} (v : BitVec w) (h : w ≤ 8 * k) : byteOf (v.setWidth 64) k = 0#8 := by
  refine BitVec.eq_of_getLsbD_eq fun i _ => ?_
  rw [getLsbD_byteOf, BitVec.getLsbD_setWidth, BitVec.getLsbD_of_ge v _ (by omega), BitVec.getLsbD_zero, Bool.and_false,
    Bool.and_false]

theorem byteOf_putByte_same {v : F64} {k : Nat} (b : BitVec 8) (hk : k < 8) (hv : byteOf v k = 0#8) :
    byteOf (putByte v k b) k = b := by
  refine BitVec.eq_of_getLsbD_eq fun i hi => ?_
  have hzero : v.getLsbD (8 * k + i) = false := by
    have hbit : (byteOf v k).getLsbD i = false := by rw [hv, BitVec.getLsbD_zero]
    rwa [getLsbD_byteOf, decide_eq_true hi, Bool.true_and] at hbit
  have hplace : (b.setWidth 64 <<< (8 * k)).getLsbD (8 * k + i) = b.getLsbD i := by
    rw [BitVec.getLsbD_shiftLeft, BitVec.getLsbD_setWidth, Nat.add_sub_cancel_left,
      decide_eq_true (show 8 * k + i < 64 by omega), decide_eq_true (show i < 64 by omega),
      decide_eq_false (show ¬8 * k + i < 8 * k by omega), Bool.not_false, Bool.true_and, Bool.true_and, Bool.true_and]
  rw [getLsbD_byteOf, putByte, BitVec.getLsbD_or, hzero, hplace, decide_eq_true hi, Bool.false_or, Bool.true_and]

theorem byteOf_putByte_other (v : F64) {k m : Nat} (b : BitVec 8) (h : m ≠ k) : byteOf (putByte v k b) m = byteOf v m := by
  refine BitVec.eq_of_getLsbD_eq fun i hi => ?_
  have hout : (b.setWidth 64 <<< (8 * k)).getLsbD (8 * m + i) = false := by
    rw [BitVec.getLsbD_shiftLeft, BitVec.getLsbD_setWidth]
    obtain hlow | hhigh := Nat.lt_or_gt_of_ne h
    · rw [decide_eq_true (show 8 * m + i < 8 * k by omega), Bool.not_true, Bool.and_false, Bool.false_and]
    · rw [BitVec.getLsbD_of_ge b _ (by omega), Bool.and_false, Bool.and_false]
  rw [getLsbD_byteOf, getLsbD_byteOf, putByte, BitVec.getLsbD_or, hout, Bool.or_false]

theorem getLsbD_of_byteOf (v : F64) (i : Nat) : v.getLsbD i = (byteOf v (i / 8)).getLsbD (i % 8) := by
  rw [getLsbD_byteOf, decide_eq_true (Nat.mod_lt i (by decide)), Bool.true_and, Nat.div_add_mod]

theorem eq_of_byteOf_eq {v w : F64} (h : ∀ k, k < 8 → byteOf v k = byteOf w k) : v = w := by
  refine BitVec.eq_of_getLsbD_eq fun i hi => ?_
  rw [getLsbD_of_byteOf v, getLsbD_of_byteOf w, h _ (by omega)]

theorem toNat_lt_of_byteOf {v : F64} (h : ∀ k, 4 ≤ k → byteOf v k = 0#8) : v.toNat < 2 ^ 32 := by
  refine Nat.lt_pow_two_of_testBit _ fun i hi => ?_
  rw [BitVec.testBit_toNat, getLsbD_of_byteOf, h _ (by omega), BitVec.getLsbD_zero]

/-- A shared register has no more bytes than its width (R168). -/
theorem byteOf_sharedValue_high {reg : SharedReg} {k : Nat} (r : Rot) (h : sharedBytes reg ≤ k) :
    byteOf (sharedValue reg r) k = 0#8 := by
  have hwidth : sharedBytes reg * 8 ≤ 8 * k := by omega
  cases reg with
  | speed =>
    have hself : sharedValue .speed r = r.filteredSpeed.setWidth 64 := (BitVec.setWidth_eq _).symm
    rw [hself]
    exact byteOf_setWidth_high _ hwidth
  | rotates => exact byteOf_setWidth_high _ hwidth

/-! ## The values a register has held -/

/-- The value is the register's after some number of the edges at the clock values `ts`. -/
def Held (reg : SharedReg) (r : Rot) (ts : List Time) (v : F64) : Prop :=
  ∃ j, j ≤ ts.length ∧ v = sharedValue reg (afterTimes (ts.take j) r)

/-- The byte is that byte of a value the register has held. -/
def HeldByte (reg : SharedReg) (r : Rot) (ts : List Time) (k : Nat) (b : BitVec 8) : Prop :=
  ∃ v, Held reg r ts v ∧ b = byteOf v k

/-- The bytes `left` of a register are still to be read, and `got` holds the others: each was held since the read began (U10). -/
structure BytesRead (reg : SharedReg) (r : Rot) (ts : List Time) (left : List Nat) (got : F64) : Prop where
  nodup : left.Nodup
  bound : ∀ k ∈ left, k < sharedBytes reg
  read : ∀ k, k < sharedBytes reg → k ∉ left → HeldByte reg r ts k (byteOf got k)
  unread : ∀ k, k ∈ left ∨ sharedBytes reg ≤ k → byteOf got k = 0#8

section Held
variable {reg : SharedReg} {r : Rot} {ts : List Time}

theorem held_now : Held reg r ts (sharedValue reg (afterTimes ts r)) :=
  ⟨ts.length, Nat.le_refl _, by rw [List.take_length]⟩

theorem Held.snoc {v : F64} (t : Time) (h : Held reg r ts v) : Held reg r (ts ++ [t]) v := by
  obtain ⟨j, hj, hv⟩ := h
  exact ⟨j, by rw [List.length_append]; omega, by rw [List.take_append_of_le_length hj, hv]⟩

theorem BytesRead.snoc {left : List Nat} {got : F64} (t : Time) (h : BytesRead reg r ts left got) :
    BytesRead reg r (ts ++ [t]) left got :=
  { h with read := fun k hk hleft => (h.read k hk hleft).imp fun _ hv => ⟨hv.1.snoc t, hv.2⟩ }

theorem bytesRead_none : BytesRead reg r ts (List.range (sharedBytes reg)) 0#64 where
  nodup := List.nodup_range
  bound _ hk := List.mem_range.1 hk
  read _ hk hleft := absurd (List.mem_range.2 hk) hleft
  unread k _ := byteOf_zero k

/-- A whole value is a read of every byte. -/
theorem bytesRead_whole {v : Rot} (h : Held reg r ts (sharedValue reg v)) : BytesRead reg r ts [] (sharedValue reg v) where
  nodup := List.nodup_nil
  bound := nofun
  read _ _ _ := ⟨_, h, rfl⟩
  unread _ hk := byteOf_sharedValue_high v (hk.resolve_left List.not_mem_nil)

/-- One more byte is read as the register holds it now. -/
theorem BytesRead.readByte {left : List Nat} {got : F64} {k : Nat} (h : BytesRead reg r ts left got) (hk : k ∈ left) :
    BytesRead reg r ts (left.erase k) (putByte got k (byteOf (sharedValue reg (afterTimes ts r)) k)) where
  nodup := h.nodup.erase k
  bound m hm := h.bound m (List.mem_of_mem_erase hm)
  read m hm hleft := by
    by_cases heq : m = k
    · subst heq
      have hbytes : m < 8 := Nat.lt_of_lt_of_le hm (by cases reg <;> decide)
      exact ⟨_, held_now, byteOf_putByte_same _ hbytes (h.unread m (.inl hk))⟩
    · rw [byteOf_putByte_other _ _ heq]
      exact h.read m hm fun hin => hleft ((List.mem_erase_of_ne heq).2 hin)
  unread m hm := by
    have hne : m ≠ k := by
      rintro rfl
      obtain hin | hhigh := hm
      · exact h.nodup.not_mem_erase hin
      · exact Nat.not_le.2 (h.bound m hk) hhigh
    rw [byteOf_putByte_other _ _ hne]
    exact h.unread m (hm.imp_left List.mem_of_mem_erase)

end Held

/-! ## One byte -/

/-- In a list without repetitions a place and its entry are removed alike. -/
theorem erase_getElem_of_nodup : ∀ {l : List Nat} {i : Nat} (hi : i < l.length), l.Nodup → l.erase l[i] = l.eraseIdx i
  | x :: l, 0, _, _ => List.erase_cons_head x l
  | x :: l, i + 1, hi, hl => by
    have hi' : i < l.length := Nat.lt_of_succ_lt_succ hi
    obtain ⟨hx, hl⟩ := List.nodup_cons.1 hl
    have hne : ¬(x == l[i]) = true := fun h => hx (eq_of_beq h ▸ List.getElem_mem hi')
    exact (List.erase_cons_tail hne).trans (congrArg (x :: ·) (erase_getElem_of_nodup hi' hl))

/-- All that reading a byte can do, said with the byte read (R168): `left` is one byte shorter, and the last one is the answer. -/
theorem readByte_reads (reg : SharedReg) {left : List Nat} (got : F64) (s : State) (hleft : left.Nodup) :
    (left = [] ∧ readByte reg left got s = finish got { s with env := (nextPick s.env).2 }) ∨
      ∃ k got', k ∈ left ∧ got' = putByte got k (byteOf (sharedValue reg s.rot) k) ∧
        ((left.erase k = [] ∧ readByte reg left got s = finish got' { s with env := (nextPick s.env).2 }) ∨
          readByte reg left got s = { s with env := (nextPick s.env).2, task := .sharedBytes reg (left.erase k) got' }) := by
  unfold readByte
  simp only
  split
  next hnone =>
    have hle := List.getElem?_eq_none_iff.1 hnone
    have hlt := Nat.mod_lt (nextPick s.env).1 (y := left.length)
    exact .inl ⟨List.eq_nil_of_length_eq_zero (by omega), rfl⟩
  next k hsome =>
    obtain ⟨hlt, rfl⟩ := List.getElem?_eq_some_iff.1 hsome
    rw [← erase_getElem_of_nodup hlt hleft]
    refine .inr ⟨_, _, List.getElem_mem hlt, rfl, ?_⟩
    split
    next hlast => exact .inl ⟨hlast, rfl⟩
    next => exact .inr rfl

/-! ## A read with edges -/

/-- From `s` to `v` the edges at the clock values `ts` have been handled, and the history and the registers of the pulse-timing unit
have changed by nothing else. -/
structure Handled (s : State) (ts : List Time) (v : State) : Prop where
  hist : v.hist = s.hist ++ ts.map .edge
  rot : v.rot = afterTimes ts s.rot
  enabled : edgeEnabled v = edgeEnabled s
  off : edgeEnabled s = false → ts = []

/-- The getter of `reg`, issued in `s`, is at `v` after edges at the clock values `ts`: about to read the whole register, or reading
it byte by byte, or done. -/
inductive Reading (reg : SharedReg) (s : State) (ts : List Time) (v : State) : Prop where
  | whole (hk : v.task = .sharedWhole reg)
  | bytes {left : List Nat} {got : F64} (hk : v.task = .sharedBytes reg left got) (hc : s.cfg.atomicReads = false)
      (hp : BytesRead reg s.rot ts left got)
  | done {w : F64} (hk : v.task = .idle) (hr : v.rsp = some ⟨.ok, w⟩) (hp : BytesRead reg s.rot ts [] w)
      (hc : s.cfg.atomicReads = true → Held reg s.rot ts w)

section Reading
variable {reg : SharedReg} {s v : State} {ts : List Time}

theorem Handled.takeEdge (t : Time) (hs : edgeEnabled v = true) (h : Handled s ts v) : Handled s (ts ++ [t]) (takeEdge t v) where
  hist := by rw [takeEdge_of_enabled t hs, List.map_append, ← List.append_assoc, ← h.hist]; rfl
  rot := by rw [takeEdge_of_enabled t hs, afterTimes_append, ← h.rot]; rfl
  enabled := (edgeEnabled_takeEdge t v).trans h.enabled
  off hoff := absurd (hs.symm.trans (h.enabled.trans hoff)) (by decide)

theorem Reading.takeEdge (t : Time) (h : Reading reg s ts v) : Reading reg s (ts ++ [t]) (takeEdge t v) := by
  cases h with
  | whole hk => exact .whole ((takeEdge_task t v).trans hk)
  | bytes hk hc hp => exact .bytes ((takeEdge_task t v).trans hk) hc (hp.snoc t)
  | done hk hr hp hc =>
    exact .done ((takeEdge_task t v).trans hk) ((takeEdge_rsp t v).trans hr) (hp.snoc t) fun ha => (hc ha).snoc t

/-- A micro-step of a getter reads the register, or one byte of it, and changes nothing but the command and the choices of byte
order. -/
theorem Reading.microStep (l : Level) (t : Time) (hrot : v.rot = afterTimes ts s.rot) (h : Reading reg s ts v) :
    ∃ k r e, (e = v.env ∨ e = (nextPick v.env).2) ∧ microStep l t v = { v with task := k, rsp := r, env := e } ∧
      Reading reg s ts { v with task := k, rsp := r, env := e } := by
  cases h with
  | whole hk =>
    have hheld : Held reg s.rot ts (sharedValue reg v.rot) := hrot ▸ held_now
    have hstep : Machine.microStep l t v = finish (sharedValue reg v.rot) v := by rw [Machine.microStep, hk]
    exact ⟨_, _, v.env, .inl rfl, hstep, .done rfl rfl (bytesRead_whole hheld) fun _ => hheld⟩
  | @bytes left got hk hc hp =>
    have hstep : Machine.microStep l t v = readByte reg left got v := by rw [Machine.microStep, hk]
    have hwhole : ∀ {w : F64}, s.cfg.atomicReads = true → Held reg s.rot ts w := fun ha => absurd (hc.symm.trans ha) (by decide)
    obtain ⟨rfl, hread⟩ | ⟨k, got', hin, rfl, ⟨hlast, hread⟩ | hread⟩ := readByte_reads reg got v hp.nodup
    · exact ⟨_, _, _, .inr rfl, hstep.trans hread, .done rfl rfl hp hwhole⟩
    · have hnext := hp.readByte hin
      rw [hlast, ← hrot] at hnext
      exact ⟨_, _, _, .inr rfl, hstep.trans hread, .done rfl rfl hnext hwhole⟩
    · have hnext := hp.readByte hin
      rw [← hrot] at hnext
      exact ⟨_, v.rsp, _, .inr rfl, hstep.trans hread, .bytes rfl hc hnext⟩
  | done hk hr hp hc =>
    have hstep : Machine.microStep l t v = v := by rw [Machine.microStep, hk]
    exact ⟨v.task, v.rsp, v.env, .inl rfl, hstep, .done hk hr hp hc⟩

theorem Reading.env (e : Env) (h : Reading reg s ts v) : Reading reg s ts { v with env := e } := by
  cases h with
  | whole hk => exact .whole hk
  | bytes hk hc hp => exact .bytes hk hc hp
  | done hk hr hp hc => exact .done hk hr hp hc

end Reading

/-! ## A getter ends -/

/-- A turn makes the micro-step of the command that runs. -/
theorem turn_task (l : Level) (t : Time) (s : State) : ∃ u, u.task = s.task ∧ (turn l t s).task = (microStep l t u).task := by
  have hmore : (moreEdges s).task = s.task := moreEdges_keeps (P := fun v => v.task = s.task) (fun _ _ h => h) rfl
  refine ⟨deliver (moreEdges s).env.edges (moreEdges s), ?_, ?_⟩
  · exact deliver_keeps (P := fun v => v.task = s.task) (fun t v h => (takeEdge_task t v).trans h) (fun _ _ h => h) _ _ hmore
  · exact countDown_keeps (P := fun v => v.task = (Machine.microStep l t _).task) (fun _ _ h => h) rfl

theorem settle_idle {s : State} (n : Nat) (h : s.task = .idle) : (settle n s).task = .idle := by
  rw [settle_of_done (by rw [need, h]), h]

theorem settle_whole {reg : SharedReg} {s : State} (n : Nat) (h : s.task = .sharedWhole reg) :
    (settle (n + 1) s).task = .idle := by
  rw [settle_plain n (by rw [need, h]) rfl]
  obtain ⟨u, hu, hturn⟩ := turn_task .low 0#32 s
  exact settle_idle n (hturn.trans (by rw [microStep, hu, h]; rfl))

/-- A byte-wise read ends after as many turns as bytes are left. -/
theorem settle_bytes {reg : SharedReg} : ∀ (n : Nat) {left : List Nat} {got : F64} {s : State},
    s.task = .sharedBytes reg left got → left.length ≤ n + 1 → (settle (n + 1) s).task = .idle
  | n, left, got, s, h, hlen => by
    rw [settle_plain n (by rw [need, h]) rfl]
    obtain ⟨u, hu, hturn⟩ := turn_task .low 0#32 s
    have hstep : microStep .low 0#32 u = readByte reg left got u := by rw [microStep, hu, h]
    rw [hstep] at hturn
    obtain ⟨e, -, ⟨-, w, hread⟩ | ⟨hmore, rest, got', hrest, hread⟩⟩ := readByte_cases reg left got u <;> rw [hread] at hturn
    · exact settle_idle n hturn
    · match n with
      | 0 => omega
      | n + 1 => exact settle_bytes n hturn (by omega)

/-! ## The getters -/

/-- The command that answers with a shared register (R166, R167). -/
def getterOf : SharedReg → Instr
  | .speed => .rotGetSpeed
  | .rotates => .rotGetRotates

/-- Its first micro-step: the whole register, or the first of its bytes (R168). -/
def firstRead (reg : SharedReg) (cfg : Config) : Task :=
  if cfg.atomicReads = true then .sharedWhole reg else .sharedBytes reg (List.range (sharedBytes reg)) 0#64

theorem firstRead_cases (reg : SharedReg) (cfg : Config) :
    (cfg.atomicReads = true ∧ firstRead reg cfg = .sharedWhole reg) ∨
      (cfg.atomicReads = false ∧ firstRead reg cfg = .sharedBytes reg (List.range (sharedBytes reg)) 0#64) := by
  unfold firstRead
  split
  next h => exact .inl ⟨h, rfl⟩
  next h => exact .inr ⟨Bool.eq_false_iff.2 h, rfl⟩

theorem settle_getter (reg : SharedReg) (s : State) :
    (settle settleBound (beginTask (firstRead reg s.cfg) s)).task = .idle := by
  have hbytes : (List.range (sharedBytes reg)).length ≤ 11 + 1 := by cases reg <;> decide
  obtain ⟨-, hk⟩ | ⟨-, hk⟩ := firstRead_cases reg s.cfg
  · exact settle_whole 11 hk
  · exact settle_bytes 11 hk hbytes

theorem runCommand_getter (reg : SharedReg) (s : State) :
    runCommand (beginTask (firstRead reg s.cfg) s) = settle settleBound (beginTask (firstRead reg s.cfg) s) := by
  have hdone : need (settle settleBound (beginTask (firstRead reg s.cfg) s)) = .done := by rw [need, settle_getter]
  exact (runSamples_settle _ rfl (.inr hdone)).trans (runSamples_of_done hdone _)

theorem exec_getter (reg : SharedReg) {s : State} (hs : s.task = .idle) :
    exec (getterOf reg) s = .next (runCommand (beginTask (firstRead reg s.cfg) s)) := by
  have hstart : exec (getterOf reg) s = .next (startShared reg s) := by cases reg <;> exact command_of_idle _ hs
  rw [hstart, startShared]
  obtain ⟨hc, hk⟩ | ⟨hc, hk⟩ := firstRead_cases reg s.cfg <;> rw [hc, hk] <;> rfl

theorem reading_begin (reg : SharedReg) (s : State) : Reading reg s [] (beginTask (firstRead reg s.cfg) s) := by
  obtain ⟨-, hk⟩ | ⟨hc, hk⟩ := firstRead_cases reg s.cfg
  · exact .whole hk
  · exact .bytes hk hc bytesRead_none

/-! ## Whatever edges arrive -/

/-- The getter of `reg`, issued in `s`, is at `v`. -/
def ReadFrom (reg : SharedReg) (s v : State) : Prop := ∃ ts, Handled s ts v ∧ Reading reg s ts v

theorem readFrom_takeEdge {reg : SharedReg} {s v : State} (t : Time) (h : ReadFrom reg s v) : ReadFrom reg s (takeEdge t v) := by
  cases hs : edgeEnabled v with
  | false => rwa [takeEdge_of_not t hs]
  | true =>
    obtain ⟨ts, hhandled, hreading⟩ := h
    exact ⟨ts ++ [t], hhandled.takeEdge t hs, hreading.takeEdge t⟩

theorem readFrom_microStep {reg : SharedReg} {s v : State} (l : Level) (t : Time) (h : ReadFrom reg s v) :
    ReadFrom reg s (microStep l t v) := by
  obtain ⟨ts, hhandled, hreading⟩ := h
  obtain ⟨k, r, e, -, hstep, hnext⟩ := hreading.microStep l t hhandled.rot
  rw [hstep]
  exact ⟨ts, { hhandled with }, hnext⟩

theorem readFrom_env {reg : SharedReg} {s v : State} (e : Env) (h : ReadFrom reg s v) : ReadFrom reg s { v with env := e } := by
  obtain ⟨ts, hhandled, hreading⟩ := h
  exact ⟨ts, { hhandled with }, hreading.env e⟩

/-- A getter answers with bytes its register has held during the read, and with `ATOMIC_READS` with a value it has held. -/
theorem exec_getter_answers (reg : SharedReg) {s : State} (hs : s.task = .idle) :
    ∃ t w ts, exec (getterOf reg) s = .next t ∧ t.rsp = some ⟨.ok, w⟩ ∧ Handled s ts t ∧ BytesRead reg s.rot ts [] w ∧
      (s.cfg.atomicReads = true → Held reg s.rot ts w) := by
  have hend : ReadFrom reg s (runCommand (beginTask (firstRead reg s.cfg) s)) :=
    runCommand_keeps (P := ReadFrom reg s) (fun t _ h => readFrom_takeEdge t h) (fun l t _ h => readFrom_microStep l t h)
      (fun e _ h => readFrom_env e h)
      ⟨[], ⟨(List.append_nil _).symm, rfl, rfl, fun _ => rfl⟩, reading_begin reg s⟩
  have hidle : (runCommand (beginTask (firstRead reg s.cfg) s)).task = .idle :=
    runCommand_getter reg s ▸ settle_getter reg s
  obtain ⟨ts, hhandled, hreading⟩ := hend
  cases hreading with
  | whole hk => exact absurd (hk.symm.trans hidle) nofun
  | bytes hk => exact absurd (hk.symm.trans hidle) nofun
  | done _ hr hp hc => exact ⟨_, _, ts, exec_getter reg hs, hr, hhandled, hp, hc⟩

theorem BytesRead.byte {reg : SharedReg} {r : Rot} {ts : List Time} {w : F64} (h : BytesRead reg r ts [] w) {k : Nat}
    (hk : k < sharedBytes reg) :
    ∃ j, j ≤ ts.length ∧ byteOf w k = byteOf (sharedValue reg (afterTimes (ts.take j) r)) k := by
  obtain ⟨v, ⟨j, hj, rfl⟩, hb⟩ := h.read k hk List.not_mem_nil
  exact ⟨j, hj, hb⟩

/-- The same, said of the events the read leaves: they are the deliveries of the edges handled. -/
theorem exec_getter_mixes (reg : SharedReg) {s : State} (hs : s.task = .idle) :
    ∃ t v es, exec (getterOf reg) s = .next t ∧ t.rsp = some ⟨.ok, v⟩ ∧ t.hist = s.hist ++ es ∧
      (∀ e ∈ es, isEdgeEvent e = true) ∧ (edgeEnabled s = false → es = []) ∧ t.rot = afterTimes (edgeTimes es) s.rot ∧
      (∀ k, sharedBytes reg ≤ k → byteOf v k = 0#8) ∧
      (∀ k, k < sharedBytes reg → ∃ j, j ≤ es.length ∧
        byteOf v k = byteOf (sharedValue reg (afterTimes ((edgeTimes es).take j) s.rot)) k) ∧
      (s.cfg.atomicReads = true → ∃ j, j ≤ es.length ∧ v = sharedValue reg (afterTimes ((edgeTimes es).take j) s.rot)) := by
  obtain ⟨t, v, ts, hexec, hrsp, ⟨hhist, hrot, -, hoff⟩, hread, hwhole⟩ := exec_getter_answers reg hs
  have hedge : ∀ e ∈ ts.map Event.edge, isEdgeEvent e = true := by
    intro e he
    obtain ⟨now, -, rfl⟩ := List.mem_map.1 he
    rfl
  refine ⟨t, v, ts.map .edge, hexec, hrsp, hhist, hedge, fun h => by rw [hoff h]; rfl, ?_⟩
  rw [edgeTimes_edges, List.length_map]
  exact ⟨hrot, fun k hk => hread.unread k (.inr hk), fun k => hread.byte, hwhole⟩

/-- Settles O44: both getters answer so; the counter has four bytes, so its answer is below 2^32. -/
theorem tornReadsMixHeldValues : Obligations.TornReadsMixHeldValues := by
  unfold Obligations.TornReadsMixHeldValues
  intro s hs
  constructor
  · obtain ⟨t, v, es, hexec, hrsp, hhist, hedge, hoff, hrot, -, hread, hwhole⟩ := exec_getter_mixes .speed hs
    exact ⟨t, v, es, hexec, hrsp, hhist, hedge, hoff, hrot, hread, hwhole⟩
  · obtain ⟨t, v, es, hexec, hrsp, hhist, hedge, hoff, hrot, hhigh, hread, hwhole⟩ := exec_getter_mixes .rotates hs
    exact ⟨t, v, es, hexec, hrsp, hhist, hedge, hoff, hrot, toNat_lt_of_byteOf hhigh, hread, hwhole⟩

/-! ## With no edge to come -/

/-- The getter, issued in `s`, is at `v`, and has used up nothing but choices of byte order. -/
def QuietRead (reg : SharedReg) (s v : State) : Prop :=
  Reading reg s [] v ∧ ∃ k r ps, v = { s with task := k, rsp := r, env := { s.env with picks := ps } }

theorem nextPick_quiet {e : Env} (h : noEdges e) : ∃ ps, (nextPick e).2 = { e with picks := ps } := by
  unfold nextPick
  split
  next p ps _ => exact ⟨ps, rfl⟩
  next => exact ⟨e.picks, by rw [if_pos h]⟩

theorem quietRead_turn {reg : SharedReg} {s v : State} (hq : quiet s) (h : QuietRead reg s v) : QuietRead reg s (plainTurn v) := by
  obtain ⟨hreading, k, r, ps, rfl⟩ := h
  obtain ⟨k', r', e, he, hstep, hnext⟩ := hreading.microStep .low 0#32 rfl
  obtain ⟨qs, rfl⟩ : ∃ qs, e = { s.env with picks := qs } := by
    obtain rfl | rfl := he
    · exact ⟨ps, rfl⟩
    · exact nextPick_quiet (e := { s.env with picks := ps }) hq
  rw [plainTurn, turn_quiet _ _ (by exact hq), hstep]
  exact ⟨hnext, k', r', qs, rfl⟩

theorem quietRead_settle {reg : SharedReg} {s : State} (hq : quiet s) : ∀ (n : Nat) {v : State}, QuietRead reg s v →
    QuietRead reg s (settle n v)
  | 0, _, h => h
  | n + 1, v, h => by
    have hnext := quietRead_turn hq h
    cases h.1 with
    | whole hk => rw [settle_plain n (by rw [need, hk]) rfl]; exact quietRead_settle hq n hnext
    | bytes hk => rw [settle_plain n (by rw [need, hk]) rfl]; exact quietRead_settle hq n hnext
    | done hk => rw [settle_of_done (by rw [need, hk])]; exact h

/-- A read without edges is a read of one value. -/
theorem BytesRead.eq_sharedValue {reg : SharedReg} {r : Rot} {w : F64} (h : BytesRead reg r [] [] w) : w = sharedValue reg r := by
  refine eq_of_byteOf_eq fun k _ => ?_
  obtain hk | hk := Nat.lt_or_ge k (sharedBytes reg)
  · obtain ⟨j, -, hb⟩ := h.byte hk
    rwa [List.take_nil] at hb
  · rw [h.unread k (.inr hk), byteOf_sharedValue_high r hk]

theorem exec_getter_quiet (reg : SharedReg) {s : State} (hs : s.task = .idle) (hq : quiet s) :
    ∃ ps, exec (getterOf reg) s = .next (answered (sharedValue reg s.rot) { s with env := { s.env with picks := ps } }) := by
  rw [exec_getter reg hs, runCommand_getter]
  have hidle := settle_getter reg s
  obtain ⟨hreading, k, r, ps, heq⟩ : QuietRead reg s (settle settleBound (beginTask (firstRead reg s.cfg) s)) :=
    quietRead_settle hq _ ⟨reading_begin reg s, _, _, s.env.picks, rfl⟩
  rw [heq] at hidle hreading ⊢
  cases hreading with
  | whole hk => exact absurd (hk.symm.trans hidle) nofun
  | bytes hk => exact absurd (hk.symm.trans hidle) nofun
  | done hk hr hp =>
    obtain rfl : k = .idle := hk
    obtain rfl : r = some ⟨.ok, _⟩ := hr
    rw [hp.eq_sharedValue]
    exact ⟨ps, rfl⟩

/-- Settles O43: with no edge to come every byte is one of the same value. -/
theorem gettersReturnTheirRegister : Obligations.GettersReturnTheirRegister := by
  unfold Obligations.GettersReturnTheirRegister
  exact fun s hs hq => ⟨exec_getter_quiet .speed hs hq, exec_getter_quiet .rotates hs hq⟩

end Sys2Proof.SharedReads
end

section
/-! PROOF. The surrounding software's checksum and calibration record (43_persistence_checksum.md R181 to R188). Each bit, each byte and
so each buffer steps the CRC register by an injective map (`crcBit_injective`): two registers that differ stay different, and a byte
that differs makes them differ. A checksum is compared as its bytes, and these determine it (`wordBytes_injective`). -/

open Sys2Proof.Machine Sys2Proof.Laws

namespace Sys2Proof.Persistence

/-! ## Numbers and their bytes (R184) -/

theorem ofBytes_append (as bs : List (BitVec 8)) : ofBytes (as ++ bs) = ofBytes as + 256 ^ as.length * ofBytes bs := by
  induction as with
  | nil => simp [ofBytes]
  | cons a as ih =>
    simp only [List.cons_append, ofBytes, ih, List.length_cons]
    rw [Nat.mul_add, ← Nat.mul_assoc, ← Nat.pow_succ', Nat.add_assoc]

theorem ofBytes_lowBytes {w : Nat} (v : BitVec w) (n : Nat) :
    ofBytes ((List.range n).map fun k => v.extractLsb' (8 * k) 8) = v.toNat % 256 ^ n := by
  induction n with
  | zero => simp [ofBytes, Nat.mod_one]
  | succ n ih =>
    have hbyte : (v.extractLsb' (8 * n) 8).toNat = v.toNat / 256 ^ n % 256 := by
      rw [BitVec.extractLsb'_toNat, Nat.shiftRight_eq_div_pow, Nat.pow_mul]
    rw [List.range_succ, List.map_append, ofBytes_append, ih, List.length_map, List.length_range, Nat.pow_succ, Nat.mod_mul]
    simp only [List.map_cons, List.map_nil, ofBytes, hbyte, Nat.mul_zero, Nat.add_zero]

@[simp] theorem ofBytes_wordBytes (v : Word) : ofBytes (wordBytes v) = v.toNat :=
  (ofBytes_lowBytes v 4).trans (Nat.mod_eq_of_lt v.isLt)

@[simp] theorem ofBytes_doubleBytes (v : F64) : ofBytes (doubleBytes v) = v.toNat :=
  (ofBytes_lowBytes v 8).trans (Nat.mod_eq_of_lt v.isLt)

@[simp] theorem length_wordBytes (v : Word) : (wordBytes v).length = 4 := rfl

@[simp] theorem length_doubleBytes (v : F64) : (doubleBytes v).length = 8 := rfl

theorem wordBytes_injective : Function.Injective wordBytes := fun v w h =>
  BitVec.eq_of_toNat_eq (by rw [← ofBytes_wordBytes v, h, ofBytes_wordBytes])

/-! ## The checksum (R186) -/

/-- The bit shifted out shows in the register's top bit, where the shift puts a zero and the polynomial a one. -/
theorem crcBit_msb (c : Word) : (crcBit c).msb = c.getLsbD 0 := by
  unfold crcBit
  split
  next h => rw [BitVec.msb_xor, BitVec.msb_ushiftRight, h]; rfl
  next h => rw [BitVec.msb_ushiftRight, eq_false_of_ne_true h]; rfl

theorem eq_of_ushiftRight_one_eq {c d : Word} (hlow : c.getLsbD 0 = d.getLsbD 0) (h : c >>> 1 = d >>> 1) : c = d := by
  refine BitVec.eq_of_getLsbD_eq fun i _ => ?_
  cases i with
  | zero => exact hlow
  | succ i =>
    have hbit : (c >>> 1).getLsbD i = (d >>> 1).getLsbD i := by rw [h]
    rwa [BitVec.getLsbD_ushiftRight, BitVec.getLsbD_ushiftRight, Nat.add_comm] at hbit

theorem crcBit_injective : Function.Injective crcBit := fun c d h => by
  have hlow : c.getLsbD 0 = d.getLsbD 0 := by rw [← crcBit_msb, h, crcBit_msb]
  refine eq_of_ushiftRight_one_eq hlow ?_
  unfold crcBit at h
  rw [hlow] at h
  split at h
  · exact (BitVec.xor_left_inj _).mp h
  · exact h

theorem crcBits_injective : ∀ n, Function.Injective (crcBits n)
  | 0 => Function.injective_id
  | n + 1 => (crcBits_injective n).comp crcBit_injective

theorem crcByte_register_injective (b : BitVec 8) : Function.Injective (crcByte · b) := fun _ _ h =>
  (BitVec.xor_left_inj _).mp (crcBits_injective 8 h)

theorem crcByte_injective (c : Word) : Function.Injective (crcByte c) := fun a b h => by
  have hwide : a.setWidth 32 = b.setWidth 32 := (BitVec.xor_right_inj c).mp (crcBits_injective 8 h)
  have hback (x : BitVec 8) : (x.setWidth 32).setWidth 8 = x := by
    rw [BitVec.setWidth_setWidth_of_le _ (by decide), BitVec.setWidth_eq]
  rw [← hback a, hwide, hback]

theorem foldl_crcByte_injective (bs : List (BitVec 8)) : Function.Injective (bs.foldl crcByte) := by
  induction bs with
  | nil => exact Function.injective_id
  | cons b bs ih => exact ih.comp (crcByte_register_injective b)

/-- The registers after the replaced byte differ, and the bytes that follow keep them apart. -/
theorem crc32_replaced_ne (bs cs : List (BitVec 8)) {b b' : BitVec 8} (h : b' ≠ b) :
    crc32 (bs ++ b' :: cs) ≠ crc32 (bs ++ b :: cs) := fun heq => h <| by
  have hfold := (BitVec.xor_left_inj _).mp heq
  rw [List.foldl_append, List.foldl_append] at hfold
  exact crcByte_injective _ (foldl_crcByte_injective cs hfold)

/-! ## Verifying (R187) -/

/-- R187's comparison of bytes is one of words. -/
theorem verifyChecksum_append (bs : List (BitVec 8)) (v : Word) : verifyChecksum (bs ++ wordBytes v) = decide (v = crc32 bs) := by
  have hlen : (bs ++ wordBytes v).length - 4 = bs.length := by
    rw [List.length_append, length_wordBytes, Nat.add_sub_cancel]
  rw [verifyChecksum, hlen, List.drop_left, List.take_left, Bool.eq_iff_iff, beq_iff_eq, decide_eq_true_iff]
  exact wordBytes_injective.eq_iff

@[simp] theorem verifyChecksum_withChecksum (bs : List (BitVec 8)) : verifyChecksum (withChecksum bs) = true :=
  (verifyChecksum_append bs _).trans (decide_eq_true rfl)

theorem verifyChecksum_of_ne {bs : List (BitVec 8)} {v : Word} (h : v ≠ crc32 bs) : verifyChecksum (bs ++ wordBytes v) = false :=
  (verifyChecksum_append bs v).trans (decide_eq_false h)

/-- Settles O58: the checksum of a changed payload is another one, and `verify` accepts no other than the payload's. -/
theorem checksumVerifiesAndCatchesFlips : Obligations.ChecksumVerifiesAndCatchesFlips := by
  unfold Obligations.ChecksumVerifiesAndCatchesFlips
  exact ⟨verifyChecksum_withChecksum, fun bs cs b b' h => verifyChecksum_of_ne (crc32_replaced_ne bs cs h).symm,
    fun bs v h => verifyChecksum_of_ne h⟩

/-! ## The record (R182, R183) -/

theorem nvReadAll_nvUpdateAll {m : Storage} {a n : Nat} {bs : List (BitVec 8)} (hlen : bs.length = n) (h : a + n ≤ m.size) :
    nvReadAll (nvUpdateAll m a bs) a n = bs := by
  subst hlen
  refine List.ext_getElem (by rw [nvReadAll, List.length_map, List.length_range]) fun i _ hi => ?_
  simp only [nvReadAll, List.getElem_map, List.getElem_range]
  exact nvRead_nvUpdateAll bs m a i hi h

theorem length_recordBytes (scale : F64) (offset : Offset) : (recordBytes scale offset).length = 16 := rfl

theorem recordBytes_scale (scale : F64) (offset : Offset) : (recordBytes scale offset).take 8 = doubleBytes scale := rfl

theorem recordBytes_offset (scale : F64) (offset : Offset) : ((recordBytes scale offset).drop 8).take 4 = wordBytes offset := rfl

theorem saveRecord_storage (scale : F64) (offset : Offset) (m : Storage) :
    (saveRecord scale offset m).2 = nvUpdateAll m Config.nvBase (recordBytes scale offset) := by
  simp only [saveRecord]

theorem loadRecord_of_recordBytes {m : Storage} {scale : F64} {offset : Offset}
    (h : nvReadAll m Config.nvBase 16 = recordBytes scale offset) : loadRecord m = some (scale, offset) := by
  have hverify : verifyChecksum (recordBytes scale offset) = true := verifyChecksum_withChecksum _
  simp only [loadRecord, h, hverify, if_true, recordBytes_scale, recordBytes_offset, ofBytes_doubleBytes, ofBytes_wordBytes,
    BitVec.ofNat_toNat, BitVec.setWidth_eq]

/-- Settles O57: the sixteen bytes read back as they were written, and they are the pair's record. -/
theorem loadAfterSaveReturnsThePair : Obligations.LoadAfterSaveReturnsThePair := by
  unfold Obligations.LoadAfterSaveReturnsThePair
  refine fun scale offset m => ⟨rfl, fun hsize => loadRecord_of_recordBytes ?_⟩
  rw [saveRecord_storage]
  exact nvReadAll_nvUpdateAll (length_recordBytes scale offset) hsize

end Sys2Proof.Persistence
end

section
/-! PROOF. The low-pass filter when the interval is the time constant (44_filters.md R200). The quotient of a number by itself is 1.0
(`fdiv_self`), which as a factor keeps the new sample (`one_fmul`); the old output's weight 1.0 - 1.0 is a zero, and so is its term. -/

open Sys2Proof.Machine Sys2Proof.Rounding Sys2Proof.Conversions Sys2Proof.EdgeSpeed

namespace Sys2Proof.Filter

theorem one_parts : fIsFinite Config.one = true ∧ fSign Config.one = false ∧ fMag Config.one = 2 ^ 1074 := by decide +kernel

/-- A finite magnitude scaled by the divisor rounds to its own pattern. -/
theorem roundMag_fMag_mul {x : F64} {d : Nat} (hx : fIsFinite x = true) (hd : 0 < d) : roundMag (fMag x * d) d = lowBits x := by
  rw [fMag_eq, roundMag_magOf hd (Nat.le_of_lt ((fIsFinite_iff x).1 hx))]

/-- A finite number that is no zero, divided by itself, is 1.0 (R9). -/
theorem fdiv_self {a : F64} (ha : fIsFinite a = true) (ha0 : fMag a ≠ 0) : fdiv a a = Config.one := by
  obtain ⟨hfin, hsign, hmag⟩ := one_parts
  have hround : roundMag (fMag a * 2 ^ 1074) (fMag a) = lowBits Config.one := by
    rw [Nat.mul_comm, ← hmag, roundMag_fMag_mul hfin (Nat.pos_of_ne_zero ha0)]
  rw [fdiv_finite ha ha ha0, hround, bne_self_eq_false, ← hsign, fPack_fSign_lowBits]

/-- 1.0 times a finite number is that number, a zero with its sign included (R9). -/
theorem one_fmul {x : F64} (hx : fIsFinite x = true) : fmul Config.one x = x := by
  obtain ⟨hfin, hsign, hmag⟩ := one_parts
  rw [fmul_finite hfin hx, hsign, hmag, Nat.mul_comm, roundMag_fMag_mul hx (Nat.two_pow_pos 1074), Bool.false_bne,
    fPack_fSign_lowBits]

/-- A zero times a finite number has the magnitude zero (R9). -/
theorem fMag_fmul_zero {z b : F64} (hz : fMag z = 0) (hb : fIsFinite b = true) : fMag (fmul z b) = 0 := by
  rw [fmul_zero hz hb, fMag_eq, lowBits_fPack _ (by decide), magOf_zero]

/-- The weight of the old output when the new sample's is 1.0. -/
theorem fMag_one_fsub_one : fMag (fsub Config.one Config.one) = 0 := by decide +kernel

/-- Settles O47: the new sample keeps its value times 1.0, and a zero is added to it. -/
theorem lowpassAtTheTimeConstantIsTheSample : Obligations.LowpassAtTheTimeConstantIsTheSample := by
  unfold Obligations.LowpassAtTheTimeConstantIsTheSample
  intro x prev T hx hx0 hprev hT hT0
  calc lowpass x prev T T
      = fadd (fmul Config.one x) (fmul (fsub Config.one Config.one) prev) := by rw [lowpass, fdiv_self hT hT0]
    _ = fadd x (fmul (fsub Config.one Config.one) prev) := by rw [one_fmul hx]
    _ = x := fadd_zero hx hx0 (fMag_fmul_zero fMag_one_fsub_one hprev)

end Sys2Proof.Filter
end

section
/-! PROOF. What a step may do to the counter and the filtered speed (10_state.md R20, R21, 60_exceptions.md R225). The beginning of a
command and every micro-step leave both as they were and add no `Edge` event; taking an edge adds one. `step_keeps` says once that what
every part of a step keeps is kept by the step. -/

open Sys2Proof.Machine Sys2Proof.Laws Sys2Proof.Issue

namespace Sys2Proof.HandlerOnly

/-- A property kept by taking an edge, by a micro-step, by any change of the environment and by the beginning of an instruction is
kept by a step: a word that does not decode is refused as an instruction is (R76). -/
theorem step_keeps {P : State → Prop} (hedge : ∀ now v, P v → P (takeEdge now v)) (hmicro : ∀ l now v, P v → P (microStep l now v))
    (henv : ∀ e v, P v → P { v with env := e }) (hbegin : ∀ {i v u}, Begins i v u → P v → P u) {s t : State}
    (h : step s = .next t) (hs : P s) : P t := by
  obtain ⟨-, rfl⟩ | ⟨p, s', i, -, hf, -, hi⟩ | ⟨p, s', e, -, hf, -, rfl⟩ | ⟨-, -, rfl⟩ := step_cases h
  · exact resume_keeps hedge hmicro henv hs
  · obtain ⟨rest, -, rfl⟩ := fetchNext_some hf
    have hs' := henv { s.env with cmds := rest } s hs
    obtain ⟨now, -, rfl⟩ | ⟨-, u, hb, rfl⟩ := exec_begins hi
    · exact hedge now _ hs'
    · exact runCommand_keeps hedge hmicro henv (hbegin hb hs')
  · obtain ⟨rest, -, rfl⟩ := fetchNext_some hf
    exact hbegin (.refused .adcRead _ _) (henv _ s hs)
  · exact idleStep_keeps hedge henv hs

/-- From `s` to `v` edges may have been delivered; where none was, the counter and the filtered speed are as they were. -/
def ByEdgesOnly (s v : State) : Prop :=
  ∃ es, edgeEvents v.hist = edgeEvents s.hist ++ es ∧
    (es = [] → v.rot.pulseCount = s.rot.pulseCount ∧ v.rot.filteredSpeed = s.rot.filteredSpeed)

theorem ByEdgesOnly.refl (s : State) : ByEdgesOnly s s := ⟨[], (List.append_nil _).symm, fun _ => ⟨rfl, rfl⟩⟩

/-- What delivers no edge and leaves both registers. -/
theorem ByEdgesOnly.frame {s v w : State} (h : ByEdgesOnly s v) (hedges : edgeEvents w.hist = edgeEvents v.hist)
    (hcount : w.rot.pulseCount = v.rot.pulseCount) (hspeed : w.rot.filteredSpeed = v.rot.filteredSpeed) : ByEdgesOnly s w := by
  rwa [ByEdgesOnly, hedges, hcount, hspeed]

theorem edgeEvents_of_main {es : List Event} (h : ∀ e ∈ es, isEdgeEvent e = false) : edgeEvents es = [] :=
  List.filter_eq_nil_iff.2 fun e he => by simp [h e he]

theorem ByEdgesOnly.microStep {s v : State} (l : Level) (now : Time) (h : ByEdgesOnly s v) : ByEdgesOnly s (microStep l now v) := by
  have hkept := microStep_kept l now v
  obtain ⟨es, hhist, hmain⟩ := microStep_appends l now v
  have hnone := edgeEvents_of_main fun e he => (hmain e he).1
  exact h.frame (by rw [hhist, edgeEvents_append, hnone, List.append_nil]) hkept.pulseCount hkept.filteredSpeed

/-- A delivered edge leaves its event, whatever it does to the registers (R225). -/
theorem ByEdgesOnly.takeEdge {s v : State} (now : Time) (h : ByEdgesOnly s v) : ByEdgesOnly s (takeEdge now v) := by
  obtain ⟨-, heq⟩ | ⟨-, heq⟩ := takeEdge_cases now v <;> rw [heq]
  · exact h
  · obtain ⟨es, hes, -⟩ := h
    refine ⟨es ++ [.edge now], ?_, fun hnil => absurd hnil (List.append_ne_nil_of_right_ne_nil es (List.cons_ne_nil _ _))⟩
    rw [edgeEvents_append, hes, List.append_assoc]
    rfl

theorem ByEdgesOnly.begin {s v u : State} {i : Instr} (hb : Begins i v u) (h : ByEdgesOnly s v) : ByEdgesOnly s u := by
  have hrot : u.rot.pulseCount = v.rot.pulseCount ∧ u.rot.filteredSpeed = v.rot.filteredSpeed := by cases hb <;> exact ⟨rfl, rfl⟩
  exact h.frame (by rw [hb.hist]) hrot.1 hrot.2

theorem step_byEdgesOnly {s t : State} (h : step s = .next t) : ByEdgesOnly s t :=
  step_keeps (P := ByEdgesOnly s) (fun now _ hv => hv.takeEdge now) (fun l now _ hv => hv.microStep l now) (fun _ _ hv => hv)
    (fun hb hv => hv.begin hb) h (.refl s)

/-- Settles O51: every part of a step changes the two registers by delivering an edge or not at all. -/
theorem onlyTheHandlerMutatesCounterAndSpeed : Obligations.OnlyTheHandlerMutatesCounterAndSpeed := by
  unfold Obligations.OnlyTheHandlerMutatesCounterAndSpeed
  intro s t h hnone
  obtain ⟨es, hes, hkept⟩ := step_byEdgesOnly h
  exact hkept (List.append_right_eq_self.1 (hes.symm.trans hnone))

end Sys2Proof.HandlerOnly
end

section
/-! PROOF. A refusal is decided before anything is done (60_exceptions.md R212). What begins a command is either the refusal itself or
a run that is `Unrefused`: no refusal stands, and the registers whose absence could still refuse it have been written. Edges and
micro-steps keep that to the end of the command. -/

open Sys2Proof.Machine Sys2Proof.Laws Sys2Proof.Issue

namespace Sys2Proof.Refusing

/-- The last command is not refused, and the running one finds the registers its end needs (R30). -/
structure Unrefused (s : State) : Prop where
  mean : ∀ n use, s.task = .reading (.average n use) → meanOperands use s
  pin : ∀ pos, s.task = .start pos → s.rot.pin.isSome = true
  rsp : ∀ v, s.rsp ≠ some ⟨.refused, v⟩

theorem unrefused_finish (v : BitVec 64) (s : State) : Unrefused (finish v s) := ⟨nofun, nofun, nofun⟩

theorem unrefused_neverReady (s : State) : Unrefused (neverReady s) := ⟨nofun, nofun, nofun⟩

theorem unrefused_finishMean {use : MeanUse} (m : Raw) {s : State} (h : meanOperands use s) : Unrefused (finishMean use m s) := by
  cases use with
  | raw | tare => exact unrefused_finish _ _
  | value =>
    obtain ⟨o, ho⟩ := Option.isSome_iff_exists.1 h
    simp only [finishMean, ho]
    exact unrefused_finish _ _
  | units =>
    obtain ⟨hoffset, hscale⟩ := h
    obtain ⟨o, ho⟩ := Option.isSome_iff_exists.1 hoffset
    obtain ⟨c, hc⟩ := Option.isSome_iff_exists.1 hscale
    simp only [finishMean, ho, hc]
    exact unrefused_finish _ _

section Run
variable {s : State} (h : Unrefused s)
include h

theorem Unrefused.env (e : Env) : Unrefused { s with env := e } := { h with }

theorem Unrefused.takeEdge (now : Time) : Unrefused (takeEdge now s) := by
  obtain ⟨-, heq⟩ | ⟨-, heq⟩ := takeEdge_cases now s <;> rw [heq]
  · exact h
  · exact { h with pin := fun pos hk => (congrArg _ (edgeHandler_pin now s.rot)).trans (h.pin pos hk) }

theorem Unrefused.pollReady (l : Level) : Unrefused (pollReady l s) := by
  unfold Machine.pollReady
  cases l with
  | low => exact { h with }
  | high =>
    simp only
    split
    · exact { h with }
    · split
      · exact unrefused_neverReady _
      · exact { h with }

theorem Unrefused.packRead {use : ReadUse} (hk : s.task = .reading use) : Unrefused (packRead use s) := by
  unfold Machine.packRead
  cases use with
  | dummy | single => exact unrefused_finish _ _
  | average n use =>
    simp only
    split
    · exact unrefused_finishMean _ (h.mean n use hk)
    · exact { h with }

theorem Unrefused.readStep {use : ReadUse} (hk : s.task = .reading use) (l : Level) : Unrefused (readStep use l s) := by
  unfold Machine.readStep
  split
  · exact h
  · exact h.pollReady l
  · exact { h with }
  · exact { h with }
  · exact { h with }
  · exact { h with }
  · exact { h with }
  · exact h.packRead hk

theorem Unrefused.startStep {pos : StartPos} (hk : s.task = .start pos) (now : Time) : Unrefused (startStep pos now s) := by
  have hpin := h.pin pos hk
  obtain ⟨p, hp⟩ := Option.isSome_iff_exists.1 hpin
  unfold Machine.startStep
  rw [hp]
  cases pos with
  | configure | now | attach => exact ⟨nofun, fun _ _ => hpin, h.rsp⟩
  | flip => exact unrefused_finish _ _

theorem Unrefused.readByte (reg : SharedReg) (left : List Nat) (got : F64) : Unrefused (readByte reg left got s) := by
  unfold Machine.readByte
  simp only
  split
  · exact unrefused_finish _ _
  · split
    · exact unrefused_finish _ _
    · exact ⟨nofun, nofun, h.rsp⟩

theorem Unrefused.microStep (l : Level) (now : Time) : Unrefused (microStep l now s) := by
  cases hk : s.task with rw [Machine.microStep, hk]
  | idle => exact h
  | reading use => exact h.readStep hk l
  | start pos => exact h.startStep hk now
  | sharedBytes reg left got => exact h.readByte reg left got
  | sampleReady | powerDownHigh | powerUpLow | sharedWhole => exact unrefused_finish _ _
  | constructOut | constructIn | gainLow | powerDownLow => exact ⟨nofun, nofun, h.rsp⟩

theorem Unrefused.runCommand : Unrefused (runCommand s) :=
  runCommand_keeps (P := Unrefused) (fun now _ hv => hv.takeEdge now) (fun l now _ hv => hv.microStep l now)
    (fun e _ hv => hv.env e) h

end Run

/-- The tests made when a command is issued cover all that could refuse it later (R91, R223). -/
theorem Begins.refused_or_unrefused {i : Instr} {s u : State} (hb : Begins i s u) (hi : i.isCommand = true) :
    (∃ r, u = refuse r s) ∨ Unrefused u := by
  cases hb with
  | refused r => exact .inl ⟨_, rfl⟩
  | gainRow hrow => obtain rfl | rfl | rfl := hrow <;> cases hi
  | mean hc hn ho => exact .inr ⟨fun n use hk => by cases hk; exact ho, nofun, nofun⟩
  | rotStart hs hp => exact .inr ⟨nofun, fun _ _ => hp, nofun⟩
  | link hc hik => obtain ⟨-, rfl⟩ | ⟨-, rfl⟩ | ⟨-, rfl⟩ := hik <;> exact .inr ⟨nofun, nofun, nofun⟩
  | getter _ hk => obtain ⟨reg, rfl | ⟨left, got, rfl⟩⟩ := hk <;> exact .inr ⟨nofun, nofun, nofun⟩
  | _ => exact .inr ⟨nofun, nofun, nofun⟩

/-- Settles O16: a run that is not refused when it begins does not end refused. -/
theorem refusedCommandsChangeNothing : Obligations.RefusedCommandsChangeNothing := by
  unfold Obligations.RefusedCommandsChangeNothing
  intro i s t v hi hs h hrsp
  obtain ⟨now, rfl, -⟩ | ⟨-, u, hb, rfl⟩ := exec_begins h
  · cases hi
  · obtain ⟨r, rfl⟩ | hu := Begins.refused_or_unrefused hb hi
    · rw [runCommand_idle (s := refuse r s) hs]
      rfl
    · exact absurd hrsp (hu.runCommand.rsp v)

end Sys2Proof.Refusing
end

section
/-! PROOF. No step stops the machine (60_exceptions.md R210, R226): the model's one refusal is given while a command runs, and then a
step goes on with that command. -/

open Sys2Proof.Machine Sys2Proof.Laws Sys2Proof.Presenting

namespace Sys2Proof.Answering

theorem exists_adcCommand_of_idle (body : State → State) {s : State} (hs : s.task = .idle) : ∃ t, adcCommand s body = .next t :=
  ⟨_, command_of_idle _ hs⟩

/-- With no command running every instruction has a next state. -/
theorem exists_exec_of_idle (i : Instr) {s : State} (hs : s.task = .idle) : ∃ t, exec i s = .next t := by
  unfold exec
  cases i with
  | rotEdge now => exact ⟨_, rfl⟩
  | adcConstruct | rotConstruct | rotStart | rotGetSpeed | rotGetRotates | gainCode128 | gainCode64 | gainCode32 =>
    exact ⟨_, command_of_idle _ hs⟩
  | _ => exact exists_adcCommand_of_idle _ hs

/-- Settles O10: a command runs on, or a thing presented is run or refused, or the block waits. -/
theorem everyStepAnswersANextState : Obligations.EveryStepAnswersANextState := by
  unfold Obligations.EveryStepAnswersANextState
  intro s
  by_cases hs : s.task = .idle
  · cases hp : s.env.cmds with
    | nil => exact ⟨_, SideBySide.step_of_waiting hs hp⟩
    | cons p rest =>
      cases hd : decode p with
      | ok i =>
        rw [step_of_decoded hs hp hd]
        exact exists_exec_of_idle i hs
      | error e => exact ⟨_, step_of_undecoded hs hp hd⟩
  · exact ⟨_, step_of_running hs⟩

end Sys2Proof.Answering
end

section
/-! PROOF. Power-on (10_state.md R31, 70_reset_and_hazards.md R240): the registers stand at the values of R31's table, and with
nothing presented and no edge to come the block waits as it is. -/

open Sys2Proof.Machine Sys2Proof.Laws

namespace Sys2Proof.PowerOn

theorem idleStep_quiet {s : State} (h : quiet s) : idleStep s = s := by
  have hmore : moreEdges s = s := moreEdges_quiet h
  simp only [idleStep, hmore, h.1]

/-- Settles O12: the registers by the definition of the reset state, the step because nothing is presented and no edge is to come. -/
theorem powerOnStateIsTheSpecs : Obligations.PowerOnStateIsTheSpecs := by
  unfold Obligations.PowerOnStateIsTheSpecs
  have hwaits : step State.reset = .next State.reset := by
    rw [SideBySide.step_of_waiting rfl rfl, idleStep_quiet ⟨rfl, rfl⟩]
  exact ⟨⟨rfl, rfl, rfl, rfl, rfl, rfl, rfl⟩, ⟨rfl, rfl, rfl⟩, ⟨rfl, rfl, rfl, rfl, rfl, rfl⟩, hwaits⟩

end Sys2Proof.PowerOn
end
